-- ==== Sys2Proof/Word.lean ====
section
/-! DEFINITION. The value types of LMX and their plainest arithmetic (spec 00_scope.md R10 to R13, 10_state.md). -/

namespace Sys2Proof

/-- An 8-bit port byte, brightness, character code or frame-memory cell (R10). -/
abbrev Byte := BitVec 8

/-- A column mask: 7 bits, bit `y` is the pixel of logical row `y` (R10, R51). -/
abbrev ColMask := BitVec 7

/-- A frame id, 0 or 1 (R16). -/
abbrev FrameId := Fin 2

/-- A logical column, 0 to 16 (R13). -/
abbrev PanelX := Fin 17

/-- A logical row, 0 to 6 (R13). -/
abbrev PanelY := Fin 7

/-- A glyph index, 0 to 94: character code minus 32 (R9). -/
abbrev Glyph := Fin 95

/-- A bitmap: 17 column masks, index = logical column (R16, R52). -/
abbrev Bitmap := Vector ColMask 17

/-- A font: column `k` (0 to 4) of glyph `g` (0 to 94) is a column mask (R9). -/
abbrev Font := Glyph → Fin 5 → ColMask

/-- The other frame, the spec's `1 − f` (R16, R27). -/
abbrev otherFrame (f : FrameId) : FrameId := 1 - f

end Sys2Proof
end

