-- ==== Sys2Proof/Config.lean ====
section
/-! DEFINITION. The fixed parameters of LMX (00_scope.md R7, R8) and its open ones (92_eei_decisions.md section 2),
the latter as constants without a body. -/

namespace Sys2Proof.Config

/-- `BRIGHT_DEFAULT`: the brightness a call stands for when it gives none (R7, R105). -/
abbrev brightDefault : BitVec 16 := 30
/-- `BRIGHT_MAX`: the upper clamp of brightness (R7). -/
abbrev brightMax : Int := 255
/-- `INTENS_MAX`: the upper clamp of intensity (R7). -/
abbrev intensMax : Int := 9
/-- `TEXT_MAX`: the greatest text length a SCROLL carries (R8). -/
abbrev textMax : Nat := 255
/-- `PIX_MAX`: the greatest number of triples a PIXELS carries (R8). -/
abbrev pixMax : Nat := 255
/-- The longest command in bytes, PIXELS with 255 triples (R33, R88). -/
abbrev longestCommand : Nat := 767
/-- The space character, the pad of a text (R151). -/
abbrev space : Byte := 32
/-- `IMG_SEP`, the character `:` (R8, R184). -/
abbrev imgSep : Byte := 0x3A

/-- OPEN, the glyph bytes the spec gives no value for (R9, D26): a free value per glyph column. -/
opaque fontFree : Glyph → Fin 5 → ColMask

/-- `FONT`: the free glyph bytes under the one constraint of R9, the glyph of the space character is blank. -/
def font : Font := fun g k => if g = 0 then 0 else fontFree g k

/-- OPEN, `FM_RESET f idx`: what a frame-memory cell holds before anything has written it (R8, R40, U4). -/
opaque fmReset : FrameId → Fin 144 → Byte

/-- OPEN, `Y0_AT_TOP`: whether row 0 is the top row (R13, D29); no rule depends on it. -/
opaque y0AtTop : Bool

/-- OPEN, the outputs `map_pcol` and `map_prow` of the mapper sub-block for an input off the panel (R109, U5). -/
opaque mapBlockFree : BitVec 5 → BitVec 3 → BitVec 4 × BitVec 4

end Sys2Proof.Config
end

