-- ==== Sys2Proof/Syntax.lean ====
section
/-! DEFINITION. The instructions of LMX: one constructor per row of spec/opcode_table.json (seven commands of the
command port, three primitives of the driver port), and the calls they stand for (30_encoding.md R106). -/

namespace Sys2Proof

/-- One element of a pixel list: `x` and `y` unsigned, `i` signed (R32, R95). -/
structure Triple where
  x : Byte
  y : Byte
  i : Byte
  deriving DecidableEq, Repr

/-- The instructions, in the table's order. -/
inductive Instr where
  /-- CLEAR (R90, R176). -/
  | clear
  /-- SCROLL: brightness operand `B` and the `LEN` characters (R91, R150). -/
  | scroll (b : BitVec 16) (text : List Byte)
  /-- SCROLLN: brightness operand `B` and the signed integer `N` (R93, R161). -/
  | scrolln (b : BitVec 16) (n : BitVec 32)
  /-- DRAW: brightness operand `B` and the 17 column bytes (R94, R142). -/
  | draw (b : BitVec 16) (masks : Vector Byte 17)
  /-- PIXELS: the `CNT` triples (R95, R177). -/
  | pixels (triples : List Triple)
  /-- IMGSTR: the `LEN` characters of a custom image string (R96, R183). -/
  | imgstr (chars : List Byte)
  /-- PADDR: the two coordinates (R97, R126). -/
  | paddr (x y : Byte)
  /-- SELECT_FRAME: frame id and the `show` bit (R84, R131). -/
  | selectFrame (id : FrameId) (shown : Bool)
  /-- CLEAR_FRAME (R84, R132). -/
  | clearFrame
  /-- SET_PIXEL: physical column, physical row, brightness (R84, R133). -/
  | setPixel (pcol prow : BitVec 4) (b : Byte)
  deriving DecidableEq, Repr

/-- A driver primitive, what LMX emits on the driver port (R130). -/
inductive Prim where
  | selectFrame (id : FrameId) (shown : Bool)
  | clearFrame
  | setPixel (pcol prow : BitVec 4) (b : Byte)
  deriving DecidableEq, Repr

/-- A primitive as the instruction of its table row. -/
def Prim.instr : Prim → Instr
  | .selectFrame id shown => .selectFrame id shown
  | .clearFrame => .clearFrame
  | .setPixel pcol prow b => .setPixel pcol prow b

/-- The commands of the command port, as against the primitives of the driver port (R16). -/
def Instr.isCommand : Instr → Bool
  | .clear | .scroll _ _ | .scrolln _ _ | .draw _ _ | .pixels _ | .imgstr _ | .paddr _ _ => true
  | .selectFrame _ _ | .clearFrame | .setPixel _ _ _ => false

/-- The input variants of `show` and `scroll` (R106, R175): the opcode is the tag. -/
inductive CallValue where
  | text (chars : List Byte)
  | integer (n : BitVec 32)
  | bitmap (masks : Vector Byte 17)
  | triples (list : List Triple)
  deriving DecidableEq, Repr

/-- The calls of the source's facade; an absent brightness means `BRIGHT_DEFAULT` (R105, R106). -/
inductive HostCall where
  | clear
  | scrollText (chars : List Byte) (b : Option (BitVec 16))
  | scrollInteger (n : BitVec 32) (b : Option (BitVec 16))
  | showValue (value : CallValue) (b : Option (BitVec 16))
  | draw (masks : Vector Byte 17) (b : BitVec 16)
  | pixelAddr (x y : Byte)
  | showImageString (chars : List Byte)
  deriving DecidableEq, Repr

/-- The command a call stands for (R106). A pixel list ignores the brightness argument. -/
def HostCall.expand : HostCall → Instr
  | .clear => .clear
  | .scrollText chars b => .scroll (b.getD Config.brightDefault) chars
  | .scrollInteger n b => .scrolln (b.getD Config.brightDefault) n
  | .showValue (.text chars) b => .scroll (b.getD Config.brightDefault) chars
  | .showValue (.integer n) b => .scrolln (b.getD Config.brightDefault) n
  | .showValue (.bitmap masks) b => .draw (b.getD Config.brightDefault) masks
  | .showValue (.triples list) _ => .pixels list
  | .draw masks b => .draw b masks
  | .pixelAddr x y => .paddr x y
  | .showImageString chars => .imgstr chars

end Sys2Proof
end

