-- ==== Sys2Proof/WellFormed.lean ====
section
/-! DEFINITION. Which instructions the formats can carry (30_encoding.md R88, R91, R95, R96, R99). -/

namespace Sys2Proof

/-- A length field is one byte (R88); a SET_PIXEL names one of the 9 physical columns (R99). -/
def Instr.wellFormed : Instr → Bool
  | .scroll _ text => decide (text.length ≤ Config.textMax)
  | .pixels triples => decide (triples.length ≤ Config.pixMax)
  | .imgstr chars => decide (chars.length ≤ 255)
  | .setPixel pcol _ _ => decide (pcol.toNat ≤ 8)
  | .clear | .scrolln _ _ | .draw _ _ | .paddr _ _ | .selectFrame _ _ | .clearFrame => true

end Sys2Proof
end

