-- ==== Sys2Proof/Decode.lean ====
section
/-! DEFINITION. The decoder of the two ports, total on any bytes and any driver word and rejecting by name, and the
encoder written from the same tables (30_encoding.md R84, R88 to R101; opcode_table.json). -/

namespace Sys2Proof

/-- Why bytes or a driver word are no instruction. -/
inductive DecodeError where
  /-- The opcode byte is `0x00` or `0x08` to `0xFF` (R98). -/
  | illegalOpcode (op : Byte)
  /-- The format needs more operand bytes than there are (R82, R101). -/
  | incomplete
  /-- Driver word with `op = 00`, never presented (R99). -/
  | driverOpNone
  /-- Driver word with a reserved bit set, never presented (R99). -/
  | driverReservedBits
  deriving DecidableEq, Repr

/-- Split off the first `n` bytes, if there are so many. -/
def takeBytes (n : Nat) (l : List Byte) : Option (List Byte × List Byte) :=
  if n ≤ l.length then some (l.take n, l.drop n) else none

/-- The `CNT` triples of a PIXELS command, three bytes each (R88, R95). -/
def parseTriples : Nat → List Byte → Option (List Triple × List Byte)
  | 0, l => some ([], l)
  | n + 1, x :: y :: i :: l =>
    match parseTriples n l with
    | some (ts, rest) => some (⟨x, y, i⟩ :: ts, rest)
    | none => none
  | _ + 1, _ => none

/-- 17 column bytes as a vector, byte `j` for column `j` (R94). -/
def columnsOf (l : List Byte) : Vector Byte 17 := Vector.ofFn fun j => l.getD j.val 0

/-- The decoder of the command port: one command from the front of a byte stream, with the bytes after it
(R88, R89, R98, R101). Two-byte and four-byte operands are little-endian (R53). -/
def decodeCommand : List Byte → Except DecodeError (Instr × List Byte)
  | [] => .error .incomplete
  | op :: r =>
    if op = 0x01 then .ok (.clear, r)
    else if op = 0x02 then
      match r with
      | b0 :: b1 :: len :: r =>
        match takeBytes len.toNat r with
        | some (text, rest) => .ok (.scroll (b1 ++ b0) text, rest)
        | none => .error .incomplete
      | _ => .error .incomplete
    else if op = 0x03 then
      match r with
      | b0 :: b1 :: n0 :: n1 :: n2 :: n3 :: rest => .ok (.scrolln (b1 ++ b0) (n3 ++ n2 ++ n1 ++ n0), rest)
      | _ => .error .incomplete
    else if op = 0x04 then
      match r with
      | b0 :: b1 :: r =>
        match takeBytes 17 r with
        | some (masks, rest) => .ok (.draw (b1 ++ b0) (columnsOf masks), rest)
        | none => .error .incomplete
      | _ => .error .incomplete
    else if op = 0x05 then
      match r with
      | cnt :: r =>
        match parseTriples cnt.toNat r with
        | some (ts, rest) => .ok (.pixels ts, rest)
        | none => .error .incomplete
      | _ => .error .incomplete
    else if op = 0x06 then
      match r with
      | len :: r =>
        match takeBytes len.toNat r with
        | some (chars, rest) => .ok (.imgstr chars, rest)
        | none => .error .incomplete
      | _ => .error .incomplete
    else if op = 0x07 then
      match r with
      | x :: y :: rest => .ok (.paddr x y, rest)
      | _ => .error .incomplete
    else .error (.illegalOpcode op)

/-- The decoder of the driver port: bits 17:16 are the kind, the other bits depend on it (R84, R99). -/
def decodeDriver (w : BitVec 18) : Except DecodeError Prim :=
  if w.extractLsb' 16 2 = 0b01#2 then
    if w.extractLsb' 2 14 = 0 then
      .ok (.selectFrame (if w.getLsbD 0 then 1 else 0) (w.getLsbD 1))
    else .error .driverReservedBits
  else if w.extractLsb' 16 2 = 0b10#2 then
    if w.extractLsb' 0 16 = 0 then .ok .clearFrame else .error .driverReservedBits
  else if w.extractLsb' 16 2 = 0b11#2 then
    .ok (.setPixel (w.extractLsb' 12 4) (w.extractLsb' 8 4) (w.extractLsb' 0 8))
  else .error .driverOpNone

/-! ## The encoder -/

/-- What an instruction is on its port: bytes of the command port, or one word of the driver port. -/
inductive Packet where
  | command (bytes : List Byte)
  | driver (word : BitVec 18)
  deriving DecidableEq, Repr

/-- The bytes of a triple, in the order x, y, i (R88). -/
def Triple.bytes (t : Triple) : List Byte := [t.x, t.y, t.i]

/-- The two bytes of a brightness operand, low byte first (R92). -/
def brightnessBytes (b : BitVec 16) : List Byte := [b.extractLsb' 0 8, b.extractLsb' 8 8]

/-- The driver word of a primitive (R84, R131 to R133). -/
def Prim.word : Prim → BitVec 18
  | .selectFrame id shown => 0b01#2 ++ 0#14 ++ BitVec.ofBool shown ++ BitVec.ofNat 1 id.val
  | .clearFrame => 0b10#2 ++ 0#16
  | .setPixel pcol prow b => 0b11#2 ++ pcol ++ prow ++ b

/-- The encoder: the bytes or the word of a well-formed instruction (R84, R88 to R97). -/
def encode : Instr → Packet
  | .clear => .command [0x01]
  | .scroll b text => .command ([0x02] ++ brightnessBytes b ++ [BitVec.ofNat 8 text.length] ++ text)
  | .scrolln b n => .command ([0x03] ++ brightnessBytes b ++
      [n.extractLsb' 0 8, n.extractLsb' 8 8, n.extractLsb' 16 8, n.extractLsb' 24 8])
  | .draw b masks => .command ([0x04] ++ brightnessBytes b ++ masks.toList)
  | .pixels triples => .command ([0x05, BitVec.ofNat 8 triples.length] ++ triples.flatMap Triple.bytes)
  | .imgstr chars => .command ([0x06, BitVec.ofNat 8 chars.length] ++ chars)
  | .paddr x y => .command [0x07, x, y]
  | .selectFrame id shown => .driver (Prim.word (.selectFrame id shown))
  | .clearFrame => .driver (Prim.word .clearFrame)
  | .setPixel pcol prow b => .driver (Prim.word (.setPixel pcol prow b))

/-- Decode a packet of either port: the instruction and the command bytes after it. -/
def decode : Packet → Except DecodeError (Instr × List Byte)
  | .command bytes => decodeCommand bytes
  | .driver word =>
    match decodeDriver word with
    | .ok p => .ok (p.instr, [])
    | .error e => .error e

/-! ## Words numbered as the opcode table numbers them -/

/-- A table row of 17 to 24 bits is an 18-bit driver word held in whole bytes; every other row is command bytes
(the table's command rows fix the opcode byte only, its driver rows all 18 bits). -/
def isDriverWidth (nbits : Nat) : Bool := decide (17 ≤ nbits) && decide (nbits ≤ 24)

/-- The first `n` bytes of a number, least significant byte first. -/
def bytesOfNat : Nat → Nat → List Byte
  | 0, _ => []
  | n + 1, w => BitVec.ofNat 8 w :: bytesOfNat n (w / 256)

/-- The command bytes of a table word: its own bits, then zero bytes up to the longest command. -/
def tableBytes (nbits w : Nat) : List Byte := bytesOfNat Config.longestCommand (w % 2 ^ nbits)

/-- The instruction the decoder reads from a table word. -/
def decodeTableWord (nbits w : Nat) : Option Instr :=
  if isDriverWidth nbits then
    if w < 2 ^ 18 then
      match decodeDriver (BitVec.ofNat 18 w) with
      | .ok p => some p.instr
      | .error _ => none
    else none
  else
    match decodeCommand (tableBytes nbits w) with
    | .ok (i, _) => some i
    | .error _ => none

end Sys2Proof
end

