-- ==== Sys2Proof/Machine/State.lean ====
section
/-! DEFINITION. The state of LMX and of the driver-chip collaborator as plain data (10_state.md), its value after
reset (R40), and the reasons a step can stop. -/

namespace Sys2Proof.Machine

/-- The sequencer phase `PHASE` (R23); it has no numeric encoding. -/
inductive Phase where
  | idle
  | receive
  | normalizing
  | staticDraw
  | animatingStep
  | bitmapDraw
  | pixelDraw
  | clearing
  | respond
  deriving DecidableEq, Repr

/-- The sub-phase of a draw (R25). -/
inductive DrawSub where
  | dSelect
  | dClear
  | dPixels
  | dFlip
  deriving DecidableEq, Repr

/-- Frame memory: written cells by address `144 * f + idx`, addresses strictly rising. An unlisted address has no
written value; what such a cell holds is `Config.fmReset` (R26, R40). -/
abbrev Mem := List Host.Cell

/-- The collaborator's state that LMX's primitives act on (R20 (b), R26, R28). -/
structure Chip where
  /-- `TARGET`: the frame CLEAR_FRAME and SET_PIXEL write. -/
  target : FrameId
  /-- `VISIBLE`: the frame the LEDs show. -/
  visible : FrameId
  /-- `FM`: the frame memory. -/
  fm : Mem
  deriving DecidableEq, Repr

/-- The whole machine. `cmdIn`, `trace` and `taken` are the model's own: what the host has yet to send, and what has
crossed the driver and response ports (R135). -/
structure State where
  /-- `PHASE` (R23). -/
  phase : Phase
  /-- Sub-phase of the draw in progress, none outside a draw (R25). -/
  dsub : Option DrawSub
  /-- `SB[0..16]` (R21). -/
  sb : Bitmap
  /-- `BR` (R22). -/
  br : Byte
  /-- `CI`, current character index (R24). -/
  ci : BitVec 8
  /-- `SC`, sub-column 0 to 5 (R24). -/
  sc : Fin 6
  /-- `DX`, column iterator 0 to 16 (R25). -/
  dx : PanelX
  /-- `DY`, row iterator 0 to 6 (R25). -/
  dy : PanelY
  /-- `PI`, pixel-list iterator (R25). -/
  pi : BitVec 8
  /-- `ACTIVE` (R27). -/
  active : FrameId
  /-- `ERR`, the code of the last completed command (R34). -/
  err : BitVec 4
  /-- `TXT[0..254]` (R31). -/
  txt : Vector Byte 255
  /-- `TLEN` (R31). -/
  tlen : BitVec 8
  /-- `PL[0..254]` (R32). -/
  pl : Vector Triple 255
  /-- `PLEN` (R32). -/
  plen : BitVec 8
  /-- `CB`, the bytes of the command being received or carried out, opcode first (R33). -/
  cb : List Byte
  /-- `drv_valid` and `drv_word`: the primitive presented and not yet accepted (R83, R85). -/
  drv : Option (BitVec 18)
  /-- `rsp_valid` and `rsp_word`: the response issued and not yet taken (R86, R87). -/
  rsp : Option (BitVec 16)
  /-- The level of the input `rst` (R108, R230). -/
  rst : Bool
  /-- The collaborator (R26, R28). -/
  chip : Chip
  /-- The bytes the host has yet to send on the command port, first to arrive first (R80). -/
  cmdIn : List Byte
  /-- The primitives accepted so far, oldest first (R135). -/
  trace : List Prim
  /-- The response words taken so far, oldest first (R86). -/
  taken : List (BitVec 16)
  deriving DecidableEq, Repr

/-- Why the machine stops. -/
inductive Fault where
  /-- Raised by SET_PIXEL with a physical column above 8, whose index names no cell (R58, R99). Safe: LMX never emits
  it. -/
  | noSuchCell
  /-- Raised by a step in `Receive` when the host sends no further byte: the stuck state of R221. Safe. -/
  | stuckInReceive
  /-- Raised by a step in a state with no enabled step that no run reaches, such as `Respond` with no response.
  Safe. -/
  | noEnabledStep
  deriving DecidableEq, Repr

/-- Why the model gives no meaning. -/
inductive Refusal where
  /-- Raised by an arm of `exec` whose instruction has no meaning yet. Safe. -/
  | notModelled (mnemonic : String)
  /-- Raised by a step when the driver port presents a word LMX never produces (R99, U11). Safe. -/
  | driverWordNeverProduced
  deriving DecidableEq, Repr

/-- The machine right after reset, with the collaborator as the boot requirement asks (R40, R230, R234). The spec
leaves the scratch registers unspecified; the model gives them zero (notes/assumptions/3.md, DESIGN CHOICE). -/
def State.reset : State where
  phase := .idle
  dsub := none
  sb := Vector.replicate 17 0
  br := 0
  ci := 0
  sc := 0
  dx := 0
  dy := 0
  pi := 0
  active := 0
  err := 0
  txt := Vector.replicate 255 0
  tlen := 0
  pl := Vector.replicate 255 ⟨0, 0, 0⟩
  plen := 0
  cb := []
  drv := none
  rsp := none
  rst := false
  chip := ⟨0, 0, []⟩
  cmdIn := []
  trace := []
  taken := []

end Sys2Proof.Machine
end

