-- ==== Sys2Proof/Machine/Flags.lean ====
section
/-! DEFINITION. The result codes and the response word (60_exceptions.md R200, 30_encoding.md R86), and the output
pins (10_state.md R35, 30_encoding.md R81, R83, R86). LMX has no arithmetic flags (R34). -/

namespace Sys2Proof.Machine

/-- The errors a command can end in (R200). -/
inductive ErrorCause where
  | characterNotRenderable
  | malformedImageValue
  | coordinateOutOfRange
  | illegalCommand
  deriving DecidableEq, Repr

/-- The numeric code of an error (R200). -/
def ErrorCause.code : ErrorCause → BitVec 4
  | .characterNotRenderable => 1
  | .malformedImageValue => 2
  | .coordinateOutOfRange => 3
  | .illegalCommand => 4

/-- The code of a command that completed (R200). -/
def okCode : BitVec 4 := 0

/-- `rsp_word`: bits 15:12 zero, 11:8 the code, 7:0 the data (R86). -/
def responseWord (code : BitVec 4) (data : Byte) : BitVec 16 := 0#4 ++ code ++ data

/-- Pin `busy`: 1 exactly when `PHASE ≠ Idle` (R35). -/
def State.busy (s : State) : Bool := decide (s.phase ≠ .idle)

/-- Pin `active` (R35). -/
def State.activePin (s : State) : FrameId := s.active

/-- Pin `cmd_ready` (R81); 0 while `rst` is asserted (R230). -/
def State.cmdReady (s : State) : Bool :=
  !s.rst && ((decide (s.phase = .idle) && s.rsp.isNone) || decide (s.phase = .receive))

/-- Pin `drv_valid` (R83). -/
def State.drvValid (s : State) : Bool := s.drv.isSome

/-- Pin `rsp_valid` (R86). -/
def State.rspValid (s : State) : Bool := s.rsp.isSome

end Sys2Proof.Machine
end

