-- ==== Sys2Proof/Machine/Operands.lean ====
section
/-! DEFINITION. Operand forms: brightness and intensity (30_encoding.md R102, R103), column bytes (R104), coordinates
(R61), the decimal text of an integer (42_scroll.md R162), normalisation (R151) and glyph columns (R152). -/

namespace Sys2Proof.Machine

/-- `clamp(v, lo, hi)` (R11). -/
def clamp (v lo hi : Int) : Int := if v < lo then lo else if hi < v then hi else v

/-- `clamp(sext_16(B), 0, 255)`, the value `BR` gets (R102). -/
def clampBrightness (b : BitVec 16) : Byte := BitVec.ofInt 8 (clamp b.toInt 0 Config.brightMax)

/-- `scale(i)`: intensity clamped to 0..9, times 255, floor-divided by 9 (R103, R178). -/
def scale (i : Byte) : Byte := BitVec.ofInt 8 (clamp i.toInt 0 Config.intensMax * 255 / 9)

/-- A column byte without its bit 7 (R104, R143). -/
def columnMask (m : Byte) : ColMask := m.setWidth 7

/-- The 17 column bytes of DRAW as a bitmap (R142). -/
def bitmapOf (masks : Vector Byte 17) : Bitmap := Vector.ofFn fun j => columnMask masks[j]

/-- Coordinates on the panel, or none when `x > 16` or `y > 6` (R61, R104). -/
def panelPoint? (x y : Byte) : Option (PanelX × PanelY) :=
  if h : x.toNat ≤ 16 ∧ y.toNat ≤ 6 then some (⟨x.toNat, by omega⟩, ⟨y.toNat, by omega⟩) else none

/-! ## Text -/

/-- Decimal digits of `n` in front of `acc`, most significant first, with at most `fuel + 1` digits (R162). -/
def decDigits : Nat → Nat → List Byte → List Byte
  | 0, n, acc => BitVec.ofNat 8 (48 + n % 10) :: acc
  | fuel + 1, n, acc =>
    if n < 10 then BitVec.ofNat 8 (48 + n) :: acc
    else decDigits fuel (n / 10) (BitVec.ofNat 8 (48 + n % 10) :: acc)

/-- `dec(n)`: the decimal text of a 32-bit signed integer; its magnitude has at most ten digits (R162). -/
def dec (n : BitVec 32) : List Byte :=
  if n.toInt < 0 then 45 :: decDigits 9 n.toInt.natAbs [] else decDigits 9 n.toInt.natAbs []

/-- Normalisation: pad with spaces to 3 characters from 1 or 2, else to at least 4 but for length 3 (R151). -/
def normalise (text : List Byte) : List Byte :=
  match text.length with
  | 1 => text ++ [Config.space, Config.space]
  | 2 => text ++ [Config.space]
  | 3 => text
  | n => text ++ List.replicate (4 - n) Config.space

/-- The glyph of a character code 32 to 126; no other code has one (R30, R153). -/
def glyphOf? (c : Byte) : Option Glyph :=
  if h : 32 ≤ c.toNat ∧ c.toNat ≤ 126 then some ⟨c.toNat - 32, by omega⟩ else none

/-- The index of the first character that has no glyph, counted from `start` (R153). -/
def firstUnrenderable : Nat → List Byte → Option Nat
  | _, [] => none
  | start, c :: cs => if (glyphOf? c).isSome then firstUnrenderable (start + 1) cs else some start

/-! ## The font -/

/-- `MemRead(FONTROM, a)`: entry `a` of the font ROM holds column `a mod 5` of glyph `a ÷ 5` (R30). -/
def fontRom (font : Font) (a : Fin 475) : ColMask :=
  font ⟨a.val / 5, by omega⟩ ⟨a.val % 5, by omega⟩

/-- `glyphcol`: column `k` of the 6-column cell of a glyph; column 5 is the blank spacer (R152). -/
def glyphcol (font : Font) (g : Glyph) (k : Fin 6) : ColMask :=
  if h : k.val < 5 then fontRom font ⟨g.val * 5 + k.val, by omega⟩ else 0

/-- Column `k` of the cell of a character code. It is applied only to codes 32 to 126, after R153 has checked the
text; the value for any other code stands for no rule. -/
def charColumn (font : Font) (c : Byte) (k : Fin 6) : ColMask :=
  match glyphOf? c with
  | some g => glyphcol font g k
  | none => 0

end Sys2Proof.Machine
end

