-- ==== Sys2Proof/Machine/Ops.lean ====
section
/-! DEFINITION. The named operations over the frame memory, the collaborator, the buffers and the response port:
20_memory.md R54 to R56, 41_framebuffer.md R131 to R134, and the one error entry, 60_exceptions.md R210. -/

namespace Sys2Proof.Machine

/-! ## The frame memory -/

/-- The address of cell `idx` of frame `f`. -/
def cellAddr (f : FrameId) (idx : Nat) : Nat := 144 * f.val + idx

/-- The value written last at an address, none if nothing has written it. -/
def memRead (a : Nat) : Mem → Option Byte
  | [] => none
  | c :: m => if c.1 = a then some c.2 else memRead a m

/-- Write one cell, keeping the addresses strictly rising. -/
def memWrite (a : Nat) (v : Byte) : Mem → Mem
  | [] => [(a, v)]
  | c :: m =>
    if a < c.1 then (a, v) :: c :: m
    else if a = c.1 then (a, v) :: m
    else c :: memWrite a v m

/-- The 144 cells of a frame, all zero. -/
def zeroFrame (f : FrameId) : Mem := (List.range 144).map fun i => (cellAddr f i, 0)

/-- Write 0 to all 144 cells of a frame at once (R55, R132). -/
def memClear (f : FrameId) (m : Mem) : Mem :=
  m.filter (fun c => decide (c.1 < cellAddr f 0)) ++ zeroFrame f ++
    m.filter (fun c => decide (cellAddr f 144 ≤ c.1))

/-- The canonical form: addresses strictly rising and inside the two frames of 144 cells (R50). Every entry differs
from an unlisted address, which has no written value. -/
abbrev memWf (m : Mem) : Prop := m.Pairwise (fun a b => a.1 < b.1) ∧ ∀ c ∈ m, c.1 < 288

/-- `FM[f][idx]`: what was written, else the open reset contents (R26, R40). -/
def Chip.cell (c : Chip) (f : FrameId) (idx : Fin 144) : Byte :=
  (memRead (cellAddr f idx.val) c.fm).getD (Config.fmReset f idx)

/-! ## The collaborator -/

/-- The physical index `pcol * 16 + prow` of a SET_PIXEL (R84, R133). -/
def physIndex (pcol prow : BitVec 4) : Nat := pcol.toNat * 16 + prow.toNat

/-- The effect of a primitive at its acceptance (R131, R132, R133). An index above 143 names no cell (R58), so
nothing is written there; `execSetPixel` stops on it. -/
def Chip.accept (c : Chip) : Prim → Chip
  | .selectFrame id shown => { c with target := id, visible := if shown then id else c.visible }
  | .clearFrame => { c with fm := memClear c.target c.fm }
  | .setPixel pcol prow b =>
    if physIndex pcol prow < 144 then { c with fm := memWrite (cellAddr c.target (physIndex pcol prow)) b c.fm }
    else c

/-- The collaborator accepts a primitive: its effect, and the trace grows by it (R134, R135). -/
def State.acceptPrim (s : State) (p : Prim) : State :=
  { s with chip := s.chip.accept p, trace := s.trace ++ [p] }

/-- A sequence of primitives, each accepted before the next (R63, R134). -/
def State.acceptAll (s : State) (ps : List Prim) : State := ps.foldl State.acceptPrim s

/-! ## The buffers -/

/-- Write the elements of a list into a buffer, one after the other from entry `k` on. -/
def writeFrom {α : Type} {n : Nat} : Nat → List α → Vector α n → Vector α n
  | _, [], v => v
  | k, a :: l, v => writeFrom (k + 1) l (v.setIfInBounds k a)

/-- `TXT[0..n-1]` and `TLEN` from a text of length `n`; later entries of `TXT` keep their values (R31). -/
def State.loadText (s : State) (text : List Byte) : State :=
  { s with
    txt := writeFrom 0 text s.txt
    tlen := BitVec.ofNat 8 text.length }

/-- The text in the buffer, `TXT[0..TLEN-1]` (R31). -/
def State.text (s : State) : List Byte := s.txt.toList.take s.tlen.toNat

/-- `PL[0..n-1]` and `PLEN` from a pixel list of length `n`; later entries of `PL` keep their values (R32). -/
def State.loadPixels (s : State) (triples : List Triple) : State :=
  { s with
    pl := writeFrom 0 triples s.pl
    plen := BitVec.ofNat 8 triples.length }

/-- The pixel list in the buffer, `PL[0..PLEN-1]` (R32). -/
def State.pixelList (s : State) : List Triple := s.pl.toList.take s.plen.toNat

/-- `BR` from a brightness operand (R22, R102). -/
def State.loadBrightness (s : State) (b : BitVec 16) : State := { s with br := clampBrightness b }

/-! ## The end of a command -/

/-- `respond(code, data)` with `ERR <- code`: the command's one response is issued and the sequencer waits for it to
be taken. The command's bytes are discarded (R39, R86, R87). -/
def State.respond (s : State) (code : BitVec 4) (data : Byte) : State :=
  { s with phase := .respond, err := code, cb := [], rsp := some (responseWord code data) }

/-- `raise E(info)`, the whole of error entry: nothing is saved, no mode changes, no vector is used (R210). -/
def State.raise (s : State) (e : ErrorCause) (info : Byte) : State := s.respond e.code info

/-- The return: the response is taken and the sequencer is `Idle` again (R87, R211). -/
def State.takeResponse (s : State) (w : BitVec 16) : State :=
  { s with phase := .idle, rsp := none, taken := s.taken ++ [w] }

end Sys2Proof.Machine
end

