-- ==== Sys2Proof/Machine/Mapper.lean ====
section
/-! DEFINITION. The coordinate mapper and PADDR (40_mapper.md R120 to R127), its inverse (20_memory.md R62), the
combinational sub-block (30_encoding.md R109) and the views of the frame memory (10_state.md R36). -/

namespace Sys2Proof.Machine

/-- `MAP(x, y)`, the physical index of a logical pixel, defined on the panel only (R120, R127): the left half is
`x ≤ 8` (R121). -/
def mapIndex (x : PanelX) (y : PanelY) : Byte :=
  if 8 < x.val then BitVec.ofNat 8 ((17 - x.val) * 16 + (y.val + 8))
  else BitVec.ofNat 8 (x.val * 16 + (7 - y.val))

/-- `UNMAP(idx)`: the logical pixel whose image the cell is, none for the unused cells (R62). -/
def unmap (idx : Byte) : Option (PanelX × PanelY) :=
  let pcol := idx.toNat / 16
  let prow := idx.toNat % 16
  if h : (1 ≤ prow ∧ prow ≤ 7) ∧ pcol ≤ 8 then some (⟨pcol, by omega⟩, ⟨7 - prow, by omega⟩)
  else if h : (8 ≤ prow ∧ prow ≤ 14) ∧ 1 ≤ pcol ∧ pcol ≤ 8 then some (⟨17 - pcol, by omega⟩, ⟨prow - 8, by omega⟩)
  else none

/-- SET_PIXEL of a logical pixel at a brightness: the mapper's index split into physical column and row (R84, R136). -/
def pixelPrim (x : PanelX) (y : PanelY) (b : Byte) : Prim :=
  .setPixel ((mapIndex x y).extractLsb' 4 4) ((mapIndex x y).extractLsb' 0 4) b

/-- The outputs of the mapper sub-block (R109). -/
structure MapOutputs where
  pcol : BitVec 4
  prow : BitVec 4
  ok : Bool
  deriving DecidableEq, Repr

/-- The combinational sub-block: off the panel `map_ok = 0` and the other outputs are open (R109, U5). -/
def mapBlock (mapX : BitVec 5) (mapY : BitVec 3) : MapOutputs :=
  if h : mapX.toNat ≤ 16 ∧ mapY.toNat ≤ 6 then
    let idx := mapIndex ⟨mapX.toNat, by omega⟩ ⟨mapY.toNat, by omega⟩
    ⟨idx.extractLsb' 4 4, idx.extractLsb' 0 4, true⟩
  else ⟨(Config.mapBlockFree mapX mapY).1, (Config.mapBlockFree mapX mapY).2, false⟩

/-! ## Views of the frame memory -/

/-- Every image of the mapper names a cell of a frame (R58, R124). -/
theorem mapIndex_lt : ∀ x y, (mapIndex x y).toNat < 144 := by decide

/-- `MAP(x, y)` as the index of a cell. -/
def pixelCell (x : PanelX) (y : PanelY) : Fin 144 := ⟨(mapIndex x y).toNat, mapIndex_lt x y⟩

/-- `pixel(f, x, y) = FM[f][MAP(x, y)]` (R36). -/
def Chip.pixel (c : Chip) (f : FrameId) (x : PanelX) (y : PanelY) : Byte := c.cell f (pixelCell x y)

/-- `mask(f)[x]`: bit `y` is 1 when the pixel is not 0 (R36). -/
def Chip.mask (c : Chip) (f : FrameId) (x : PanelX) : ColMask :=
  (List.finRange 7).foldl (fun m y => if c.pixel f x y ≠ 0 then m ||| BitVec.twoPow 7 y.val else m) 0

/-- `shown(x, y)`: what an onlooker sees (R36). -/
def Chip.shown (c : Chip) (x : PanelX) (y : PanelY) : Byte := c.pixel c.visible x y

/-! ## The command -/

/-- PADDR x, y: the physical index in the response's data, or the error off the panel (R126). -/
def execPaddr (x y : Byte) (s : State) : Host.Outcome State Fault Refusal :=
  match panelPoint? x y with
  | some (px, py) => .next (s.respond okCode (mapIndex px py))
  | none => .next (s.raise .coordinateOutOfRange 0)

end Sys2Proof.Machine
end

