-- ==== Sys2Proof/Machine/FrameBuffer.lean ====
section
/-! DEFINITION. The driver primitives, the draw operation and DRAW (41_framebuffer.md R130 to R143). -/

namespace Sys2Proof.Machine

/-! ## The driver primitives, as the collaborator carries them out -/

/-- SELECT_FRAME (R131). -/
def execSelectFrame (id : FrameId) (shown : Bool) (s : State) : Host.Outcome State Fault Refusal :=
  .next (s.acceptPrim (.selectFrame id shown))

/-- CLEAR_FRAME (R132). -/
def execClearFrame (s : State) : Host.Outcome State Fault Refusal := .next (s.acceptPrim .clearFrame)

/-- SET_PIXEL (R133). A physical column above 8 gives an index that names no cell (R58) and stops. -/
def execSetPixel (pcol prow : BitVec 4) (b : Byte) (s : State) : Host.Outcome State Fault Refusal :=
  if physIndex pcol prow < 144 then .next (s.acceptPrim (.setPixel pcol prow b)) else .fault .noSuchCell

/-! ## The draw operation -/

/-- The logical pixels in the order a draw visits them: column by column, rows ascending (R136, R138). -/
def panelPoints : List (PanelX × PanelY) :=
  (List.finRange 17).flatMap fun x => (List.finRange 7).map fun y => (x, y)

/-- `M[x][y]`, the bit of a logical pixel in a bitmap. -/
def lit (m : Bitmap) (x : PanelX) (y : PanelY) : Bool := m[x].getLsbD y.val

/-- The SET_PIXEL primitives of `draw(M, b)` (R136, R139). -/
def bitmapPixels (m : Bitmap) (b : Byte) : List Prim :=
  (panelPoints.filter fun p => lit m p.1 p.2).map fun p => pixelPrim p.1 p.2 b

/-- One draw into frame `t` around its pixel primitives: aim, clear, light, flip (R136, R179). -/
def drawPrims (t : FrameId) (pixels : List Prim) : List Prim :=
  [.selectFrame t false, .clearFrame] ++ pixels ++ [.selectFrame t true]

/-- Emit one draw into the inactive frame and make it the active one. The iterators are discarded at its end
(R39, R136). -/
def State.drawWith (s : State) (pixels : List Prim) : State :=
  { s.acceptAll (drawPrims (otherFrame s.active) pixels) with
    active := otherFrame s.active
    dx := 0
    dy := 0
    pi := 0 }

/-- `draw(SB, BR)` (R136). -/
def State.drawBitmap (s : State) : State := s.drawWith (bitmapPixels s.sb s.br)

/-- DRAW up to the draw itself: `BR` and `SB` from the operands (R142). -/
def State.loadBitmap (s : State) (b : BitVec 16) (masks : Vector Byte 17) : State :=
  { s.loadBrightness b with sb := bitmapOf masks }

/-- DRAW (R142). -/
def execDraw (b : BitVec 16) (masks : Vector Byte 17) (s : State) : Host.Outcome State Fault Refusal :=
  .next ((s.loadBitmap b masks).drawBitmap.respond okCode 0)

end Sys2Proof.Machine
end

