-- ==== Sys2Proof/Machine/Scroll.lean ====
section
/-! DEFINITION. The scroll engine: SCROLL and SCROLLN (42_scroll.md R150 to R167). The font is an argument of the
shared operations, so that the spec's vectors with its test font can be checked on them; the instructions use
`Config.font`. -/

namespace Sys2Proof.Machine

/-- `normalise()` on the text buffer (R151). -/
def State.normaliseText (s : State) : State := s.loadText (normalise s.text)

/-- `TXT[i]`. -/
def State.txtAt (s : State) (i : Nat) : Byte := s.txt.toList.getD i 0

/-! ## The static path -/

/-- The bitmap of three characters side by side: column `x` is `glyphcol(text[x ÷ 6], x mod 6)` (R154, R155). -/
def staticBitmap (font : Font) (text : Nat → Byte) : Bitmap :=
  Vector.ofFn fun x => charColumn font (text (x.val / 6)) ⟨x.val % 6, by omega⟩

/-- `SB[x] <- glyphcol(TXT[x ÷ 6], x mod 6)` for every column (R154). -/
def State.fillStatic (font : Font) (s : State) : State := { s with sb := staticBitmap font s.txtAt }

/-! ## The animated path -/

/-- `SB <- SB_INIT`, `CI <- 0`, `SC <- 0` (R156, R157). -/
def State.startMarquee (s : State) : State := { s with sb := Vector.replicate 17 0, ci := 0, sc := 0 }

/-- One-column left shift with a new rightmost column (R158). -/
def shiftLeft (m : Bitmap) (c : ColMask) : Bitmap :=
  Vector.ofFn fun i => if h : i.val < 16 then m[i.val + 1] else c

/-- Shift in the column under the cursor (R158, actions 1 and 2). -/
def State.shiftIn (font : Font) (s : State) : State :=
  { s with sb := shiftLeft s.sb (charColumn font (s.txtAt s.ci.toNat) s.sc) }

/-- Advance the cursor: `SC` counts 0 to 5, then `CI` goes on (R24, R158). -/
def State.advanceCursor (s : State) : State :=
  { s with sc := if s.sc.val < 5 then s.sc + 1 else 0, ci := if s.sc.val < 5 then s.ci else s.ci + 1 }

/-- One animation step: shift, draw, advance (R158). -/
def State.marqueeStep (font : Font) (s : State) : State := (s.shiftIn font).drawBitmap.advanceCursor

/-- `n` animation steps (R156). -/
def State.marqueeSteps (font : Font) : Nat → State → State
  | 0, s => s
  | n + 1, s => State.marqueeSteps font n (s.marqueeStep font)

/-! ## The commands -/

/-- A normalised text: check every character, then the static or the animated path (R150, R153). -/
def State.renderText (font : Font) (s : State) : State :=
  match firstUnrenderable 0 s.text with
  | some i => s.raise .characterNotRenderable (BitVec.ofNat 8 i)
  | none =>
    if s.tlen = 3 then ((s.fillStatic font).drawBitmap).respond okCode 0
    else (State.marqueeSteps font (6 * s.tlen.toNat) s.startMarquee).respond okCode 0

/-- `scroll_text()`: normalise, then render (R150). -/
def State.scrollText (font : Font) (s : State) : State := s.normaliseText.renderText font

/-- `BR`, `TXT` and `TLEN` from the operands of a scroll (R150, R161). -/
def State.loadScroll (s : State) (b : BitVec 16) (text : List Byte) : State := (s.loadBrightness b).loadText text

/-- SCROLL (R150). -/
def execScroll (b : BitVec 16) (text : List Byte) (s : State) : Host.Outcome State Fault Refusal :=
  .next ((s.loadScroll b text).scrollText Config.font)

/-- SCROLLN: the decimal text of `N`, then as SCROLL (R161). -/
def execScrolln (b : BitVec 16) (n : BitVec 32) (s : State) : Host.Outcome State Fault Refusal :=
  .next ((s.loadScroll b (dec n)).scrollText Config.font)

end Sys2Proof.Machine
end

