-- ==== Sys2Proof/Machine/Facade.lean ====
section
/-! DEFINITION. The display facade: CLEAR, PIXELS and IMGSTR (43_facade.md R175 to R187). -/

namespace Sys2Proof.Machine

/-- CLEAR: one CLEAR_FRAME, no SELECT_FRAME (R176). -/
def execClear (s : State) : Host.Outcome State Fault Refusal :=
  .next ((s.acceptPrim .clearFrame).respond okCode 0)

/-! ## The pixel-list draw -/

/-- The SET_PIXEL of one triple (R179); a list that is drawn has been checked, so every triple has one. -/
def triplePixel (t : Triple) : Option Prim :=
  match panelPoint? t.x t.y with
  | some (x, y) => some (pixelPrim x y (scale t.i))
  | none => none

/-- `pdraw()` (R179). -/
def State.drawPixels (s : State) : State := s.drawWith (s.pixelList.filterMap triplePixel)

/-- The index of the first triple off the panel, counted from `start` (R182). -/
def firstOffPanel : Nat → List Triple → Option Nat
  | _, [] => none
  | start, t :: ts => if (panelPoint? t.x t.y).isSome then firstOffPanel (start + 1) ts else some start

/-- PIXELS after its list is stored: check all coordinates, then draw (R177). -/
def State.showPixels (s : State) : State :=
  match firstOffPanel 0 s.pixelList with
  | some j => s.raise .coordinateOutOfRange (BitVec.ofNat 8 j)
  | none => s.drawPixels.respond okCode 0

/-- PIXELS (R177). -/
def execPixels (triples : List Triple) (s : State) : Host.Outcome State Fault Refusal :=
  .next (s.loadPixels triples).showPixels

/-! ## The custom image string -/

/-- Whether a character may stand at a position: `:` where `p mod 18 = 17`, a digit elsewhere (R184). -/
def imageCharOk (p : Nat) (c : Byte) : Bool :=
  if p % 18 = 17 then decide (c = Config.imgSep) else decide (0x30 ≤ c.toNat) && decide (c.toNat ≤ 0x39)

/-- Examine `n` positions from `p` on; the first missing or wrong one (R184, R208). -/
def firstMalformed : Nat → Nat → List Byte → Option Nat
  | 0, p, rest => if rest.isEmpty then none else some p
  | _ + 1, p, [] => some p
  | n + 1, p, c :: rest => if imageCharOk p c then firstMalformed n (p + 1) rest else some p

/-- The first offending position of a custom image string, 125 for one that is too long (R184, R186). -/
def imageDefect (chars : List Byte) : Option Nat := firstMalformed 125 0 chars

/-- The decoded pixel list: triple `r * 17 + c` is `(c, r, digit at r * 18 + c)` (R185). -/
def decodeImage (chars : List Byte) : List Triple :=
  (List.range 7).flatMap fun r => (List.range 17).map fun c =>
    ⟨BitVec.ofNat 8 c, BitVec.ofNat 8 r, chars.getD (r * 18 + c) 0 - 0x30⟩

/-- IMGSTR: check the string, decode it into the pixel list, draw (R183). -/
def execImgstr (chars : List Byte) (s : State) : Host.Outcome State Fault Refusal :=
  match imageDefect chars with
  | some p => .next (s.raise .malformedImageValue (BitVec.ofNat 8 p))
  | none => .next ((s.loadPixels (decodeImage chars)).drawPixels.respond okCode 0)

end Sys2Proof.Machine
end

