-- ==== Sys2Proof/Machine/Dispatch.lean ====
section
/-! DEFINITION. The dispatch: one arm per instruction, one direct call of its meaning. -/

namespace Sys2Proof.Machine

def exec (i : Instr) (s : State) : Host.Outcome State Fault Refusal :=
  match i with
  | .clear => Sys2Proof.Machine.execClear s
  | .scroll b text => Sys2Proof.Machine.execScroll b text s
  | .scrolln b n => Sys2Proof.Machine.execScrolln b n s
  | .draw b masks => Sys2Proof.Machine.execDraw b masks s
  | .pixels triples => Sys2Proof.Machine.execPixels triples s
  | .imgstr chars => Sys2Proof.Machine.execImgstr chars s
  | .paddr x y => Sys2Proof.Machine.execPaddr x y s
  | .selectFrame id shown => Sys2Proof.Machine.execSelectFrame id shown s
  | .clearFrame => Sys2Proof.Machine.execClearFrame s
  | .setPixel pcol prow b => Sys2Proof.Machine.execSetPixel pcol prow b s

end Sys2Proof.Machine
end

