-- ==== Sys2Proof/Machine/Ports.lean ====
section
/-! DEFINITION. LMX at its ports: the sequencer one handshake or one internal action at a time, with the phases of
43_facade.md R189, the ports of 30_encoding.md R80 to R87 and the reset input of 70_reset_and_hazards.md R230. A run
of it over the bytes of one command ends where `exec` of that command ends (92_eei_decisions.md D34). -/

namespace Sys2Proof.Machine

/-! ## Receiving a command -/

/-- The last byte of a command has been accepted: store its operands and enter its first phase (R189). -/
def State.begin (i : Instr) (s : State) : State :=
  match i with
  | .clear => { s with phase := .clearing }
  | .scroll b text => { s.loadScroll b text with phase := .normalizing }
  | .scrolln b n => { s.loadScroll b (dec n) with phase := .normalizing }
  | .draw b masks => { s.loadBitmap b masks with phase := .bitmapDraw, dsub := some .dSelect }
  | .pixels triples => { s.loadPixels triples with phase := .normalizing }
  | .imgstr _ => { s with phase := .normalizing }
  | .paddr x y =>
    match panelPoint? x y with
    | some (px, py) => s.respond okCode (mapIndex px py)
    | none => s.raise .coordinateOutOfRange 0
  | .selectFrame _ _ | .clearFrame | .setPixel _ _ _ => s

/-- One byte of the command port is accepted: the first one in `Idle` is the opcode (R81, R101, R206). -/
def State.acceptByte (s : State) (b : Byte) : State :=
  let cb := if s.phase = .idle then [b] else s.cb ++ [b]
  match decodeCommand cb with
  | .ok (i, _) => State.begin i { s with cb := cb }
  | .error (.illegalOpcode op) => s.raise .illegalCommand op
  | .error _ => { s with cb := cb, phase := .receive }

/-! ## Internal actions: leaving `Normalizing`, presenting the next primitive -/

/-- LMX presents a primitive on the driver port (R85, R134). -/
def State.present (s : State) (p : Prim) : State := { s with drv := some p.word }

/-- A normalised text: to `Respond`, `StaticDraw` or the first step of `AnimatingStep` (R150, R189). -/
def State.enterText (font : Font) (s : State) : State :=
  match firstUnrenderable 0 s.text with
  | some i => s.raise .characterNotRenderable (BitVec.ofNat 8 i)
  | none =>
    if s.tlen = 3 then { s.fillStatic font with phase := .staticDraw, dsub := some .dSelect }
    else { s.startMarquee.shiftIn font with phase := .animatingStep, dsub := some .dSelect }

/-- `Normalizing` of a text (R150, R189). -/
def State.leaveText (font : Font) (s : State) : State := s.normaliseText.enterText font

/-- `Normalizing` of a pixel list: to `Respond` or `PixelDraw` (R177, R189). -/
def State.leaveList (s : State) : State :=
  match firstOffPanel 0 s.pixelList with
  | some j => s.raise .coordinateOutOfRange (BitVec.ofNat 8 j)
  | none => { s with phase := .pixelDraw, dsub := some .dSelect }

/-- `Normalizing` of an image string: to `Respond` or, decoded, to `PixelDraw` (R183, R189). -/
def State.leaveImage (s : State) (chars : List Byte) : State :=
  match imageDefect chars with
  | some p => s.raise .malformedImageValue (BitVec.ofNat 8 p)
  | none => { s.loadPixels (decodeImage chars) with phase := .pixelDraw, dsub := some .dSelect }

/-- Leave `Normalizing`, by the command that `CB` holds (R189). -/
def State.leaveNormalizing (font : Font) (s : State) : Option State :=
  match decodeCommand s.cb with
  | .ok (.scroll _ _, _) | .ok (.scrolln _ _, _) => some (s.leaveText font)
  | .ok (.pixels _, _) => some s.leaveList
  | .ok (.imgstr chars, _) => some (s.leaveImage chars)
  | _ => none

/-- The next pixel of a bitmap draw, column by column, rows ascending; after the last one the flip is due
(R136, R138). -/
def State.nextPixel (s : State) : State :=
  if s.dy.val < 6 then { s with dy := s.dy + 1 }
  else if s.dx.val < 16 then { s with dy := 0, dx := s.dx + 1 }
  else { s with dsub := some .dFlip }

/-- The pixel phase of a bitmap draw at `(DX, DY)`: present the pixel if it is lit, else go on (R136). -/
def State.bitmapPixel (s : State) : State :=
  if lit s.sb s.dx s.dy then s.present (pixelPrim s.dx s.dy s.br) else s.nextPixel

/-- The pixel phase of a pixel-list draw at `PI`: present the triple's pixel, or the list is done (R179). -/
def State.listPixel (s : State) : State :=
  match s.pixelList[s.pi.toNat]? with
  | some t =>
    match triplePixel t with
    | some p => s.present p
    | none => { s with pi := s.pi + 1 }
  | none => { s with dsub := some .dFlip }

/-- The action of a draw with no primitive presented (R25, R136, R179). -/
def State.drawAction (s : State) : DrawSub → State
  | .dSelect => s.present (.selectFrame (otherFrame s.active) false)
  | .dClear => s.present .clearFrame
  | .dPixels => if s.phase = .pixelDraw then s.listPixel else s.bitmapPixel
  | .dFlip => s.present (.selectFrame (otherFrame s.active) true)

/-- The internal action of LMX while no handshake is waited for, none where there is no such action. -/
def State.internal (font : Font) (s : State) : Option State :=
  if s.drv.isSome || s.rsp.isSome then none
  else
    match s.phase with
    | .normalizing => s.leaveNormalizing font
    | .clearing => some (s.present .clearFrame)
    | .staticDraw | .animatingStep | .bitmapDraw | .pixelDraw => s.dsub.map s.drawAction
    | .idle | .receive | .respond => none

/-! ## After a primitive has been accepted -/

/-- The draw is over: an animation goes on to its next step while the cursor is inside the text (R158, R189). -/
def State.afterDraw (font : Font) (s : State) : State :=
  if s.phase = .animatingStep then
    if s.advanceCursor.ci = s.tlen then { s.advanceCursor.respond okCode 0 with dsub := none }
    else { s.advanceCursor.shiftIn font with dsub := some .dSelect }
  else { s.respond okCode 0 with dsub := none }

/-- The flip has been accepted: the drawn frame is the active one and the iterators are discarded (R39, R64, R136). -/
def State.finishDraw (font : Font) (s : State) : State :=
  { s with active := otherFrame s.active, dx := 0, dy := 0, pi := 0 }.afterDraw font

/-- What a draw does once its presented primitive has been accepted (R25, R136, R179). -/
def State.drawAccepted (font : Font) (s : State) : DrawSub → State
  | .dSelect => { s with dsub := some .dClear }
  | .dClear => { s with dsub := some .dPixels, dx := 0, dy := 0, pi := 0 }
  | .dPixels => if s.phase = .pixelDraw then { s with pi := s.pi + 1 } else s.nextPixel
  | .dFlip => s.finishDraw font

/-- What the sequencer does once the presented primitive has been accepted (R189). -/
def State.advance (font : Font) (s : State) : State :=
  match s.phase with
  | .clearing => s.respond okCode 0
  | .staticDraw | .animatingStep | .bitmapDraw | .pixelDraw =>
    match s.dsub with
    | some d => s.drawAccepted font d
    | none => s
  | .idle | .receive | .normalizing | .respond => s

/-- The collaborator accepts the presented word: the primitive takes effect and the sequencer goes on (R83, R134). -/
def State.acceptWord (s : State) (w : BitVec 18) : Host.Outcome State Fault Refusal :=
  match decodeDriver w with
  | .error _ => .refused .driverWordNeverProduced
  | .ok p =>
    match exec p.instr { s with drv := none } with
    | .next t => .next (t.advance Config.font)
    | .fault r => .fault r
    | .refused r => .refused r

/-! ## Reset -/

/-- `rst` is asserted: LMX has its reset values at once and whatever it presented is withdrawn; the collaborator keeps
its state (R230, R231). -/
def State.assertReset (s : State) : State :=
  { State.reset with rst := true, chip := s.chip, cmdIn := s.cmdIn, trace := s.trace, taken := s.taken }

/-- `rst` is released. -/
def State.releaseReset (s : State) : State := { s with rst := false }

/-! ## The events of the ports -/

/-- One event at the pins of LMX, or one internal action. -/
inductive PortEvent where
  /-- A byte is transferred on the command port (R80). -/
  | cmdByte (b : Byte)
  /-- The collaborator accepts the presented primitive (R83). -/
  | drvReady
  /-- The host takes the response (R87). -/
  | rspReady
  /-- LMX acts on its own. -/
  | internal
  /-- The input `rst` goes to a level (R230). -/
  | rst (level : Bool)
  deriving DecidableEq, Repr

/-- What an event does, none where it cannot happen: no transfer without valid and ready (R80, R83, R87), and nothing
but `rst` while `rst` is asserted (R230). -/
def portStep (e : PortEvent) (s : State) : Option State :=
  match e with
  | .rst true => some s.assertReset
  | .rst false => some s.releaseReset
  | .cmdByte b => if s.cmdReady then some (s.acceptByte b) else none
  | .drvReady =>
    match s.rst, s.drv with
    | false, some w =>
      match s.acceptWord w with
      | .next t => some t
      | .fault _ | .refused _ => none
    | _, _ => none
  | .rspReady =>
    match s.rst, s.rsp with
    | false, some w => some (s.takeResponse w)
    | _, _ => none
  | .internal => if s.rst then none else s.internal Config.font

end Sys2Proof.Machine
end

