-- ==== Sys2Proof/Machine/Step.lean ====
section
/-! DEFINITION. The step. A step runs one whole command as soon as all its bytes are there (the big step of
92_eei_decisions.md D34); in every other state it is one event of the ports, in an environment that accepts every
primitive, takes every response and sends the bytes of `cmdIn` in order (00_scope.md R15). -/

namespace Sys2Proof.Machine

/-- One port event, the one that is due. -/
def tick (s : State) : Host.Outcome State Fault Refusal :=
  if s.rst then .next s.assertReset
  else
    match s.drv with
    | some w => s.acceptWord w
    | none =>
      match s.rsp with
      | some w => .next (s.takeResponse w)
      | none =>
        match s.phase, s.cmdIn with
        | .idle, [] => .next s
        | .idle, b :: rest => .next ({ s with cmdIn := rest }.acceptByte b)
        | .receive, [] => .fault .stuckInReceive
        | .receive, b :: rest => .next ({ s with cmdIn := rest }.acceptByte b)
        | _, _ =>
          match s.internal Config.font with
          | some t => .next t
          | none => .fault .noEnabledStep

/-- The command the sequencer can run at once: it is `Idle`, nothing is presented or waiting, and the bytes to come
hold a whole command. -/
def State.readyCommand (s : State) : Option (Instr × List Byte) :=
  if s.rst = false ∧ s.phase = .idle ∧ s.drv = none ∧ s.rsp = none then
    match decodeCommand s.cmdIn with
    | .ok r => some r
    | .error _ => none
  else none

/-- One step of the machine. -/
def step (s : State) : Host.Outcome State Fault Refusal :=
  match s.readyCommand with
  | some (i, rest) => exec i { s with cmdIn := rest }
  | none => tick s

/-- `n` port events, stopping at the first fault or refusal. -/
def ticks : Nat → State → Host.Outcome State Fault Refusal
  | 0, s => .next s
  | n + 1, s =>
    match tick s with
    | .next t => ticks n t
    | .fault r => .fault r
    | .refused r => .refused r

/-- A state whose next step runs the instruction of a table word: a driver word is presented on the driver port, the
bytes of a command wait on the command port, and the sequencer is `Idle` (notes/assumptions/8.md). -/
def State.withFetchWord (s : State) (nbits w : Nat) : State :=
  if isDriverWidth nbits then
    { s with rst := false, phase := .idle, drv := some (BitVec.ofNat 18 w) }
  else
    { s with rst := false, phase := .idle, drv := none, rsp := none, cmdIn := tableBytes nbits w }

end Sys2Proof.Machine
end

