-- ==== Sys2Proof/Safety.lean ====
section
/-! DEFINITION. What claims about runs are stated in: the collaborator's agreement with LMX (10_state.md R29), the
invariant of the sequencer, the phase graph (43_facade.md R189), and the value of a decimal text. -/

namespace Sys2Proof.Machine

/-- `TARGET = VISIBLE = ACTIVE`, as at every point between draws (R29). -/
def State.Settled (s : State) : Prop := s.chip.target = s.active ∧ s.chip.visible = s.active

/-- `TARGET = 1 − ACTIVE` and `VISIBLE = ACTIVE`, as inside a draw (R29, R140). -/
def State.Aimed (s : State) : Prop := s.chip.target = otherFrame s.active ∧ s.chip.visible = s.active

/-- Nothing is presented, or the given primitive is. -/
def State.PresentsOnly (s : State) (p : Prim) : Prop := s.drv = none ∨ s.drv = some p.word

/-- The invariant of a draw, by sub-phase: which frame is aimed at and what may be presented (R99, R136, R179). -/
def State.DrawInv (s : State) : DrawSub → Prop
  | .dSelect => s.Settled ∧ s.PresentsOnly (.selectFrame (otherFrame s.active) false)
  | .dClear => s.Aimed ∧ s.PresentsOnly .clearFrame
  | .dPixels => s.Aimed ∧ (s.drv = none ∨ ∃ x y b, s.drv = some (pixelPrim x y b).word)
  | .dFlip => s.Aimed ∧ s.PresentsOnly (.selectFrame (otherFrame s.active) true)

/-- Nothing is presented, no response waits, no draw is in progress, and the collaborator agrees with LMX. -/
def State.Quiet (s : State) : Prop := s.drv = none ∧ s.rsp = none ∧ s.dsub = none ∧ s.Settled

/-- A draw is in progress. -/
def State.Drawing (s : State) : Prop := s.rsp = none ∧ ∃ d, s.dsub = some d ∧ s.DrawInv d

/-- The invariant of the sequencer, by phase. -/
def State.PhaseInv (s : State) : Prop :=
  match s.phase with
  | .idle => s.Quiet ∧ s.cb = []
  | .receive => s.Quiet ∧ s.cb ≠ [] ∧ decodeCommand s.cb = .error .incomplete
  | .normalizing => s.Quiet ∧
      ∃ i, decodeCommand s.cb = .ok (i, []) ∧
        ((∃ b text, i = .scroll b text) ∨ (∃ b n, i = .scrolln b n) ∨ (∃ ts, i = .pixels ts) ∨ ∃ chars, i = .imgstr chars)
  | .clearing => s.rsp = none ∧ s.dsub = none ∧ s.Settled ∧ s.PresentsOnly .clearFrame
  | .staticDraw | .bitmapDraw => s.Drawing
  | .animatingStep => s.Drawing ∧ s.ci.toNat < s.tlen.toNat ∧ 4 ≤ s.tlen.toNat ∧
      ∀ c ∈ s.text, (glyphOf? c).isSome
  | .pixelDraw => s.Drawing ∧ ∀ t ∈ s.pixelList, (panelPoint? t.x t.y).isSome
  | .respond => s.drv = none ∧ s.dsub = none ∧ s.Settled ∧ s.cb = [] ∧ ∃ data, s.rsp = some (responseWord s.err data)

/-- The invariant of the machine between two resets: the frame memory is canonical, `ERR` is one of the five codes
(R34), and the sequencer is where its phase says. -/
def State.Inv (s : State) : Prop :=
  s.rst = false ∧ memWf s.chip.fm ∧ s.err.toNat ≤ 4 ∧ s.PhaseInv

/-- The edges of the phase graph (R189), and staying in a phase, which every phase but `Normalizing` can do. -/
def phaseEdge : Phase → Phase → Bool
  | .idle, .idle | .idle, .clearing | .idle, .receive | .idle, .respond => true
  | .receive, .receive | .receive, .normalizing | .receive, .bitmapDraw | .receive, .respond => true
  | .normalizing, .respond | .normalizing, .staticDraw | .normalizing, .animatingStep | .normalizing, .pixelDraw => true
  | .staticDraw, .staticDraw | .staticDraw, .respond => true
  | .animatingStep, .animatingStep | .animatingStep, .respond => true
  | .bitmapDraw, .bitmapDraw | .bitmapDraw, .respond => true
  | .pixelDraw, .pixelDraw | .pixelDraw, .respond => true
  | .clearing, .clearing | .clearing, .respond => true
  | .respond, .idle => true
  | _, _ => false

/-- The number a string of decimal digits stands for. -/
def digitsValue (l : List Byte) : Nat := l.foldl (fun v c => 10 * v + (c.toNat - 48)) 0

/-- A canonical digit string: digits only, at least one, no leading zero but for `0` itself (R162). -/
def canonicalDigits (l : List Byte) : Prop :=
  l ≠ [] ∧ (∀ c ∈ l, 48 ≤ c.toNat ∧ c.toNat ≤ 57) ∧ (l.head? = some 48 → l = [48])

/-- The primitives of one draw into frame `t` at brightness `b`, with the set pixels given by `on`: aim, clear, one
SET_PIXEL per set pixel, column by column and rows ascending, flip (R136, R138); the physical column and row of a pixel
are those of R120. -/
def drawSequence (t : FrameId) (on : PanelX → PanelY → Bool) (b : Byte) : List Prim :=
  [.selectFrame t false, .clearFrame] ++
    ((List.finRange 17).flatMap fun x => ((List.finRange 7).filter fun y => on x y).map fun y =>
      Prim.setPixel (BitVec.ofNat 4 (if 8 < x.val then 17 - x.val else x.val))
        (BitVec.ofNat 4 (if 8 < x.val then y.val + 8 else 7 - y.val)) b) ++
    [.selectFrame t true]

/-- The flips in a trace: one per completed draw (R135, R141). -/
def flips (ps : List Prim) : Nat :=
  (ps.filter fun p => match p with | .selectFrame _ true => true | _ => false).length

end Sys2Proof.Machine
end

