-- ==== Sys2Proof/Certificates/Slice0/Obligations.lean ====
section
/-! DEFINITION. The statements about the model, for the provers. Each docstring says which rules of the spec it rests
on; a rule marked there as a decision or a derivation of the spec is named as such. -/

open Sys2Proof Sys2Proof.Machine

/-! ## Encodings -/

/-- Encoding, then decoding, gives the instruction back, whatever bytes follow it on the command port
(R84, R88 to R97; the encodings are the spec's decisions D3 and D5). -/
def Obligations.DecodeOfEncode : Prop :=
  ∀ i : Instr, i.wellFormed = true →
    match encode i with
    | .command bytes => ∀ rest, decode (.command (bytes ++ rest)) = .ok (i, rest)
    | .driver word => decode (.driver word) = .ok (i, [])

/-- Whatever bytes decode to a command are that command's one encoding, and the command is well formed (R98, R100,
R101; decision D5). -/
def Obligations.DecodedBytesAreTheEncoding : Prop :=
  ∀ (bytes : List Byte) (i : Instr) (rest : List Byte), decodeCommand bytes = .ok (i, rest) →
    i.isCommand = true ∧ i.wellFormed = true ∧ ∃ own, encode i = .command own ∧ bytes = own ++ rest

/-- A driver word is an instruction exactly when it is one of the three forms of R84 with its reserved bits 0; it is
then that instruction's one encoding (R84, R99; decision D3), and its value is the arithmetic form of R131 to R133
(decision D9). -/
def Obligations.DriverWordForms : Prop :=
  (∀ w : BitVec 18,
    (∀ p, decodeDriver w = .ok p → p.word = w) ∧
    (w.extractLsb' 16 2 = 0b00#2 → decodeDriver w = .error .driverOpNone) ∧
    (w.extractLsb' 16 2 = 0b01#2 ∧ w.extractLsb' 2 14 ≠ 0 → decodeDriver w = .error .driverReservedBits) ∧
    (w.extractLsb' 16 2 = 0b10#2 ∧ w.extractLsb' 0 16 ≠ 0 → decodeDriver w = .error .driverReservedBits) ∧
    (w.extractLsb' 16 2 = 0b11#2 → ∃ p, decodeDriver w = .ok p)) ∧
  (∀ p : Prim, decodeDriver p.word = .ok p) ∧
  (∀ (id : FrameId) (shown : Bool),
    (Prim.word (.selectFrame id shown)).toNat = 0x10000 + 2 * shown.toNat + id.val) ∧
  (Prim.word .clearFrame).toNat = 0x20000 ∧
  ∀ (pcol prow : BitVec 4) (b : Byte),
    (Prim.word (.setPixel pcol prow b)).toNat = 0x30000 + (pcol.toNat * 16 + prow.toNat) * 256 + b.toNat

/-- A command has the total length of R88 and R101 (decision D5), and cut off before its last byte, wherever that is, it
is not yet a command (R82). -/
def Obligations.CommandLengths : Prop :=
  ∀ i own, i.wellFormed = true → encode i = .command own →
    (own.length = match i with
      | .clear => 1
      | .scroll _ text => 4 + text.length
      | .scrolln _ _ => 7
      | .draw _ _ => 20
      | .pixels ts => 2 + 3 * ts.length
      | .imgstr chars => 2 + chars.length
      | .paddr _ _ => 3
      | .selectFrame _ _ | .clearFrame | .setPixel _ _ _ => 0) ∧
    ∀ k < own.length, decodeCommand (own.take k) = .error .incomplete

/-- Some words written out from the tables of R84 and R88 decode to the instructions they stand for. -/
def Obligations.WordsOfTheTables : Prop :=
  decodeCommand [0x01] = .ok (.clear, []) ∧
  decodeCommand [0x02, 0x1E, 0x00, 0x02, 0x48, 0x69] = .ok (.scroll 30 [72, 105], []) ∧
  decodeCommand [0x03, 0x2C, 0x01, 0xE8, 0x03, 0x00, 0x00, 0x07] = .ok (.scrolln 300 1000, [0x07]) ∧
  decodeCommand [0x05, 0x01, 0x08, 0x03, 0xFD] = .ok (.pixels [⟨8, 3, 0xFD⟩], []) ∧
  decodeCommand [0x06, 0x02, 0x39, 0x3A] = .ok (.imgstr [0x39, 0x3A], []) ∧
  decodeCommand [0x07, 0x08, 0x03] = .ok (.paddr 8 3, []) ∧
  decodeDriver 0x10003 = .ok (.selectFrame 1 true) ∧
  decodeDriver 0x20000 = .ok .clearFrame ∧
  decodeDriver 0x3841E = .ok (.setPixel 8 4 30)

/-- The calls of the facade and the commands they stand for; without a brightness they mean 30 (R105, R106, R175). -/
def Obligations.FacadeDispatch : Prop :=
  HostCall.clear.expand = .clear ∧
  (∀ text b, (HostCall.scrollText text (some b)).expand = .scroll b text) ∧
  (∀ text, (HostCall.scrollText text none).expand = .scroll 30 text) ∧
  (∀ n b, (HostCall.scrollInteger n (some b)).expand = .scrolln b n) ∧
  (∀ n, (HostCall.scrollInteger n none).expand = .scrolln 30 n) ∧
  (∀ text b, (HostCall.showValue (.text text) b).expand = (HostCall.scrollText text b).expand) ∧
  (∀ n b, (HostCall.showValue (.integer n) b).expand = (HostCall.scrollInteger n b).expand) ∧
  (∀ masks b, (HostCall.showValue (.bitmap masks) (some b)).expand = .draw b masks) ∧
  (∀ masks, (HostCall.showValue (.bitmap masks) none).expand = .draw 30 masks) ∧
  (∀ ts b, (HostCall.showValue (.triples ts) b).expand = .pixels ts) ∧
  (∀ masks b, (HostCall.draw masks b).expand = .draw b masks) ∧
  (∀ x y, (HostCall.pixelAddr x y).expand = .paddr x y) ∧
  ∀ chars, (HostCall.showImageString chars).expand = .imgstr chars

/-! ## Operands -/

/-- `BR` is the brightness operand clamped to 0..255 (R102; decision D33), with the examples of R102; the load of `BR`
changes no other part of the state. -/
def Obligations.BrightnessClamp : Prop :=
  (∀ (b : BitVec 16) (s : State), ∃ br : Byte,
    s.loadBrightness b = { s with br := br } ∧ (br.toNat : Int) = max 0 (min b.toInt 255)) ∧
  (∀ b : BitVec 16, ((clampBrightness b).toNat : Int) = max 0 (min b.toInt 255)) ∧
  clampBrightness 300 = 255 ∧ clampBrightness (-5) = 0 ∧ clampBrightness 30 = 30 ∧
  clampBrightness 255 = 255 ∧ clampBrightness 256 = 255 ∧ clampBrightness (BitVec.ofInt 16 (-32768)) = 0

/-- The brightness of a triple is its intensity clamped to 0..9, times 255, floor-divided by 9 (R103, R178; the floor is
decision D14), and the ten values are the ones R178 lists. -/
def Obligations.IntensityScale : Prop :=
  (∀ i : Byte, ((scale i).toNat : Int) = max 0 (min i.toInt 9) * 255 / 9) ∧
  ([0, 1, 2, 3, 4, 5, 6, 7, 8, 9] : List Byte).map scale = [0, 28, 56, 85, 113, 141, 170, 198, 226, 255]

/-- `dec(n)`: the canonical decimal digits of the magnitude, with one leading `-` exactly for a negative number, at most
11 characters (R162; decision D18). -/
def Obligations.DecimalText : Prop :=
  ∀ n : BitVec 32, (dec n).length ≤ 11 ∧
    if n.toInt < 0 then
      ∃ digits, dec n = 45 :: digits ∧ canonicalDigits digits ∧ (digitsValue digits : Int) = -n.toInt
    else canonicalDigits (dec n) ∧ (digitsValue (dec n) : Int) = n.toInt

/-- Normalisation pads on the right with spaces by the length of the text (R151). -/
def Obligations.NormalisedText : Prop :=
  ∀ text : List Byte,
    (text.length = 1 → normalise text = text ++ [32, 32]) ∧
    (text.length = 2 → normalise text = text ++ [32]) ∧
    (text.length = 3 → normalise text = text) ∧
    (text.length = 0 → normalise text = [32, 32, 32, 32]) ∧
    (4 ≤ text.length → normalise text = text) ∧
    ((normalise text).length = 3 ∨ 4 ≤ (normalise text).length) ∧
    ((normalise text).length = 3 ↔ 1 ≤ text.length ∧ text.length ≤ 3)

/-- The columns of a character's cell, for a code 32 to 126: columns 0 to 4 are the font's columns of glyph `code − 32`,
read at `(code − 32) * 5 + k` of the font ROM, and column 5 is the blank spacer (R152). -/
def Obligations.GlyphColumns : Prop :=
  ∀ (font : Font) (c : Byte) (h : 32 ≤ c.toNat ∧ c.toNat ≤ 126),
    (∀ k : Fin 5,
      charColumn font c ⟨k.val, by omega⟩ = font ⟨c.toNat - 32, by omega⟩ k ∧
      charColumn font c ⟨k.val, by omega⟩ = fontRom font ⟨(c.toNat - 32) * 5 + k.val, by omega⟩) ∧
    charColumn font c 5 = 0

/-- The glyph of the space character is blank: the spec's one constraint on the open font (R9; decision D26). -/
def Obligations.SpaceIsBlank : Prop := ∀ k : Fin 6, charColumn Config.font 32 k = 0

/-! ## The mapper and PADDR -/

/-- The two closed forms of the mapper and the boundary case (R120, R121, R122). -/
def Obligations.MapperClosedForms : Prop :=
  (∀ (x : PanelX) (y : PanelY), x.val ≤ 8 → (mapIndex x y).toNat = x.val * 16 + (7 - y.val)) ∧
  (∀ (x : PanelX) (y : PanelY), 9 ≤ x.val → (mapIndex x y).toNat = (17 - x.val) * 16 + (y.val + 8)) ∧
  mapIndex 8 3 = 132

/-- The mapper is injective with inverse `UNMAP`, and exactly the 25 listed cells are the image of no pixel
(R58, R62, R124; derivations of the spec from R120). -/
def Obligations.MapperInverse : Prop :=
  (∀ (x : PanelX) (y : PanelY), unmap (mapIndex x y) = some (x, y)) ∧
  (∀ (x : PanelX) (y : PanelY), 1 ≤ (mapIndex x y).toNat ∧ (mapIndex x y).toNat ≤ 142) ∧
  ∀ idx : Fin 144, (unmap (BitVec.ofNat 8 idx.val)).isNone = true ↔
    idx.val ∈ [0, 8, 9, 10, 11, 12, 13, 14, 15, 16, 31, 32, 47, 48, 63, 64, 79, 80, 95, 96, 111, 112, 127, 128, 143]

/-- The combinational sub-block: `map_ok` exactly on the panel, and there the index of the mapper (R109; decision
D32). -/
def Obligations.MapperBlock : Prop :=
  ∀ (mx : BitVec 5) (my : BitVec 3),
    ((mapBlock mx my).ok = true ↔ mx.toNat ≤ 16 ∧ my.toNat ≤ 6) ∧
    ∀ h : mx.toNat ≤ 16 ∧ my.toNat ≤ 6,
      (mapBlock mx my).pcol ++ (mapBlock mx my).prow = mapIndex ⟨mx.toNat, by omega⟩ ⟨my.toNat, by omega⟩

/-- PADDR on the panel answers the physical index and changes `ERR` only, beside the response (R126; decision D32). With
the response `CB` is discarded (notes/assumptions/4.md, DESIGN CHOICE). -/
def Obligations.PaddrOnPanel : Prop :=
  ∀ (x y : Byte) (s : State), x.toNat ≤ 16 → y.toNat ≤ 6 →
    exec (.paddr x y) s = .next { s with
      phase := .respond
      err := 0
      cb := []
      rsp := some (BitVec.ofNat 16
        (if 8 < x.toNat then (17 - x.toNat) * 16 + (y.toNat + 8) else x.toNat * 16 + (7 - y.toNat))) }

/-- PADDR off the panel answers `CoordinateOutOfRange` with data 0 (R126, R204; decision D15). With the response
`CB` is discarded (notes/assumptions/4.md, DESIGN CHOICE). -/
def Obligations.PaddrOffPanel : Prop :=
  ∀ (x y : Byte) (s : State), 16 < x.toNat ∨ 6 < y.toNat →
    exec (.paddr x y) s = .next { s with phase := .respond, err := 3, cb := [], rsp := some 0x0300 }

/-! ## The driver primitives -/

/-- SELECT_FRAME aims at a frame and, with `show`, shows it; no cell changes, nor anything inside LMX (R131, R55; decision
D9). -/
def Obligations.SelectFrameEffect : Prop :=
  ∀ (id : FrameId) (shown : Bool) (s : State), ∃ chip,
    exec (.selectFrame id shown) s = .next { s with chip := chip, trace := s.trace ++ [.selectFrame id shown] } ∧
    chip.target = id ∧
    chip.visible = (if shown then id else s.chip.visible) ∧
    ∀ f idx, chip.cell f idx = s.chip.cell f idx

/-- CLEAR_FRAME zeroes the 144 cells of the target frame; the other frame, `TARGET`, `VISIBLE` and all of LMX stay
(R132, R55; decision D9). -/
def Obligations.ClearFrameEffect : Prop :=
  ∀ s : State, ∃ chip,
    exec .clearFrame s = .next { s with chip := chip, trace := s.trace ++ [.clearFrame] } ∧
    chip.target = s.chip.target ∧ chip.visible = s.chip.visible ∧
    ∀ f idx, chip.cell f idx = if f = s.chip.target then 0 else s.chip.cell f idx

/-- SET_PIXEL writes the one cell it names in the target frame; every other cell, `TARGET`, `VISIBLE` and all of LMX
stay (R133, R55; decision D9). It completes for each of the 144 cells of a frame. -/
def Obligations.SetPixelEffect : Prop :=
  ∀ (pcol prow : BitVec 4) (b : Byte) (s : State), pcol.toNat ≤ 8 → ∃ chip,
    exec (.setPixel pcol prow b) s = .next { s with chip := chip, trace := s.trace ++ [.setPixel pcol prow b] } ∧
    chip.target = s.chip.target ∧ chip.visible = s.chip.visible ∧
    ∀ f idx, chip.cell f idx =
      if f = s.chip.target ∧ idx.val = pcol.toNat * 16 + prow.toNat then b else s.chip.cell f idx

/-- SET_PIXEL with a physical column above 8 names no cell and stops (R58, R99: derivations of the spec; the stop is
notes/assumptions/5.md, DESIGN CHOICE). -/
def Obligations.SetPixelWithoutCell : Prop :=
  ∀ (pcol prow : BitVec 4) (b : Byte) (s : State), 8 < pcol.toNat →
    exec (.setPixel pcol prow b) s = .fault .noSuchCell

/-- Accepting a primitive twice in a row leaves the collaborator as accepting it once (R57, a derivation of the
spec). -/
def Obligations.PrimitivesAreIdempotent : Prop :=
  ∀ (c : Chip) (p : Prim), (c.accept p).accept p = c.accept p

/-- Only accepted primitives change the collaborator: every step leaves it as the fold of the effects of the primitives
the step added to the trace (R63, R38, R134). -/
def Obligations.CollaboratorIsTheFoldOfTheTrace : Prop :=
  ∀ s t : State, step s = .next t →
    ∃ ps, t.trace = s.trace ++ ps ∧ t.chip = ps.foldl Chip.accept s.chip

/-! ## Drawing -/

/-- DRAW, the whole sequence of R136 in the order of R138 (decision D10): aim at the inactive frame, clear it, one
SET_PIXEL per set bit, flip, and the drawn frame is the active one. -/
def Obligations.DrawEmitsItsSequence : Prop :=
  ∀ (b : BitVec 16) (masks : Vector Byte 17) (s : State), ∃ t ps,
    exec (.draw b masks) s = .next t ∧
    ps = [Prim.selectFrame (1 - s.active) false, .clearFrame] ++
      ((List.finRange 17).flatMap fun x => ((List.finRange 7).filter fun y => masks[x].getLsbD y.val).map fun y =>
        Prim.setPixel (BitVec.ofNat 4 (if 8 < x.val then 17 - x.val else x.val))
          (BitVec.ofNat 4 (if 8 < x.val then y.val + 8 else 7 - y.val)) (clampBrightness b)) ++
      [.selectFrame (1 - s.active) true] ∧
    t.trace = s.trace ++ ps ∧ t.chip = ps.foldl Chip.accept s.chip ∧ t.active = 1 - s.active

/-- The state DRAW leaves: `BR` and `SB` from the operands, the inactive frame drawn, shown and active, its unlit and
unused cells 0, the frame that was active untouched, everything else as before (R140, R142, R143: R140 is a derivation
of the spec from R136). The iterators and `CB` are discarded (notes/assumptions/4.md, DESIGN CHOICE). -/
def Obligations.DrawResult : Prop :=
  ∀ (b : BitVec 16) (masks : Vector Byte 17) (s : State), ∃ chip ps,
    exec (.draw b masks) s = .next { s with
      phase := .respond, err := 0, cb := [], rsp := some 0x0000
      br := clampBrightness b
      sb := Vector.ofFn fun j => masks[j].extractLsb' 0 7
      active := 1 - s.active
      dx := 0, dy := 0, pi := 0
      chip := chip
      trace := s.trace ++ ps } ∧
    chip.target = 1 - s.active ∧ chip.visible = 1 - s.active ∧
    (∀ x y, chip.pixel (1 - s.active) x y = if masks[x].getLsbD y.val then clampBrightness b else 0) ∧
    (∀ idx, (∀ x y, idx ≠ pixelCell x y) → chip.cell (1 - s.active) idx = 0) ∧
    ∀ idx, chip.cell s.active idx = s.chip.cell s.active idx

/-- A draw emits `3 + n` primitives for `n` set bits, no two of its SET_PIXEL carry one index, and each carries the
index of a logical pixel (R137, a derivation of the spec). -/
def Obligations.DrawPrimitiveCounts : Prop :=
  ∀ (b : BitVec 16) (masks : Vector Byte 17) (s t : State), exec (.draw b masks) s = .next t →
    ∃ pixels : List Prim,
      t.trace = s.trace ++ ([.selectFrame (1 - s.active) false, .clearFrame] ++ pixels ++
        [.selectFrame (1 - s.active) true]) ∧
      pixels.length =
        ((List.finRange 17).map fun x => ((List.finRange 7).filter fun y => masks[x].getLsbD y.val).length).sum ∧
      pixels.Nodup ∧
      (∀ p ∈ pixels, ∃ x y, p = pixelPrim x y (clampBrightness b)) ∧
      pixels.Pairwise fun p q => ∀ c r c' r' b b', p = .setPixel c r b → q = .setPixel c' r' b' →
        physIndex c r ≠ physIndex c' r'

/-- After a drawing command has completed, every cell of the shown frame has been written: nothing shown depends on the
open reset contents (R236, a derivation of the spec). -/
def Obligations.ShownFrameIsDefined : Prop :=
  ∀ (i : Instr) (s t : State), i.wellFormed = true → exec i s = .next t → t.err = 0 →
    ((∃ b text, i = .scroll b text) ∨ (∃ b n, i = .scrolln b n) ∨ (∃ b masks, i = .draw b masks) ∨
      (∃ ts, i = .pixels ts) ∨ ∃ chars, i = .imgstr chars) →
    ∀ idx : Fin 144, (memRead (cellAddr t.chip.visible idx.val) t.chip.fm).isSome = true

/-! ## The scroll engine -/

/-- SCROLL of a renderable text of 1 to 3 characters: one draw of the three cells side by side, the third without its
spacer, with the whole primitive sequence of that draw; the drawn frame is shown and active, the other untouched, and
everything not named stays (R150, R151, R154, R155; the order of the pixels is decision D10). The iterators and `CB` are
discarded (notes/assumptions/4.md, DESIGN CHOICE). -/
def Obligations.StaticScroll : Prop :=
  ∀ (b : BitVec 16) (text : List Byte) (s : State), 1 ≤ text.length → text.length ≤ 3 →
    (∀ c ∈ text, 32 ≤ c.toNat ∧ c.toNat ≤ 126) →
    ∃ chip ps txt sb,
      exec (.scroll b text) s = .next { s with
        phase := .respond, err := 0, cb := [], rsp := some 0x0000
        br := clampBrightness b
        txt := txt, tlen := 3
        sb := sb
        active := 1 - s.active
        dx := 0, dy := 0, pi := 0
        chip := chip
        trace := s.trace ++ ps } ∧
      txt.toList.take 3 = normalise text ∧ txt.toList.drop 3 = s.txt.toList.drop 3 ∧
      (∀ x : PanelX, sb[x] = charColumn Config.font ((normalise text).getD (x.val / 6) 0) ⟨x.val % 6, by omega⟩) ∧
      chip.target = 1 - s.active ∧ chip.visible = 1 - s.active ∧
      (∀ x y, chip.pixel (1 - s.active) x y = if sb[x].getLsbD y.val then clampBrightness b else 0) ∧
      (∀ idx, (∀ x y, idx ≠ pixelCell x y) → chip.cell (1 - s.active) idx = 0) ∧
      (∀ idx, chip.cell s.active idx = s.chip.cell s.active idx) ∧
      flips ps = 1 ∧
      ps = drawSequence (1 - s.active) (fun x y => sb[x].getLsbD y.val) (clampBrightness b) ∧
      chip = ps.foldl Chip.accept s.chip

/-- The bitmap after `k` animation steps, for any font: entry `i` is column `k − 17 + i` of the text's cells, blank before
the text, and the cursor is at step `k` (R24, R156, R157, R158; the blank start is decision D12, the closed form R159 a
derivation of the spec). -/
def Obligations.MarqueeFrames : Prop :=
  ∀ (font : Font) (s : State) (k : Nat), k ≤ 6 * s.tlen.toNat →
    let u := State.marqueeSteps font k s.startMarquee
    u.ci.toNat = k / 6 ∧ u.sc.val = k % 6 ∧
    u.active = (if k % 2 = 0 then s.active else 1 - s.active) ∧
    ∀ i : PanelX, u.sb[i] =
      if k + i.val < 17 then 0
      else charColumn font (s.text.getD ((k + i.val - 17) / 6) 0) ⟨(k + i.val - 17) % 6, by omega⟩

/-- SCROLL of a renderable text of no or of 4 and more characters: `6 * TLEN` draws into the two frames in turn, each with
its whole primitive sequence; `ACTIVE` ends as it began, the shown frame holds the last columns of the text and the other
frame the step before, and everything not named stays (R150, R156, R159, R160, R190; R159, R160 and R190 are derivations
of the spec, the order of the pixels is decision D10). The iterators and `CB` are discarded, the cursor stays where the
animation left it (notes/assumptions/4.md, DESIGN CHOICE). -/
def Obligations.AnimatedScroll : Prop :=
  ∀ (b : BitVec 16) (text : List Byte) (s : State), text.length = 0 ∨ 4 ≤ text.length → text.length ≤ 255 →
    (∀ c ∈ text, 32 ≤ c.toNat ∧ c.toNat ≤ 126) →
    ∃ chip ps txt sb,
      exec (.scroll b text) s = .next { s with
        phase := .respond, err := 0, cb := [], rsp := some 0x0000
        br := clampBrightness b
        txt := txt, tlen := BitVec.ofNat 8 (normalise text).length
        sb := sb
        ci := BitVec.ofNat 8 (normalise text).length, sc := 0
        dx := 0, dy := 0, pi := 0
        chip := chip
        trace := s.trace ++ ps } ∧
      txt.toList.take (normalise text).length = normalise text ∧
      txt.toList.drop (normalise text).length = s.txt.toList.drop (normalise text).length ∧
      (∀ i : PanelX, sb[i] = charColumn Config.font
        ((normalise text).getD ((6 * (normalise text).length - 17 + i.val) / 6) 0)
        ⟨(6 * (normalise text).length - 17 + i.val) % 6, by omega⟩) ∧
      chip.target = s.active ∧ chip.visible = s.active ∧
      (∀ x y, chip.pixel s.active x y = if sb[x].getLsbD y.val then clampBrightness b else 0) ∧
      (∀ (x : PanelX) (y : PanelY), chip.pixel (1 - s.active) x y =
        if (charColumn Config.font ((normalise text).getD ((6 * (normalise text).length - 18 + x.val) / 6) 0)
          ⟨(6 * (normalise text).length - 18 + x.val) % 6, by omega⟩).getLsbD y.val
        then clampBrightness b else 0) ∧
      (∀ f idx, (∀ x y, idx ≠ pixelCell x y) → chip.cell f idx = 0) ∧
      flips ps = 6 * (normalise text).length ∧
      (ps = (List.range (6 * (normalise text).length)).flatMap fun k =>
        drawSequence (if k % 2 = 0 then 1 - s.active else s.active)
          (fun x y =>
            if k + x.val < 16 then false
            else (charColumn Config.font ((normalise text).getD ((k + x.val - 16) / 6) 0)
              ⟨(k + x.val - 16) % 6, by omega⟩).getLsbD y.val)
          (clampBrightness b)) ∧
      chip = ps.foldl Chip.accept s.chip

/-- SCROLL of a text with a character outside 32..126 draws nothing: it answers `CharacterNotRenderable` with the index of
the first one, and only `BR` and the text buffer have changed beside the response (R153, R202, R209; the check is
decision D16). With the response `CB` is discarded (notes/assumptions/4.md, DESIGN CHOICE). -/
def Obligations.UnrenderableTextStops : Prop :=
  ∀ (b : BitVec 16) (text : List Byte) (s : State) (j : Nat), text.length ≤ 255 → (hj : j < text.length) →
    ¬ (32 ≤ text[j].toNat ∧ text[j].toNat ≤ 126) →
    (∀ m, (hm : m < j) → 32 ≤ (text[m]'(by omega)).toNat ∧ (text[m]'(by omega)).toNat ≤ 126) →
    ∃ txt,
      exec (.scroll b text) s = .next { s with
        phase := .respond, err := 1, cb := [], rsp := some (BitVec.ofNat 16 (0x0100 + j))
        br := clampBrightness b
        txt := txt, tlen := BitVec.ofNat 8 (normalise text).length } ∧
      txt.toList.take (normalise text).length = normalise text ∧
      txt.toList.drop (normalise text).length = s.txt.toList.drop (normalise text).length

/-- The equivalences of R167 (a derivation of the spec): a text and its normal form, and an integer and its decimal
text, leave the same state. -/
def Obligations.ScrollEquivalences : Prop :=
  (∀ b c s, exec (.scroll b [c]) s = exec (.scroll b [c, 32, 32]) s) ∧
  (∀ b c d s, exec (.scroll b [c, d]) s = exec (.scroll b [c, d, 32]) s) ∧
  (∀ b s, exec (.scroll b []) s = exec (.scroll b [32, 32, 32, 32]) s) ∧
  ∀ b n s, exec (.scrolln b n) s = exec (.scroll b (dec n)) s

/-- SCROLLN completes from every state without an error: one draw and a new active frame for up to three characters, else
`6` draws a character and the same active frame (R160, R161, R246; derivations of the spec and decision D18). -/
def Obligations.IntegerScroll : Prop :=
  ∀ (b : BitVec 16) (n : BitVec 32) (s : State), ∃ t ps,
    exec (.scrolln b n) s = .next t ∧
    t.phase = .respond ∧ t.err = 0 ∧ t.rsp = some 0x0000 ∧
    t.br = clampBrightness b ∧ t.text = normalise (dec n) ∧
    t.trace = s.trace ++ ps ∧ t.chip = ps.foldl Chip.accept s.chip ∧
    t.chip.target = t.active ∧ t.chip.visible = t.active ∧
    (if (dec n).length ≤ 3 then t.active = 1 - s.active ∧ flips ps = 1
     else t.active = s.active ∧ flips ps = 6 * (dec n).length) ∧
    t.pl = s.pl ∧ t.plen = s.plen ∧ t.dsub = s.dsub ∧ t.drv = s.drv ∧ t.rst = s.rst ∧
    t.cmdIn = s.cmdIn ∧ t.taken = s.taken

/-! ## The facade -/

/-- CLEAR between draws: the visible frame goes to 0, one CLEAR_FRAME and no SELECT_FRAME, the other frame, `ACTIVE`,
`TARGET`, `VISIBLE` and everything else stay (R176; decision D25). With the response `CB` is discarded
(notes/assumptions/4.md, DESIGN CHOICE). -/
def Obligations.ClearBlanksTheVisibleFrame : Prop :=
  ∀ s : State, s.Settled → ∃ chip,
    exec .clear s = .next { s with
      phase := .respond, err := 0, cb := [], rsp := some 0x0000
      chip := chip
      trace := s.trace ++ [.clearFrame] } ∧
    chip.target = s.chip.target ∧ chip.visible = s.chip.visible ∧
    ∀ f idx, chip.cell f idx = if f = s.active then 0 else s.chip.cell f idx

/-- PIXELS on the panel: the list in the buffer, the inactive frame cleared, each pixel at the scaled intensity of the last
triple that names it, shown and active; the primitives are aim, clear, one SET_PIXEL a triple in list order, flip; the
other frame and everything else stay (R177, R179, R180, R181; decisions D13 and D14). The iterators and `CB` are discarded
(notes/assumptions/4.md, DESIGN CHOICE). -/
def Obligations.PixelListResult : Prop :=
  ∀ (ts : List Triple) (s : State), ts.length ≤ 255 →
    (∀ t ∈ ts, t.x.toNat ≤ 16 ∧ t.y.toNat ≤ 6) →
    ∃ chip ps pl,
      exec (.pixels ts) s = .next { s with
        phase := .respond, err := 0, cb := [], rsp := some 0x0000
        pl := pl, plen := BitVec.ofNat 8 ts.length
        active := 1 - s.active
        dx := 0, dy := 0, pi := 0
        chip := chip
        trace := s.trace ++ ps } ∧
      pl.toList.take ts.length = ts ∧ pl.toList.drop ts.length = s.pl.toList.drop ts.length ∧
      ps.length = 3 + ts.length ∧
      ps = [Prim.selectFrame (1 - s.active) false, .clearFrame] ++
        (ts.map fun t => Prim.setPixel
          (BitVec.ofNat 4 (if 8 < t.x.toNat then 17 - t.x.toNat else t.x.toNat))
          (BitVec.ofNat 4 (if 8 < t.x.toNat then t.y.toNat + 8 else 7 - t.y.toNat)) (scale t.i)) ++
        [.selectFrame (1 - s.active) true] ∧
      chip = ps.foldl Chip.accept s.chip ∧
      chip.target = 1 - s.active ∧ chip.visible = 1 - s.active ∧
      (∀ (x : PanelX) (y : PanelY), chip.pixel (1 - s.active) x y =
        match ts.reverse.find? fun t => t.x.toNat = x.val ∧ t.y.toNat = y.val with
        | some t => scale t.i
        | none => 0) ∧
      (∀ idx, (∀ x y, idx ≠ pixelCell x y) → chip.cell (1 - s.active) idx = 0) ∧
      ∀ idx, chip.cell s.active idx = s.chip.cell s.active idx

/-- PIXELS with a triple off the panel draws nothing: it answers `CoordinateOutOfRange` with the index of the first one,
and only the pixel-list buffer has changed beside the response (R177, R182, R204; decision D15). With the response
`CB` is discarded (notes/assumptions/4.md, DESIGN CHOICE). -/
def Obligations.OffPanelListStops : Prop :=
  ∀ (ts : List Triple) (s : State) (j : Nat), ts.length ≤ 255 → (hj : j < ts.length) →
    ¬ (ts[j].x.toNat ≤ 16 ∧ ts[j].y.toNat ≤ 6) →
    (∀ m, (hm : m < j) → (ts[m]'(by omega)).x.toNat ≤ 16 ∧ (ts[m]'(by omega)).y.toNat ≤ 6) →
    ∃ pl,
      exec (.pixels ts) s = .next { s with
        phase := .respond, err := 3, cb := [], rsp := some (BitVec.ofNat 16 (0x0300 + j))
        pl := pl, plen := BitVec.ofNat 8 ts.length } ∧
      pl.toList.take ts.length = ts ∧ pl.toList.drop ts.length = s.pl.toList.drop ts.length

/-- When a custom image string is well formed, and which position is reported when it is not (R184, R186; decision
D17). -/
def Obligations.ImageStringDefect : Prop :=
  ∀ chars : List Byte,
    let good := fun p => ∃ h : p < chars.length,
      if p % 18 = 17 then chars[p] = 0x3A else 0x30 ≤ chars[p].toNat ∧ chars[p].toNat ≤ 0x39
    (imageDefect chars = none ↔ chars.length = 125 ∧ ∀ p < 125, good p) ∧
    ∀ p, imageDefect chars = some p →
      (∀ q < p, good q) ∧ (p < 125 ∧ ¬ good p ∨ p = 125 ∧ 125 < chars.length)

/-- IMGSTR of a malformed string draws nothing and answers `MalformedImageValue` with the first offending position; beside
the response nothing changes (R183, R203, R209). With the response `CB` is discarded (notes/assumptions/4.md, DESIGN
CHOICE). -/
def Obligations.MalformedImageStops : Prop :=
  ∀ (chars : List Byte) (s : State) (p : Nat), imageDefect chars = some p →
    exec (.imgstr chars) s = .next { s with
      phase := .respond, err := 2, cb := [], rsp := some (BitVec.ofNat 16 (0x0200 + p)) }

/-- A well-formed image string is shown as the pixel list it decodes to: 119 triples, row by row, each with its digit as
intensity and all on the panel; the command completes with 122 primitives (R183, R185; decision D17). -/
def Obligations.ImageStringIsItsPixelList : Prop :=
  ∀ (chars : List Byte) (s : State), imageDefect chars = none →
    exec (.imgstr chars) s = exec (.pixels (decodeImage chars)) s ∧
    (decodeImage chars).length = 119 ∧
    (∀ (x : PanelX) (y : PanelY), ∃ t, (decodeImage chars)[y.val * 17 + x.val]? = some t ∧
      t.x.toNat = x.val ∧ t.y.toNat = y.val ∧ t.i.toNat = (chars.getD (y.val * 18 + x.val) 0).toNat - 0x30) ∧
    ∃ t ps, exec (.imgstr chars) s = .next t ∧ t.err = 0 ∧ t.active = 1 - s.active ∧
      t.trace = s.trace ++ ps ∧ ps.length = 122

/-- The round trip of R187: six rows `00000000000000000:` and a seventh without the separator are 125 characters, well
formed, and decode to `17 * 7` triples `(c, r, 0)`. -/
def Obligations.ZeroImageRoundTrip : Prop :=
  let row := List.replicate 17 (0x30 : Byte)
  let chars := row ++ [0x3A] ++ row ++ [0x3A] ++ row ++ [0x3A] ++ row ++ [0x3A] ++ row ++ [0x3A] ++ row ++ [0x3A] ++ row
  chars.length = 125 ∧
  imageDefect chars = none ∧
  (decodeImage chars).length = 17 * 7 ∧
  decodeImage chars = (List.range 7).flatMap fun r => (List.range 17).map fun c => ⟨BitVec.ofNat 8 c, BitVec.ofNat 8 r, 0⟩

/-! ## Every command -/

/-- Errors are precise and leave no trace: a command that ends in an error has emitted no primitive, and the frames,
`TARGET`, `VISIBLE` and `ACTIVE` are as before; so is all else but `ERR`, its response and the scratch state (R209). -/
def Obligations.ErrorsLeaveNoTrace : Prop :=
  ∀ (i : Instr) (s t : State), i.isCommand = true → exec i s = .next t → t.err ≠ 0 →
    t.trace = s.trace ∧ t.chip = s.chip ∧ t.active = s.active ∧
    t.taken = s.taken ∧ t.cmdIn = s.cmdIn ∧ t.drv = s.drv ∧ t.rst = s.rst ∧ t.dsub = s.dsub

/-- Every command completes from every state with exactly one response, whose code is the new `ERR` and one of 0 to 4, and
leaves the ports, the host's bytes and `rst` alone (R34, R86, R200, R211; decisions D2 and D19). With the response
`CB` is discarded (notes/assumptions/4.md, DESIGN CHOICE). -/
def Obligations.EveryCommandResponds : Prop :=
  ∀ (i : Instr) (s : State), i.isCommand = true → ∃ t data,
    exec i s = .next t ∧
    t.phase = .respond ∧ t.rsp = some (responseWord t.err data) ∧ t.err.toNat ≤ 4 ∧ t.cb = [] ∧
    t.taken = s.taken ∧ t.cmdIn = s.cmdIn ∧ t.drv = s.drv ∧ t.rst = s.rst ∧ t.dsub = s.dsub

/-- Each command can raise one kind of error only (R200, R208: a derivation of the spec). -/
def Obligations.OneErrorKindPerCommand : Prop :=
  ∀ (i : Instr) (s t : State), i.isCommand = true → exec i s = .next t →
    t.err = 0 ∨ match i with
      | .scroll _ _ => t.err = 1
      | .imgstr _ => t.err = 2
      | .pixels _ | .paddr _ _ => t.err = 3
      | _ => False

/-! ## The step, the ports and reset -/

/-- A step runs the decoded command: in `Idle` with nothing presented or waiting and a whole command to come, it is `exec`
of that command with its bytes consumed. That one step is a whole command is the model's choice, which decision D34 of the
spec leaves to a model (notes/assumptions/1.md, DESIGN CHOICE). -/
def Obligations.StepRunsTheDecodedCommand : Prop :=
  ∀ (s : State) (i : Instr) (rest : List Byte),
    s.rst = false → s.phase = .idle → s.drv = none → s.rsp = none → decodeCommand s.cmdIn = .ok (i, rest) →
    step s = exec i { s with cmdIn := rest }

/-- A step carries out the presented driver word, in every phase in which LMX presents one: it is `exec` of the primitive
the word decodes to, with the word taken off the port (R83, R134), after which the sequencer goes on. CLEAR responds
(R176). A draw goes on to its clear, to its pixels, to the next pixel or triple, and to the flip (R136, R138, R179), which
makes the drawn frame active and ends the command or begins the next animation step (R158, R189). Where the primitive
stops, the step stops. The model's choices are: a word carried out in `Idle` (notes/assumptions/17.md, DESIGN
CHOICE), how much the sequencer does in the same event (notes/assumptions/13.md, DESIGN CHOICE), and the discarded
iterators and `CB` (notes/assumptions/4.md, DESIGN CHOICE). -/
def Obligations.StepCarriesOutTheDriverWord : Prop :=
  ∀ (s : State) (w : BitVec 18) (i : Instr),
    s.rst = false → s.drv = some w → decode (.driver w) = .ok (i, []) →
    (s.phase = .idle → step s = exec i { s with drv := none }) ∧
    (∀ r, exec i { s with drv := none } = .fault r → step s = .fault r) ∧
    ∀ t, exec i { s with drv := none } = .next t →
      (s.phase = .clearing → step s = .next { t with phase := .respond, err := 0, cb := [], rsp := some 0x0000 }) ∧
      (s.phase = .staticDraw ∨ s.phase = .animatingStep ∨ s.phase = .bitmapDraw ∨ s.phase = .pixelDraw →
        (s.dsub = some .dSelect → step s = .next { t with dsub := some .dClear }) ∧
        (s.dsub = some .dClear → step s = .next { t with dsub := some .dPixels, dx := 0, dy := 0, pi := 0 }) ∧
        (s.dsub = some .dPixels → s.phase = .pixelDraw → step s = .next { t with pi := s.pi + 1 }) ∧
        (s.dsub = some .dPixels → s.phase ≠ .pixelDraw →
          (s.dy.val < 6 → step s = .next { t with dy := s.dy + 1 }) ∧
          (s.dy.val = 6 → s.dx.val < 16 → step s = .next { t with dy := 0, dx := s.dx + 1 }) ∧
          (s.dy.val = 6 → s.dx.val = 16 → step s = .next { t with dsub := some .dFlip })) ∧
        (s.dsub = some .dFlip → s.phase ≠ .animatingStep →
          step s = .next { t with
            active := 1 - s.active, dx := 0, dy := 0, pi := 0, dsub := none
            phase := .respond, err := 0, cb := [], rsp := some 0x0000 }) ∧
        (s.dsub = some .dFlip → s.phase = .animatingStep →
          let ci := if s.sc.val < 5 then s.ci else s.ci + 1
          let sc := if s.sc.val < 5 then s.sc + 1 else 0
          (ci = s.tlen →
            step s = .next { t with
              active := 1 - s.active, dx := 0, dy := 0, pi := 0, ci := ci, sc := sc, dsub := none
              phase := .respond, err := 0, cb := [], rsp := some 0x0000 }) ∧
          (ci ≠ s.tlen →
            step s = .next { t with
              active := 1 - s.active, dx := 0, dy := 0, pi := 0, ci := ci, sc := sc, dsub := some .dSelect
              sb := shiftLeft s.sb (charColumn Config.font (s.txt.toList.getD ci.toNat 0) sc) })))

/-- An illegal opcode byte is consumed alone and answered with `IllegalCommand` and the byte, and nothing else changes
(R98, R206; decision D20). With the response `CB` is discarded (notes/assumptions/4.md, DESIGN CHOICE). -/
def Obligations.IllegalOpcodeByte : Prop :=
  ∀ (s : State) (op : Byte) (rest : List Byte),
    s.rst = false → s.phase = .idle → s.drv = none → s.rsp = none →
    s.cmdIn = op :: rest → op = 0x00 ∨ 8 ≤ op.toNat →
    step s = .next { s with
      cmdIn := rest, phase := .respond, err := 4, cb := [], rsp := some (BitVec.ofNat 16 (0x0400 + op.toNat)) }

/-- The steps outside a command: a waiting response is taken and the sequencer is `Idle` again, whatever the code was
(R87, R211); LMX in `Idle` with no byte to come waits and nothing changes (R41, R80); in `Receive` with no byte to come
it is stuck (R221). That the host takes a response at once is the model's choice (notes/assumptions/1.md, DESIGN CHOICE),
and that a stuck `Receive` is a fault of the model while a waiting `Idle` goes on is the model's reading
(notes/assumptions/7.md, DEDUCED). -/
def Obligations.StepsOutsideCommands : Prop :=
  (∀ (s : State) (w : BitVec 16), s.rst = false → s.drv = none → s.rsp = some w →
    step s = .next { s with phase := .idle, rsp := none, taken := s.taken ++ [w] }) ∧
  (∀ s : State, s.rst = false → s.drv = none → s.rsp = none → s.phase = .idle → s.cmdIn = [] → step s = .next s) ∧
  ∀ s : State, s.rst = false → s.drv = none → s.rsp = none → s.phase = .receive → s.cmdIn = [] →
    step s = .fault .stuckInReceive

/-- The reset values of R40 (decision D21): `Idle`, frame 0 active, aimed at and shown, code OK, nothing presented or
waiting, and every cell at the open `FM_RESET`. -/
def Obligations.ResetValues : Prop :=
  State.reset.phase = .idle ∧ State.reset.active = 0 ∧ State.reset.err = 0 ∧
  State.reset.chip.target = 0 ∧ State.reset.chip.visible = 0 ∧
  State.reset.drv = none ∧ State.reset.rsp = none ∧
  State.reset.busy = false ∧ State.reset.cmdReady = true ∧ State.reset.activePin = 0 ∧
  ∀ f idx, State.reset.chip.cell f idx = Config.fmReset f idx

/-- Asserting `rst` abandons whatever is in progress and leaves the collaborator alone; while it is asserted no byte is
accepted and nothing happens but its release (R230, R231; decision D21). -/
def Obligations.ResetPin : Prop :=
  ∀ s : State, ∃ t, portStep (.rst true) s = some t ∧
    t.phase = .idle ∧ t.active = 0 ∧ t.err = 0 ∧ t.drv = none ∧ t.rsp = none ∧ t.busy = false ∧ t.cmdReady = false ∧
    t.chip = s.chip ∧ t.trace = s.trace ∧ t.taken = s.taken ∧
    (∀ b, portStep (.cmdByte b) t = none) ∧ portStep .drvReady t = none ∧ portStep .rspReady t = none ∧
    portStep .internal t = none ∧
    ∃ u, portStep (.rst false) t = some u ∧ u.cmdReady = true ∧ u.phase = .idle ∧ u.chip = s.chip

/-- A byte is accepted exactly in `Idle` with no response waiting, and in `Receive` (R81). -/
def Obligations.CommandReady : Prop :=
  ∀ (s : State) (b : Byte), (portStep (.cmdByte b) s).isSome = true ↔
    s.rst = false ∧ (s.phase = .idle ∧ s.rsp = none ∨ s.phase = .receive)

/-- A presented primitive and a waiting response are held unchanged until they are taken, whatever else happens but
`rst` (R85, R87; decisions D2 and D3). -/
def Obligations.HandshakesHold : Prop :=
  ∀ (s t : State) (e : PortEvent), s.Inv → portStep e s = some t → e ≠ .rst true →
    (∀ w, s.drv = some w → e ≠ .drvReady → t.drv = some w) ∧
    (∀ w, s.rsp = some w → e ≠ .rspReady → t.rsp = some w)

/-- The machine is in its invariant right after reset (R29, R40, R234). -/
def Obligations.InvariantAtReset : Prop := State.reset.Inv

/-- Every step keeps the invariant: the frame memory stays canonical, `ERR` one of the five codes, the collaborator
agrees with LMX in every phase, and only words of R99 are presented (R29, R34, R99; derivations of the spec). -/
def Obligations.StepKeepsTheInvariant : Prop :=
  ∀ s t : State, s.Inv → step s = .next t → t.Inv

/-- Every port event keeps the invariant too, so it holds between any two primitives of a command (R29, D34). -/
def Obligations.TickKeepsTheInvariant : Prop :=
  ∀ s t : State, s.Inv → tick s = .next t → t.Inv

/-- Inside the invariant the machine never stops but in `Receive` with no byte to come. R221 names three stuck states (a
derivation of the spec): in the model's eager environment (notes/assumptions/1.md, DESIGN CHOICE) this one alone is left,
and it is a fault of the model (notes/assumptions/7.md, DEDUCED). -/
def Obligations.OnlyStuckInReceive : Prop :=
  ∀ s : State, s.Inv →
    (∃ t, step s = .next t) ∨ (step s = .fault .stuckInReceive ∧ s.phase = .receive ∧ s.cmdIn = [])

/-- No tearing: one port event leaves every cell of the shown frame, or blanks it whole as CLEAR, or flips to the other
frame without writing a cell (R66, R140, R244; derivations of the spec). That `ACTIVE` follows in the very event of the
flip is the model's choice (notes/assumptions/13.md, DESIGN CHOICE); R64 says only that it comes after the flip. -/
def Obligations.NoTearing : Prop :=
  ∀ s t : State, s.Inv → tick s = .next t →
    (t.chip.visible = s.chip.visible ∧
      ((∀ idx, t.chip.cell s.chip.visible idx = s.chip.cell s.chip.visible idx) ∨
        s.phase = .clearing ∧ ∀ idx, t.chip.cell s.chip.visible idx = 0)) ∨
    (t.chip.visible = otherFrame s.chip.visible ∧ s.dsub = some .dFlip ∧ t.active = t.chip.visible ∧
      ∀ f idx, t.chip.cell f idx = s.chip.cell f idx)

/-- Double-buffer isolation: outside a draw no port event writes a cell of the inactive frame (R67, a derivation of the
spec). -/
def Obligations.InactiveFrameKept : Prop :=
  ∀ s t : State, s.Inv → tick s = .next t → s.dsub = none →
    t.active = s.active ∧ ∀ idx, t.chip.cell (otherFrame s.active) idx = s.chip.cell (otherFrame s.active) idx

/-- The phase graph: every port event follows an edge of R189 or stays in its phase (R163, R189; decision D30). -/
def Obligations.PhaseGraph : Prop :=
  ∀ s t : State, s.Inv → tick s = .next t → phaseEdge s.phase t.phase = true

/-- The ports refine the commands: over the bytes of a command, the sequencer's run of single handshakes ends in the very
state that the command's meaning answers (D34, R25, R189). -/
def Obligations.PortsRefineCommands : Prop :=
  ∀ (i : Instr) (own rest : List Byte) (s : State), i.wellFormed = true → encode i = .command own →
    s.rst = false → s.phase = .idle → s.drv = none → s.rsp = none → s.dsub = none → s.cb = [] →
    s.cmdIn = own ++ rest →
    ∃ n t, exec i { s with cmdIn := rest } = .next t ∧ ticks n s = .next t

/-- Termination: from every state of the invariant but `Receive`, finitely many port events lead to `Idle`
(R221, R222; a derivation of the spec, in the environment of R15). -/
def Obligations.SequencerReturnsToIdle : Prop :=
  ∀ s : State, s.Inv → s.phase ≠ .idle → s.phase ≠ .receive → ∃ n t, ticks n s = .next t ∧ t.phase = .idle
end

