-- ==== Sys2Proof/Laws/Decode.lean ====
section
/-! SUPPORT. The decoders: the pieces of an operand put together again, what follows a command does not change it, and
the driver word of a primitive decodes to it. -/

namespace Sys2Proof

/-! ## Operands from their bytes -/

theorem append_bytes16 (b : BitVec 16) : b.extractLsb' 8 8 ++ b.extractLsb' 0 8 = b := by
  apply BitVec.eq_of_getLsbD_eq
  intro i hi
  simp only [BitVec.getLsbD_append, BitVec.getLsbD_extractLsb']
  by_cases h : i < 8
  · simp [h]
  · simp only [h, decide_false, show 8 + (i - 8) = i by omega]
    simp; omega

theorem append_bytes32 (n : BitVec 32) :
    n.extractLsb' 24 8 ++ n.extractLsb' 16 8 ++ n.extractLsb' 8 8 ++ n.extractLsb' 0 8 = n := by
  apply BitVec.eq_of_getLsbD_eq
  intro i hi
  simp only [BitVec.getLsbD_append, BitVec.getLsbD_extractLsb']
  by_cases h : i < 8
  · simp [h]
  by_cases h2 : i < 16
  · simp [h, show i - 8 < 8 by omega, show 8 + (i - 8) = i by omega]
  by_cases h3 : i < 24
  · simp [h, show ¬ i - 8 < 8 by omega, show i - 8 - 8 < 8 by omega, show 16 + (i - 8 - 8) = i by omega]
  · simp [h, show ¬ i - 8 < 8 by omega, show ¬ i - 8 - 8 < 8 by omega, show i - 8 - 8 - 8 < 8 by omega,
      show 24 + (i - 8 - 8 - 8) = i by omega]

/-- A length that fits a byte is the number its byte stands for. -/
theorem toNat_lengthByte {n : Nat} (h : n ≤ 255) : (BitVec.ofNat 8 n).toNat = n := by
  rw [BitVec.toNat_ofNat]; omega

theorem takeBytes_append (l r : List Byte) (n : Nat) (h : l.length = n) : takeBytes n (l ++ r) = some (l, r) := by
  subst h; simp [takeBytes]

/-- What `takeBytes` answers is a split of its argument. -/
theorem takeBytes_some {n : Nat} {l a r : List Byte} (h : takeBytes n l = some (a, r)) : l = a ++ r ∧ a.length = n := by
  unfold takeBytes at h
  split at h
  · simp only [Option.some.injEq, Prod.mk.injEq] at h
    obtain ⟨rfl, rfl⟩ := h
    exact ⟨(List.take_append_drop n l).symm, by simp; omega⟩
  · simp at h

theorem parseTriples_bytes (ts : List Triple) (r : List Byte) :
    parseTriples ts.length (ts.flatMap Triple.bytes ++ r) = some (ts, r) := by
  induction ts with
  | nil => simp [parseTriples]
  | cons t ts ih =>
    simp only [List.length_cons, List.flatMap_cons, Triple.bytes, List.cons_append, List.nil_append] at *
    simp [parseTriples, ih]

theorem parseTriples_some {n : Nat} {l r : List Byte} {ts : List Triple} (h : parseTriples n l = some (ts, r)) :
    l = ts.flatMap Triple.bytes ++ r ∧ ts.length = n := by
  induction n generalizing l ts with
  | zero =>
    simp only [parseTriples, Option.some.injEq, Prod.mk.injEq] at h
    obtain ⟨rfl, rfl⟩ := h
    simp
  | succ n ih =>
    match l with
    | x :: y :: i :: l =>
      simp only [parseTriples] at h
      cases hp : parseTriples n l with
      | none => simp [hp] at h
      | some q =>
        obtain ⟨us, r'⟩ := q
        simp only [hp, Option.some.injEq, Prod.mk.injEq] at h
        obtain ⟨rfl, rfl⟩ := h
        obtain ⟨rfl, hl⟩ := ih hp
        simp [Triple.bytes, hl]
    | [] => simp [parseTriples] at h
    | [_] => simp [parseTriples] at h
    | [_, _] => simp [parseTriples] at h

theorem columnsOf_toList (m : Vector Byte 17) : columnsOf m.toList = m := by
  apply Vector.ext
  intro i hi
  simp [columnsOf]

theorem toList_columnsOf {l : List Byte} (h : l.length = 17) : (columnsOf l).toList = l := by
  apply List.ext_getElem
  · simp [h]
  · intro i h1 h2
    simp [columnsOf, List.getElem?_eq_getElem h2]

/-! ## The bytes after a command -/

theorem takeBytes_append_right {n : Nat} {l a r : List Byte} (h : takeBytes n l = some (a, r)) (m : List Byte) :
    takeBytes n (l ++ m) = some (a, r ++ m) := by
  obtain ⟨rfl, hl⟩ := takeBytes_some h
  rw [List.append_assoc]
  exact takeBytes_append _ _ _ hl

theorem parseTriples_append_right {n : Nat} {l r : List Byte} {ts : List Triple}
    (h : parseTriples n l = some (ts, r)) (m : List Byte) : parseTriples n (l ++ m) = some (ts, r ++ m) := by
  obtain ⟨rfl, rfl⟩ := parseTriples_some h
  rw [List.append_assoc]
  exact parseTriples_bytes _ _

/-! ## What the command decoder accepts -/

/-- The seven forms of a decoded command and the bytes that follow it (R88, R89). -/
inductive CommandForm : List Byte → Instr → List Byte → Prop where
  | clear (r) : CommandForm (0x01 :: r) .clear r
  | scroll (b0 b1 len : Byte) (text r) (h : text.length = len.toNat) :
      CommandForm (0x02 :: b0 :: b1 :: len :: (text ++ r)) (.scroll (b1 ++ b0) text) r
  | scrolln (b0 b1 n0 n1 n2 n3 : Byte) (r) :
      CommandForm (0x03 :: b0 :: b1 :: n0 :: n1 :: n2 :: n3 :: r) (.scrolln (b1 ++ b0) (n3 ++ n2 ++ n1 ++ n0)) r
  | draw (b0 b1 : Byte) (masks r) (h : masks.length = 17) :
      CommandForm (0x04 :: b0 :: b1 :: (masks ++ r)) (.draw (b1 ++ b0) (columnsOf masks)) r
  | pixels (cnt : Byte) (ts : List Triple) (r) (h : ts.length = cnt.toNat) :
      CommandForm (0x05 :: cnt :: (ts.flatMap Triple.bytes ++ r)) (.pixels ts) r
  | imgstr (len : Byte) (chars r) (h : chars.length = len.toNat) :
      CommandForm (0x06 :: len :: (chars ++ r)) (.imgstr chars) r
  | paddr (x y : Byte) (r) : CommandForm (0x07 :: x :: y :: r) (.paddr x y) r

theorem decodeCommand_form {l : List Byte} {i : Instr} {r : List Byte} (h : CommandForm l i r) :
    decodeCommand l = .ok (i, r) := by
  cases h with
  | clear => simp [decodeCommand]
  | scroll b0 b1 len text r h => simp only [decodeCommand]; rw [takeBytes_append _ _ _ h]; rfl
  | scrolln => simp [decodeCommand]
  | draw b0 b1 masks r h => simp only [decodeCommand]; rw [takeBytes_append _ _ _ h]; rfl
  | pixels cnt ts r h => simp only [decodeCommand]; rw [← h, parseTriples_bytes]; rfl
  | imgstr len chars r h => simp only [decodeCommand]; rw [takeBytes_append _ _ _ h]; rfl
  | paddr => simp [decodeCommand]

theorem form_of_decodeCommand {l : List Byte} {i : Instr} {r : List Byte} (h : decodeCommand l = .ok (i, r)) :
    CommandForm l i r := by
  cases l with
  | nil => simp [decodeCommand] at h
  | cons op l =>
    simp only [decodeCommand] at h
    split at h
    · next e => simp only [Except.ok.injEq, Prod.mk.injEq] at h; obtain ⟨rfl, rfl⟩ := h; subst e; exact .clear _
    split at h
    · next e =>
      subst e
      split at h
      · split at h
        · next ht =>
          simp only [Except.ok.injEq, Prod.mk.injEq] at h
          obtain ⟨rfl, rfl⟩ := h
          obtain ⟨rfl, hl⟩ := takeBytes_some ht
          exact .scroll _ _ _ _ _ hl
        · simp at h
      · simp at h
    split at h
    · next e =>
      subst e
      split at h
      · simp only [Except.ok.injEq, Prod.mk.injEq] at h
        obtain ⟨rfl, rfl⟩ := h
        exact .scrolln _ _ _ _ _ _ _
      · simp at h
    split at h
    · next e =>
      subst e
      split at h
      · split at h
        · next ht =>
          simp only [Except.ok.injEq, Prod.mk.injEq] at h
          obtain ⟨rfl, rfl⟩ := h
          obtain ⟨rfl, hl⟩ := takeBytes_some ht
          exact .draw _ _ _ _ hl
        · simp at h
      · simp at h
    split at h
    · next e =>
      subst e
      split at h
      · split at h
        · next ht =>
          simp only [Except.ok.injEq, Prod.mk.injEq] at h
          obtain ⟨rfl, rfl⟩ := h
          obtain ⟨rfl, hl⟩ := parseTriples_some ht
          exact .pixels _ _ _ hl
        · simp at h
      · simp at h
    split at h
    · next e =>
      subst e
      split at h
      · split at h
        · next ht =>
          simp only [Except.ok.injEq, Prod.mk.injEq] at h
          obtain ⟨rfl, rfl⟩ := h
          obtain ⟨rfl, hl⟩ := takeBytes_some ht
          exact .imgstr _ _ _ hl
        · simp at h
      · simp at h
    split at h
    · next e =>
      subst e
      split at h
      · simp only [Except.ok.injEq, Prod.mk.injEq] at h
        obtain ⟨rfl, rfl⟩ := h
        exact .paddr _ _ _
      · simp at h
    · simp at h

/-- A decoded command is a command, not a driver primitive. -/
theorem isCommand_of_decodeCommand {l : List Byte} {i : Instr} {r : List Byte} (h : decodeCommand l = .ok (i, r)) :
    i.isCommand = true := by
  cases form_of_decodeCommand h <;> rfl

/-- A command has bytes of its own, and the bytes after them are any. -/
theorem CommandForm.own {l : List Byte} {i : Instr} {r : List Byte} (h : CommandForm l i r) :
    ∃ own, l = own ++ r ∧ ∀ r', CommandForm (own ++ r') i r' := by
  cases h with
  | clear => exact ⟨[0x01], rfl, fun _ => .clear _⟩
  | scroll b0 b1 len text r hl =>
    exact ⟨0x02 :: b0 :: b1 :: len :: text, by simp, fun r' => by simpa using .scroll b0 b1 len text r' hl⟩
  | scrolln b0 b1 n0 n1 n2 n3 => exact ⟨[0x03, b0, b1, n0, n1, n2, n3], rfl, fun _ => .scrolln _ _ _ _ _ _ _⟩
  | draw b0 b1 masks r hl =>
    exact ⟨0x04 :: b0 :: b1 :: masks, by simp, fun r' => by simpa using .draw b0 b1 masks r' hl⟩
  | pixels cnt ts r hl =>
    exact ⟨0x05 :: cnt :: ts.flatMap Triple.bytes, by simp, fun r' => by simpa using .pixels cnt ts r' hl⟩
  | imgstr len chars r hl =>
    exact ⟨0x06 :: len :: chars, by simp, fun r' => by simpa using .imgstr len chars r' hl⟩
  | paddr x y => exact ⟨[0x07, x, y], rfl, fun _ => .paddr _ _ _⟩

/-- The bytes after a command do not change it. -/
theorem decodeCommand_append {l : List Byte} {i : Instr} {r : List Byte} (h : decodeCommand l = .ok (i, r))
    (m : List Byte) : decodeCommand (l ++ m) = .ok (i, r ++ m) := by
  obtain ⟨own, rfl, ho⟩ := (form_of_decodeCommand h).own
  rw [List.append_assoc]
  exact decodeCommand_form (ho _)

/-- An illegal opcode is told by the first byte alone (R98). -/
theorem decodeCommand_illegal {l : List Byte} {op : Byte} (h : decodeCommand l = .error (.illegalOpcode op)) :
    ∃ r, l = op :: r ∧ (op = 0 ∨ 8 ≤ op.toNat) := by
  cases l with
  | nil => simp [decodeCommand] at h
  | cons b l =>
    simp only [decodeCommand] at h
    repeat' split at h
    all_goals first
      | (simp only [Except.error.injEq, DecodeError.illegalOpcode.injEq] at h; subst h; refine ⟨l, rfl, ?_⟩)
      | simp at h
    revert b; decide

/-- What the decoder says of an opcode byte that is none of the seven, whatever follows it (R98). -/
theorem decodeCommand_of_illegal {op : Byte} (h : op = 0 ∨ 8 ≤ op.toNat) (r : List Byte) :
    decodeCommand (op :: r) = .error (.illegalOpcode op) := by
  have hne : ∀ k : Byte, 1 ≤ k.toNat → k.toNat ≤ 7 → op ≠ k := by
    intro k h1 h2 e; subst e
    rcases h with rfl | h
    · simp at h1
    · omega
  simp only [decodeCommand]
  rw [if_neg (hne 1 (by decide) (by decide)), if_neg (hne 2 (by decide) (by decide)),
    if_neg (hne 3 (by decide) (by decide)), if_neg (hne 4 (by decide) (by decide)),
    if_neg (hne 5 (by decide) (by decide)), if_neg (hne 6 (by decide) (by decide)),
    if_neg (hne 7 (by decide) (by decide))]

/-- The decoder rejects in two ways only. -/
theorem decodeCommand_error {l : List Byte} {e : DecodeError} (h : decodeCommand l = .error e) :
    e = .incomplete ∨ ∃ op, e = .illegalOpcode op := by
  cases l with
  | nil => simp only [decodeCommand, Except.error.injEq] at h; exact .inl h.symm
  | cons b l =>
    simp only [decodeCommand] at h
    repeat' split at h
    all_goals first
      | (simp only [Except.error.injEq] at h; subst h; simp)
      | simp at h

/-- One more byte after an incomplete command: it is still incomplete, or it is complete with nothing left over
(R82, R101). -/
theorem decodeCommand_snoc {l : List Byte} (hl : l ≠ []) (h : decodeCommand l = .error .incomplete) (b : Byte) :
    decodeCommand (l ++ [b]) = .error .incomplete ∨ ∃ i, decodeCommand (l ++ [b]) = .ok (i, []) := by
  cases hd : decodeCommand (l ++ [b]) with
  | error e =>
    rcases decodeCommand_error hd with rfl | ⟨op, rfl⟩
    · exact .inl rfl
    · obtain ⟨r, hr, ho⟩ := decodeCommand_illegal hd
      cases l with
      | nil => exact absurd rfl hl
      | cons c l =>
        simp only [List.cons_append, List.cons.injEq] at hr
        rw [hr.1, decodeCommand_of_illegal ho] at h
        simp at h
  | ok q =>
    obtain ⟨i, r⟩ := q
    refine .inr ⟨i, ?_⟩
    suffices r = [] by rw [this]
    obtain ⟨own, hw, ho⟩ := (form_of_decodeCommand hd).own
    rcases List.eq_nil_or_concat r with rfl | ⟨r', c, rfl⟩
    · rfl
    · exfalso
      rw [List.concat_eq_append, ← List.append_assoc] at hw
      have hl' := (List.append_inj' hw rfl).1
      rw [hl', decodeCommand_form (ho r')] at h
      simp at h

/-! ## Driver words -/

/-- The driver word of a primitive decodes to it (R84, R131 to R133). -/
theorem decodeDriver_word (p : Prim) : decodeDriver p.word = .ok p := by
  cases p with
  | selectFrame id shown => revert id shown; decide
  | clearFrame => decide
  | setPixel pcol prow b =>
    have h0 : (Prim.setPixel pcol prow b).word.extractLsb' 16 2 = 3#2 := by
      apply BitVec.eq_of_getLsbD_eq
      intro i hi
      simp only [Prim.word, BitVec.getLsbD_append, BitVec.getLsbD_extractLsb']
      simp [show ¬ (16 + i < 8) by omega, show ¬ (16 + i - 8 < 4) by omega, show ¬ (16 + i - 8 - 4 < 4) by omega, hi,
        show 16 + i - 8 - 4 - 4 = i by omega]
    have h1 : (Prim.setPixel pcol prow b).word.extractLsb' 12 4 = pcol := by
      apply BitVec.eq_of_getLsbD_eq
      intro i hi
      simp only [Prim.word, BitVec.getLsbD_append, BitVec.getLsbD_extractLsb']
      simp [hi, show ¬ (12 + i < 8) by omega, show ¬ (12 + i - 8 < 4) by omega, show 12 + i - 8 - 4 = i by omega]
    have h2 : (Prim.setPixel pcol prow b).word.extractLsb' 8 4 = prow := by
      apply BitVec.eq_of_getLsbD_eq
      intro i hi
      simp only [Prim.word, BitVec.getLsbD_append, BitVec.getLsbD_extractLsb']
      simp [hi, show ¬ (8 + i < 8) by omega]
    have h3 : (Prim.setPixel pcol prow b).word.extractLsb' 0 8 = b := by
      apply BitVec.eq_of_getLsbD_eq
      intro i hi
      simp only [Prim.word, BitVec.getLsbD_append, BitVec.getLsbD_extractLsb']
      simp [hi]
    simp only [decodeDriver, h0, h1, h2, h3]
    simp

end Sys2Proof
end

