-- ==== Sys2Proof/Laws/Memory.lean ====
section
/-! SUPPORT. The frame memory: reads after writes and clears, the canonical form, and what accepting a primitive does
to a cell. -/

namespace Sys2Proof.Machine

/-! ## Addresses -/

theorem cellAddr_lt (f : FrameId) (idx : Fin 144) : cellAddr f idx.val < 288 := by
  unfold cellAddr; omega

theorem cellAddr_inj {f g : FrameId} {i j : Nat} (hi : i < 144) (hj : j < 144) :
    cellAddr f i = cellAddr g j ↔ f = g ∧ i = j := by
  unfold cellAddr
  rw [Fin.ext_iff]
  omega

/-! ## Reading -/

@[simp] theorem memRead_nil (a : Nat) : memRead a [] = none := rfl

theorem memRead_cons (a : Nat) (c : Host.Cell) (m : Mem) :
    memRead a (c :: m) = if c.1 = a then some c.2 else memRead a m := rfl

theorem memRead_append (a : Nat) (m n : Mem) : memRead a (m ++ n) = (memRead a m).or (memRead a n) := by
  induction m with
  | nil => simp
  | cons c m ih => simp only [List.cons_append, memRead_cons]; split <;> simp [ih]

theorem memRead_filter (a : Nat) (p : Nat → Bool) (m : Mem) :
    memRead a (m.filter fun c => p c.1) = if p a then memRead a m else none := by
  induction m with
  | nil => simp
  | cons c m ih =>
    rw [List.filter_cons, memRead_cons]
    by_cases hc : c.1 = a
    · subst hc
      by_cases hp : p c.1 = true
      · simp [hp, memRead_cons]
      · simp [hp, ih]
    · by_cases hp : p c.1 = true
      · simp [hp, memRead_cons, hc, ih]
      · simp [hp, hc, ih]

/-! ## Writing one cell -/

@[simp] theorem memRead_memWrite (a b : Nat) (v : Byte) (m : Mem) :
    memRead b (memWrite a v m) = if a = b then some v else memRead b m := by
  induction m with
  | nil => simp [memWrite, memRead_cons]
  | cons c m ih =>
    unfold memWrite
    split
    · simp [memRead_cons]
    · split
      · next h => subst h; simp only [memRead_cons]; split <;> rfl
      · next h =>
        simp only [memRead_cons, ih]
        split
        · next h' => subst h'; simp [h]
        · rfl

theorem memWrite_memWrite (a : Nat) (v w : Byte) (m : Mem) :
    memWrite a w (memWrite a v m) = memWrite a w m := by
  induction m with
  | nil => simp [memWrite]
  | cons c m ih =>
    by_cases h1 : a < c.1
    · simp [memWrite, h1]
    · by_cases h2 : a = c.1
      · simp [memWrite, h2]
      · simp [memWrite, h1, h2, ih]

theorem mem_memWrite {a : Nat} {v : Byte} {m : Mem} {c : Host.Cell} (h : c ∈ memWrite a v m) :
    c = (a, v) ∨ c ∈ m := by
  induction m with
  | nil => simpa [memWrite] using h
  | cons d m ih =>
    unfold memWrite at h
    split at h
    · simpa using h
    · split at h <;> simp only [List.mem_cons] at h ⊢ <;> tauto

theorem memWf_memWrite {a : Nat} {v : Byte} {m : Mem} (ha : a < 288) (h : memWf m) : memWf (memWrite a v m) := by
  refine ⟨?_, ?_⟩
  · obtain ⟨h, -⟩ := h
    induction m with
    | nil => simp [memWrite]
    | cons c m ih =>
      obtain ⟨hc, hm⟩ := List.pairwise_cons.1 h
      unfold memWrite
      split
      · next hlt =>
        refine List.pairwise_cons.2 ⟨?_, h⟩
        intro d hd
        rcases List.mem_cons.1 hd with rfl | hd
        · exact hlt
        · exact Nat.lt_trans hlt (hc d hd)
      · split
        · next _ heq => exact List.pairwise_cons.2 ⟨fun d hd => by rw [show (a, v).1 = c.1 from heq]; exact hc d hd, hm⟩
        · next hnlt hne =>
          refine List.pairwise_cons.2 ⟨?_, ih hm⟩
          intro d hd
          rcases mem_memWrite hd with rfl | hd
          · show c.1 < a; omega
          · exact hc d hd
  · intro c hc
    rcases mem_memWrite hc with rfl | hc
    · exact ha
    · exact h.2 c hc

/-! ## Clearing a frame -/

theorem memRead_map_range (f : FrameId) (n k a : Nat) :
    memRead a ((List.range' k n).map fun i => (cellAddr f i, (0 : Byte))) =
      if cellAddr f k ≤ a ∧ a < cellAddr f (k + n) then some 0 else none := by
  induction n generalizing k with
  | zero => simp [cellAddr]
  | succ n ih =>
    rw [List.range'_succ, List.map_cons, memRead_cons, ih]
    unfold cellAddr
    by_cases h : 144 * f.val + k = a
    · rw [if_pos h, if_pos (by omega)]
    · rw [if_neg h]
      by_cases h' : 144 * f.val + (k + 1) ≤ a ∧ a < 144 * f.val + (k + 1 + n)
      · rw [if_pos h', if_pos (by omega)]
      · rw [if_neg h', if_neg (by omega)]

theorem memRead_zeroFrame (f : FrameId) (a : Nat) :
    memRead a (zeroFrame f) = if cellAddr f 0 ≤ a ∧ a < cellAddr f 144 then some 0 else none := by
  unfold zeroFrame
  rw [List.range_eq_range']
  simpa using memRead_map_range f 144 0 a

/-- A clear zeroes the addresses of its frame and leaves every other address alone. -/
@[simp] theorem memRead_memClear (f : FrameId) (a : Nat) (m : Mem) :
    memRead a (memClear f m) = if cellAddr f 0 ≤ a ∧ a < cellAddr f 144 then some 0 else memRead a m := by
  unfold memClear
  rw [memRead_append, memRead_append, memRead_zeroFrame,
    memRead_filter a (fun b => decide (b < cellAddr f 0)), memRead_filter a (fun b => decide (cellAddr f 144 ≤ b))]
  unfold cellAddr
  simp only [decide_eq_true_eq]
  split_ifs <;> first | omega | simp

theorem zeroFrame_bounds {f : FrameId} {c : Host.Cell} (h : c ∈ zeroFrame f) :
    cellAddr f 0 ≤ c.1 ∧ c.1 < cellAddr f 144 := by
  unfold zeroFrame at h
  obtain ⟨i, hi, rfl⟩ := List.mem_map.1 h
  have := List.mem_range.1 hi
  unfold cellAddr
  dsimp only
  omega

theorem memWf_memClear {f : FrameId} {m : Mem} (h : memWf m) : memWf (memClear f m) := by
  obtain ⟨hs, hb⟩ := h
  refine ⟨?_, ?_⟩
  · unfold memClear
    refine List.pairwise_append.2 ⟨List.pairwise_append.2 ⟨hs.filter _, ?_, ?_⟩, hs.filter _, ?_⟩
    · unfold zeroFrame
      refine List.pairwise_map.2 (List.pairwise_lt_range.imp ?_)
      intro a b hab
      show cellAddr f a < cellAddr f b
      unfold cellAddr; omega
    · intro a ha b hb
      have h1 := (zeroFrame_bounds hb).1
      have h2 := (List.mem_filter.1 ha).2
      simp only [decide_eq_true_eq] at h2
      omega
    · intro a ha b hb
      have h2 := (List.mem_filter.1 hb).2
      simp only [decide_eq_true_eq] at h2
      rcases List.mem_append.1 ha with ha | ha
      · have h1 := (List.mem_filter.1 ha).2
        simp only [decide_eq_true_eq] at h1
        unfold cellAddr at *; omega
      · have := (zeroFrame_bounds ha).2
        omega
  · intro c hc
    unfold memClear at hc
    rcases List.mem_append.1 hc with hc | hc
    · rcases List.mem_append.1 hc with hc | hc
      · exact hb c (List.mem_filter.1 hc).1
      · have := (zeroFrame_bounds hc).2
        unfold cellAddr at this; omega
    · exact hb c (List.mem_filter.1 hc).1

theorem memClear_memClear (f : FrameId) (m : Mem) : memClear f (memClear f m) = memClear f m := by
  have hz1 : (zeroFrame f).filter (fun c => decide (c.1 < cellAddr f 0)) = [] := by
    rw [List.filter_eq_nil_iff]
    intro c hc
    have := (zeroFrame_bounds hc).1
    simp only [decide_eq_true_eq]; omega
  have hz2 : (zeroFrame f).filter (fun c => decide (cellAddr f 144 ≤ c.1)) = [] := by
    rw [List.filter_eq_nil_iff]
    intro c hc
    have := (zeroFrame_bounds hc).2
    simp only [decide_eq_true_eq]; omega
  have h1 : ((m.filter fun c => decide (cellAddr f 144 ≤ c.1)).filter fun c => decide (c.1 < cellAddr f 0)) = [] := by
    rw [List.filter_eq_nil_iff]
    intro c hc
    have := (List.mem_filter.1 hc).2
    simp only [decide_eq_true_eq] at this ⊢
    unfold cellAddr at *; omega
  have h2 : ((m.filter fun c => decide (c.1 < cellAddr f 0)).filter fun c => decide (cellAddr f 144 ≤ c.1)) = [] := by
    rw [List.filter_eq_nil_iff]
    intro c hc
    have := (List.mem_filter.1 hc).2
    simp only [decide_eq_true_eq] at this ⊢
    unfold cellAddr at *; omega
  unfold memClear
  simp only [List.filter_append, hz1, hz2, h1, h2, List.filter_filter, Bool.and_self, List.nil_append,
    List.append_nil]

/-! ## The collaborator -/

@[simp] theorem accept_selectFrame_target (c : Chip) (id : FrameId) (shown : Bool) :
    (c.accept (.selectFrame id shown)).target = id := rfl
@[simp] theorem accept_selectFrame_visible (c : Chip) (id : FrameId) (shown : Bool) :
    (c.accept (.selectFrame id shown)).visible = if shown then id else c.visible := rfl
@[simp] theorem accept_selectFrame_fm (c : Chip) (id : FrameId) (shown : Bool) :
    (c.accept (.selectFrame id shown)).fm = c.fm := rfl
@[simp] theorem accept_clearFrame_target (c : Chip) : (c.accept .clearFrame).target = c.target := rfl
@[simp] theorem accept_clearFrame_visible (c : Chip) : (c.accept .clearFrame).visible = c.visible := rfl
@[simp] theorem accept_clearFrame_fm (c : Chip) : (c.accept .clearFrame).fm = memClear c.target c.fm := rfl
@[simp] theorem accept_setPixel_target (c : Chip) (pc pr : BitVec 4) (b : Byte) :
    (c.accept (.setPixel pc pr b)).target = c.target := by simp only [Chip.accept]; split <;> rfl
@[simp] theorem accept_setPixel_visible (c : Chip) (pc pr : BitVec 4) (b : Byte) :
    (c.accept (.setPixel pc pr b)).visible = c.visible := by simp only [Chip.accept]; split <;> rfl
theorem accept_setPixel_fm (c : Chip) (pc pr : BitVec 4) (b : Byte) (h : physIndex pc pr < 144) :
    (c.accept (.setPixel pc pr b)).fm = memWrite (cellAddr c.target (physIndex pc pr)) b c.fm := by
  simp [Chip.accept, h]

/-- SELECT_FRAME writes no cell (R55, R131). -/
@[simp] theorem cell_accept_selectFrame (c : Chip) (id : FrameId) (shown : Bool) (f : FrameId) (idx : Fin 144) :
    (c.accept (.selectFrame id shown)).cell f idx = c.cell f idx := rfl

/-- CLEAR_FRAME zeroes the target frame and leaves the other one alone (R132). -/
@[simp] theorem cell_accept_clearFrame (c : Chip) (f : FrameId) (idx : Fin 144) :
    (c.accept .clearFrame).cell f idx = if f = c.target then 0 else c.cell f idx := by
  have hi := idx.isLt
  unfold Chip.cell
  rw [accept_clearFrame_fm, memRead_memClear]
  unfold cellAddr
  by_cases h : f = c.target
  · subst h
    rw [if_pos (by omega), if_pos rfl]; rfl
  · rw [Fin.ext_iff] at h
    rw [if_neg (by omega), if_neg (by rw [Fin.ext_iff]; exact h)]

/-- SET_PIXEL writes the one cell it names (R133). -/
theorem cell_accept_setPixel (c : Chip) (pc pr : BitVec 4) (b : Byte) (f : FrameId) (idx : Fin 144)
    (h : physIndex pc pr < 144) :
    (c.accept (.setPixel pc pr b)).cell f idx =
      if f = c.target ∧ idx.val = physIndex pc pr then b else c.cell f idx := by
  have hi := idx.isLt
  unfold Chip.cell
  rw [accept_setPixel_fm c pc pr b h, memRead_memWrite]
  by_cases hc : f = c.target ∧ idx.val = physIndex pc pr
  · rw [if_pos ((cellAddr_inj h hi).2 ⟨hc.1.symm, hc.2.symm⟩), if_pos hc]; rfl
  · rw [if_neg (fun e => hc (by have := (cellAddr_inj h hi).1 e; exact ⟨this.1.symm, this.2.symm⟩)), if_neg hc]

/-- Accepting a primitive keeps the frame memory canonical. -/
theorem accept_memWf {c : Chip} (h : memWf c.fm) (p : Prim) : memWf (c.accept p).fm := by
  cases p with
  | selectFrame id shown => exact h
  | clearFrame => exact memWf_memClear h
  | setPixel pc pr b =>
    simp only [Chip.accept]
    split
    · next hlt => exact memWf_memWrite (cellAddr_lt c.target ⟨_, hlt⟩) h
    · exact h

theorem foldl_accept_memWf (ps : List Prim) {c : Chip} (h : memWf c.fm) : memWf (ps.foldl Chip.accept c).fm := by
  induction ps generalizing c with
  | nil => exact h
  | cons p ps ih => exact ih (accept_memWf h p)

end Sys2Proof.Machine
end

