-- ==== Sys2Proof/Laws/State.lean ====
section
/-! SUPPORT. What each named update of the state does to each field, one lemma per field, true by rfl. -/

namespace Sys2Proof.Machine

variable (s : State)

/-! ### `respond` -/

@[simp] theorem respond_phase (code : BitVec 4) (data : Byte) : (s.respond code data).phase = .respond := rfl
@[simp] theorem respond_dsub (code : BitVec 4) (data : Byte) : (s.respond code data).dsub = s.dsub := rfl
@[simp] theorem respond_sb (code : BitVec 4) (data : Byte) : (s.respond code data).sb = s.sb := rfl
@[simp] theorem respond_br (code : BitVec 4) (data : Byte) : (s.respond code data).br = s.br := rfl
@[simp] theorem respond_ci (code : BitVec 4) (data : Byte) : (s.respond code data).ci = s.ci := rfl
@[simp] theorem respond_sc (code : BitVec 4) (data : Byte) : (s.respond code data).sc = s.sc := rfl
@[simp] theorem respond_dx (code : BitVec 4) (data : Byte) : (s.respond code data).dx = s.dx := rfl
@[simp] theorem respond_dy (code : BitVec 4) (data : Byte) : (s.respond code data).dy = s.dy := rfl
@[simp] theorem respond_pi (code : BitVec 4) (data : Byte) : (s.respond code data).pi = s.pi := rfl
@[simp] theorem respond_active (code : BitVec 4) (data : Byte) : (s.respond code data).active = s.active := rfl
@[simp] theorem respond_err (code : BitVec 4) (data : Byte) : (s.respond code data).err = code := rfl
@[simp] theorem respond_txt (code : BitVec 4) (data : Byte) : (s.respond code data).txt = s.txt := rfl
@[simp] theorem respond_tlen (code : BitVec 4) (data : Byte) : (s.respond code data).tlen = s.tlen := rfl
@[simp] theorem respond_pl (code : BitVec 4) (data : Byte) : (s.respond code data).pl = s.pl := rfl
@[simp] theorem respond_plen (code : BitVec 4) (data : Byte) : (s.respond code data).plen = s.plen := rfl
@[simp] theorem respond_cb (code : BitVec 4) (data : Byte) : (s.respond code data).cb = [] := rfl
@[simp] theorem respond_drv (code : BitVec 4) (data : Byte) : (s.respond code data).drv = s.drv := rfl
@[simp] theorem respond_rsp (code : BitVec 4) (data : Byte) : (s.respond code data).rsp = some (responseWord code data) := rfl
@[simp] theorem respond_rst (code : BitVec 4) (data : Byte) : (s.respond code data).rst = s.rst := rfl
@[simp] theorem respond_chip (code : BitVec 4) (data : Byte) : (s.respond code data).chip = s.chip := rfl
@[simp] theorem respond_cmdIn (code : BitVec 4) (data : Byte) : (s.respond code data).cmdIn = s.cmdIn := rfl
@[simp] theorem respond_trace (code : BitVec 4) (data : Byte) : (s.respond code data).trace = s.trace := rfl
@[simp] theorem respond_taken (code : BitVec 4) (data : Byte) : (s.respond code data).taken = s.taken := rfl

/-! ### `raise` -/

@[simp] theorem raise_phase (e : ErrorCause) (info : Byte) : (s.raise e info).phase = .respond := rfl
@[simp] theorem raise_dsub (e : ErrorCause) (info : Byte) : (s.raise e info).dsub = s.dsub := rfl
@[simp] theorem raise_sb (e : ErrorCause) (info : Byte) : (s.raise e info).sb = s.sb := rfl
@[simp] theorem raise_br (e : ErrorCause) (info : Byte) : (s.raise e info).br = s.br := rfl
@[simp] theorem raise_ci (e : ErrorCause) (info : Byte) : (s.raise e info).ci = s.ci := rfl
@[simp] theorem raise_sc (e : ErrorCause) (info : Byte) : (s.raise e info).sc = s.sc := rfl
@[simp] theorem raise_dx (e : ErrorCause) (info : Byte) : (s.raise e info).dx = s.dx := rfl
@[simp] theorem raise_dy (e : ErrorCause) (info : Byte) : (s.raise e info).dy = s.dy := rfl
@[simp] theorem raise_pi (e : ErrorCause) (info : Byte) : (s.raise e info).pi = s.pi := rfl
@[simp] theorem raise_active (e : ErrorCause) (info : Byte) : (s.raise e info).active = s.active := rfl
@[simp] theorem raise_err (e : ErrorCause) (info : Byte) : (s.raise e info).err = e.code := rfl
@[simp] theorem raise_txt (e : ErrorCause) (info : Byte) : (s.raise e info).txt = s.txt := rfl
@[simp] theorem raise_tlen (e : ErrorCause) (info : Byte) : (s.raise e info).tlen = s.tlen := rfl
@[simp] theorem raise_pl (e : ErrorCause) (info : Byte) : (s.raise e info).pl = s.pl := rfl
@[simp] theorem raise_plen (e : ErrorCause) (info : Byte) : (s.raise e info).plen = s.plen := rfl
@[simp] theorem raise_cb (e : ErrorCause) (info : Byte) : (s.raise e info).cb = [] := rfl
@[simp] theorem raise_drv (e : ErrorCause) (info : Byte) : (s.raise e info).drv = s.drv := rfl
@[simp] theorem raise_rsp (e : ErrorCause) (info : Byte) : (s.raise e info).rsp = some (responseWord e.code info) := rfl
@[simp] theorem raise_rst (e : ErrorCause) (info : Byte) : (s.raise e info).rst = s.rst := rfl
@[simp] theorem raise_chip (e : ErrorCause) (info : Byte) : (s.raise e info).chip = s.chip := rfl
@[simp] theorem raise_cmdIn (e : ErrorCause) (info : Byte) : (s.raise e info).cmdIn = s.cmdIn := rfl
@[simp] theorem raise_trace (e : ErrorCause) (info : Byte) : (s.raise e info).trace = s.trace := rfl
@[simp] theorem raise_taken (e : ErrorCause) (info : Byte) : (s.raise e info).taken = s.taken := rfl

/-! ### `takeResponse` -/

@[simp] theorem takeResponse_phase (w : BitVec 16) : (s.takeResponse w).phase = .idle := rfl
@[simp] theorem takeResponse_dsub (w : BitVec 16) : (s.takeResponse w).dsub = s.dsub := rfl
@[simp] theorem takeResponse_sb (w : BitVec 16) : (s.takeResponse w).sb = s.sb := rfl
@[simp] theorem takeResponse_br (w : BitVec 16) : (s.takeResponse w).br = s.br := rfl
@[simp] theorem takeResponse_ci (w : BitVec 16) : (s.takeResponse w).ci = s.ci := rfl
@[simp] theorem takeResponse_sc (w : BitVec 16) : (s.takeResponse w).sc = s.sc := rfl
@[simp] theorem takeResponse_dx (w : BitVec 16) : (s.takeResponse w).dx = s.dx := rfl
@[simp] theorem takeResponse_dy (w : BitVec 16) : (s.takeResponse w).dy = s.dy := rfl
@[simp] theorem takeResponse_pi (w : BitVec 16) : (s.takeResponse w).pi = s.pi := rfl
@[simp] theorem takeResponse_active (w : BitVec 16) : (s.takeResponse w).active = s.active := rfl
@[simp] theorem takeResponse_err (w : BitVec 16) : (s.takeResponse w).err = s.err := rfl
@[simp] theorem takeResponse_txt (w : BitVec 16) : (s.takeResponse w).txt = s.txt := rfl
@[simp] theorem takeResponse_tlen (w : BitVec 16) : (s.takeResponse w).tlen = s.tlen := rfl
@[simp] theorem takeResponse_pl (w : BitVec 16) : (s.takeResponse w).pl = s.pl := rfl
@[simp] theorem takeResponse_plen (w : BitVec 16) : (s.takeResponse w).plen = s.plen := rfl
@[simp] theorem takeResponse_cb (w : BitVec 16) : (s.takeResponse w).cb = s.cb := rfl
@[simp] theorem takeResponse_drv (w : BitVec 16) : (s.takeResponse w).drv = s.drv := rfl
@[simp] theorem takeResponse_rsp (w : BitVec 16) : (s.takeResponse w).rsp = none := rfl
@[simp] theorem takeResponse_rst (w : BitVec 16) : (s.takeResponse w).rst = s.rst := rfl
@[simp] theorem takeResponse_chip (w : BitVec 16) : (s.takeResponse w).chip = s.chip := rfl
@[simp] theorem takeResponse_cmdIn (w : BitVec 16) : (s.takeResponse w).cmdIn = s.cmdIn := rfl
@[simp] theorem takeResponse_trace (w : BitVec 16) : (s.takeResponse w).trace = s.trace := rfl
@[simp] theorem takeResponse_taken (w : BitVec 16) : (s.takeResponse w).taken = s.taken ++ [w] := rfl

/-! ### `acceptPrim` -/

@[simp] theorem acceptPrim_phase (p : Prim) : (s.acceptPrim p).phase = s.phase := rfl
@[simp] theorem acceptPrim_dsub (p : Prim) : (s.acceptPrim p).dsub = s.dsub := rfl
@[simp] theorem acceptPrim_sb (p : Prim) : (s.acceptPrim p).sb = s.sb := rfl
@[simp] theorem acceptPrim_br (p : Prim) : (s.acceptPrim p).br = s.br := rfl
@[simp] theorem acceptPrim_ci (p : Prim) : (s.acceptPrim p).ci = s.ci := rfl
@[simp] theorem acceptPrim_sc (p : Prim) : (s.acceptPrim p).sc = s.sc := rfl
@[simp] theorem acceptPrim_dx (p : Prim) : (s.acceptPrim p).dx = s.dx := rfl
@[simp] theorem acceptPrim_dy (p : Prim) : (s.acceptPrim p).dy = s.dy := rfl
@[simp] theorem acceptPrim_pi (p : Prim) : (s.acceptPrim p).pi = s.pi := rfl
@[simp] theorem acceptPrim_active (p : Prim) : (s.acceptPrim p).active = s.active := rfl
@[simp] theorem acceptPrim_err (p : Prim) : (s.acceptPrim p).err = s.err := rfl
@[simp] theorem acceptPrim_txt (p : Prim) : (s.acceptPrim p).txt = s.txt := rfl
@[simp] theorem acceptPrim_tlen (p : Prim) : (s.acceptPrim p).tlen = s.tlen := rfl
@[simp] theorem acceptPrim_pl (p : Prim) : (s.acceptPrim p).pl = s.pl := rfl
@[simp] theorem acceptPrim_plen (p : Prim) : (s.acceptPrim p).plen = s.plen := rfl
@[simp] theorem acceptPrim_cb (p : Prim) : (s.acceptPrim p).cb = s.cb := rfl
@[simp] theorem acceptPrim_drv (p : Prim) : (s.acceptPrim p).drv = s.drv := rfl
@[simp] theorem acceptPrim_rsp (p : Prim) : (s.acceptPrim p).rsp = s.rsp := rfl
@[simp] theorem acceptPrim_rst (p : Prim) : (s.acceptPrim p).rst = s.rst := rfl
@[simp] theorem acceptPrim_chip (p : Prim) : (s.acceptPrim p).chip = s.chip.accept p := rfl
@[simp] theorem acceptPrim_cmdIn (p : Prim) : (s.acceptPrim p).cmdIn = s.cmdIn := rfl
@[simp] theorem acceptPrim_trace (p : Prim) : (s.acceptPrim p).trace = s.trace ++ [p] := rfl
@[simp] theorem acceptPrim_taken (p : Prim) : (s.acceptPrim p).taken = s.taken := rfl

/-! ### `loadText` -/

@[simp] theorem loadText_phase (text : List Byte) : (s.loadText text).phase = s.phase := rfl
@[simp] theorem loadText_dsub (text : List Byte) : (s.loadText text).dsub = s.dsub := rfl
@[simp] theorem loadText_sb (text : List Byte) : (s.loadText text).sb = s.sb := rfl
@[simp] theorem loadText_br (text : List Byte) : (s.loadText text).br = s.br := rfl
@[simp] theorem loadText_ci (text : List Byte) : (s.loadText text).ci = s.ci := rfl
@[simp] theorem loadText_sc (text : List Byte) : (s.loadText text).sc = s.sc := rfl
@[simp] theorem loadText_dx (text : List Byte) : (s.loadText text).dx = s.dx := rfl
@[simp] theorem loadText_dy (text : List Byte) : (s.loadText text).dy = s.dy := rfl
@[simp] theorem loadText_pi (text : List Byte) : (s.loadText text).pi = s.pi := rfl
@[simp] theorem loadText_active (text : List Byte) : (s.loadText text).active = s.active := rfl
@[simp] theorem loadText_err (text : List Byte) : (s.loadText text).err = s.err := rfl
@[simp] theorem loadText_txt (text : List Byte) : (s.loadText text).txt = writeFrom 0 text s.txt := rfl
@[simp] theorem loadText_tlen (text : List Byte) : (s.loadText text).tlen = BitVec.ofNat 8 text.length := rfl
@[simp] theorem loadText_pl (text : List Byte) : (s.loadText text).pl = s.pl := rfl
@[simp] theorem loadText_plen (text : List Byte) : (s.loadText text).plen = s.plen := rfl
@[simp] theorem loadText_cb (text : List Byte) : (s.loadText text).cb = s.cb := rfl
@[simp] theorem loadText_drv (text : List Byte) : (s.loadText text).drv = s.drv := rfl
@[simp] theorem loadText_rsp (text : List Byte) : (s.loadText text).rsp = s.rsp := rfl
@[simp] theorem loadText_rst (text : List Byte) : (s.loadText text).rst = s.rst := rfl
@[simp] theorem loadText_chip (text : List Byte) : (s.loadText text).chip = s.chip := rfl
@[simp] theorem loadText_cmdIn (text : List Byte) : (s.loadText text).cmdIn = s.cmdIn := rfl
@[simp] theorem loadText_trace (text : List Byte) : (s.loadText text).trace = s.trace := rfl
@[simp] theorem loadText_taken (text : List Byte) : (s.loadText text).taken = s.taken := rfl

/-! ### `loadPixels` -/

@[simp] theorem loadPixels_phase (ts : List Triple) : (s.loadPixels ts).phase = s.phase := rfl
@[simp] theorem loadPixels_dsub (ts : List Triple) : (s.loadPixels ts).dsub = s.dsub := rfl
@[simp] theorem loadPixels_sb (ts : List Triple) : (s.loadPixels ts).sb = s.sb := rfl
@[simp] theorem loadPixels_br (ts : List Triple) : (s.loadPixels ts).br = s.br := rfl
@[simp] theorem loadPixels_ci (ts : List Triple) : (s.loadPixels ts).ci = s.ci := rfl
@[simp] theorem loadPixels_sc (ts : List Triple) : (s.loadPixels ts).sc = s.sc := rfl
@[simp] theorem loadPixels_dx (ts : List Triple) : (s.loadPixels ts).dx = s.dx := rfl
@[simp] theorem loadPixels_dy (ts : List Triple) : (s.loadPixels ts).dy = s.dy := rfl
@[simp] theorem loadPixels_pi (ts : List Triple) : (s.loadPixels ts).pi = s.pi := rfl
@[simp] theorem loadPixels_active (ts : List Triple) : (s.loadPixels ts).active = s.active := rfl
@[simp] theorem loadPixels_err (ts : List Triple) : (s.loadPixels ts).err = s.err := rfl
@[simp] theorem loadPixels_txt (ts : List Triple) : (s.loadPixels ts).txt = s.txt := rfl
@[simp] theorem loadPixels_tlen (ts : List Triple) : (s.loadPixels ts).tlen = s.tlen := rfl
@[simp] theorem loadPixels_pl (ts : List Triple) : (s.loadPixels ts).pl = writeFrom 0 ts s.pl := rfl
@[simp] theorem loadPixels_plen (ts : List Triple) : (s.loadPixels ts).plen = BitVec.ofNat 8 ts.length := rfl
@[simp] theorem loadPixels_cb (ts : List Triple) : (s.loadPixels ts).cb = s.cb := rfl
@[simp] theorem loadPixels_drv (ts : List Triple) : (s.loadPixels ts).drv = s.drv := rfl
@[simp] theorem loadPixels_rsp (ts : List Triple) : (s.loadPixels ts).rsp = s.rsp := rfl
@[simp] theorem loadPixels_rst (ts : List Triple) : (s.loadPixels ts).rst = s.rst := rfl
@[simp] theorem loadPixels_chip (ts : List Triple) : (s.loadPixels ts).chip = s.chip := rfl
@[simp] theorem loadPixels_cmdIn (ts : List Triple) : (s.loadPixels ts).cmdIn = s.cmdIn := rfl
@[simp] theorem loadPixels_trace (ts : List Triple) : (s.loadPixels ts).trace = s.trace := rfl
@[simp] theorem loadPixels_taken (ts : List Triple) : (s.loadPixels ts).taken = s.taken := rfl

/-! ### `loadBrightness` -/

@[simp] theorem loadBrightness_phase (b : BitVec 16) : (s.loadBrightness b).phase = s.phase := rfl
@[simp] theorem loadBrightness_dsub (b : BitVec 16) : (s.loadBrightness b).dsub = s.dsub := rfl
@[simp] theorem loadBrightness_sb (b : BitVec 16) : (s.loadBrightness b).sb = s.sb := rfl
@[simp] theorem loadBrightness_br (b : BitVec 16) : (s.loadBrightness b).br = clampBrightness b := rfl
@[simp] theorem loadBrightness_ci (b : BitVec 16) : (s.loadBrightness b).ci = s.ci := rfl
@[simp] theorem loadBrightness_sc (b : BitVec 16) : (s.loadBrightness b).sc = s.sc := rfl
@[simp] theorem loadBrightness_dx (b : BitVec 16) : (s.loadBrightness b).dx = s.dx := rfl
@[simp] theorem loadBrightness_dy (b : BitVec 16) : (s.loadBrightness b).dy = s.dy := rfl
@[simp] theorem loadBrightness_pi (b : BitVec 16) : (s.loadBrightness b).pi = s.pi := rfl
@[simp] theorem loadBrightness_active (b : BitVec 16) : (s.loadBrightness b).active = s.active := rfl
@[simp] theorem loadBrightness_err (b : BitVec 16) : (s.loadBrightness b).err = s.err := rfl
@[simp] theorem loadBrightness_txt (b : BitVec 16) : (s.loadBrightness b).txt = s.txt := rfl
@[simp] theorem loadBrightness_tlen (b : BitVec 16) : (s.loadBrightness b).tlen = s.tlen := rfl
@[simp] theorem loadBrightness_pl (b : BitVec 16) : (s.loadBrightness b).pl = s.pl := rfl
@[simp] theorem loadBrightness_plen (b : BitVec 16) : (s.loadBrightness b).plen = s.plen := rfl
@[simp] theorem loadBrightness_cb (b : BitVec 16) : (s.loadBrightness b).cb = s.cb := rfl
@[simp] theorem loadBrightness_drv (b : BitVec 16) : (s.loadBrightness b).drv = s.drv := rfl
@[simp] theorem loadBrightness_rsp (b : BitVec 16) : (s.loadBrightness b).rsp = s.rsp := rfl
@[simp] theorem loadBrightness_rst (b : BitVec 16) : (s.loadBrightness b).rst = s.rst := rfl
@[simp] theorem loadBrightness_chip (b : BitVec 16) : (s.loadBrightness b).chip = s.chip := rfl
@[simp] theorem loadBrightness_cmdIn (b : BitVec 16) : (s.loadBrightness b).cmdIn = s.cmdIn := rfl
@[simp] theorem loadBrightness_trace (b : BitVec 16) : (s.loadBrightness b).trace = s.trace := rfl
@[simp] theorem loadBrightness_taken (b : BitVec 16) : (s.loadBrightness b).taken = s.taken := rfl

/-! ### `loadBitmap` -/

@[simp] theorem loadBitmap_phase (b : BitVec 16) (masks : Vector Byte 17) : (s.loadBitmap b masks).phase = s.phase := rfl
@[simp] theorem loadBitmap_dsub (b : BitVec 16) (masks : Vector Byte 17) : (s.loadBitmap b masks).dsub = s.dsub := rfl
@[simp] theorem loadBitmap_sb (b : BitVec 16) (masks : Vector Byte 17) : (s.loadBitmap b masks).sb = bitmapOf masks := rfl
@[simp] theorem loadBitmap_br (b : BitVec 16) (masks : Vector Byte 17) : (s.loadBitmap b masks).br = clampBrightness b := rfl
@[simp] theorem loadBitmap_ci (b : BitVec 16) (masks : Vector Byte 17) : (s.loadBitmap b masks).ci = s.ci := rfl
@[simp] theorem loadBitmap_sc (b : BitVec 16) (masks : Vector Byte 17) : (s.loadBitmap b masks).sc = s.sc := rfl
@[simp] theorem loadBitmap_dx (b : BitVec 16) (masks : Vector Byte 17) : (s.loadBitmap b masks).dx = s.dx := rfl
@[simp] theorem loadBitmap_dy (b : BitVec 16) (masks : Vector Byte 17) : (s.loadBitmap b masks).dy = s.dy := rfl
@[simp] theorem loadBitmap_pi (b : BitVec 16) (masks : Vector Byte 17) : (s.loadBitmap b masks).pi = s.pi := rfl
@[simp] theorem loadBitmap_active (b : BitVec 16) (masks : Vector Byte 17) : (s.loadBitmap b masks).active = s.active := rfl
@[simp] theorem loadBitmap_err (b : BitVec 16) (masks : Vector Byte 17) : (s.loadBitmap b masks).err = s.err := rfl
@[simp] theorem loadBitmap_txt (b : BitVec 16) (masks : Vector Byte 17) : (s.loadBitmap b masks).txt = s.txt := rfl
@[simp] theorem loadBitmap_tlen (b : BitVec 16) (masks : Vector Byte 17) : (s.loadBitmap b masks).tlen = s.tlen := rfl
@[simp] theorem loadBitmap_pl (b : BitVec 16) (masks : Vector Byte 17) : (s.loadBitmap b masks).pl = s.pl := rfl
@[simp] theorem loadBitmap_plen (b : BitVec 16) (masks : Vector Byte 17) : (s.loadBitmap b masks).plen = s.plen := rfl
@[simp] theorem loadBitmap_cb (b : BitVec 16) (masks : Vector Byte 17) : (s.loadBitmap b masks).cb = s.cb := rfl
@[simp] theorem loadBitmap_drv (b : BitVec 16) (masks : Vector Byte 17) : (s.loadBitmap b masks).drv = s.drv := rfl
@[simp] theorem loadBitmap_rsp (b : BitVec 16) (masks : Vector Byte 17) : (s.loadBitmap b masks).rsp = s.rsp := rfl
@[simp] theorem loadBitmap_rst (b : BitVec 16) (masks : Vector Byte 17) : (s.loadBitmap b masks).rst = s.rst := rfl
@[simp] theorem loadBitmap_chip (b : BitVec 16) (masks : Vector Byte 17) : (s.loadBitmap b masks).chip = s.chip := rfl
@[simp] theorem loadBitmap_cmdIn (b : BitVec 16) (masks : Vector Byte 17) : (s.loadBitmap b masks).cmdIn = s.cmdIn := rfl
@[simp] theorem loadBitmap_trace (b : BitVec 16) (masks : Vector Byte 17) : (s.loadBitmap b masks).trace = s.trace := rfl
@[simp] theorem loadBitmap_taken (b : BitVec 16) (masks : Vector Byte 17) : (s.loadBitmap b masks).taken = s.taken := rfl

/-! ### `present` -/

@[simp] theorem present_phase (p : Prim) : (s.present p).phase = s.phase := rfl
@[simp] theorem present_dsub (p : Prim) : (s.present p).dsub = s.dsub := rfl
@[simp] theorem present_sb (p : Prim) : (s.present p).sb = s.sb := rfl
@[simp] theorem present_br (p : Prim) : (s.present p).br = s.br := rfl
@[simp] theorem present_ci (p : Prim) : (s.present p).ci = s.ci := rfl
@[simp] theorem present_sc (p : Prim) : (s.present p).sc = s.sc := rfl
@[simp] theorem present_dx (p : Prim) : (s.present p).dx = s.dx := rfl
@[simp] theorem present_dy (p : Prim) : (s.present p).dy = s.dy := rfl
@[simp] theorem present_pi (p : Prim) : (s.present p).pi = s.pi := rfl
@[simp] theorem present_active (p : Prim) : (s.present p).active = s.active := rfl
@[simp] theorem present_err (p : Prim) : (s.present p).err = s.err := rfl
@[simp] theorem present_txt (p : Prim) : (s.present p).txt = s.txt := rfl
@[simp] theorem present_tlen (p : Prim) : (s.present p).tlen = s.tlen := rfl
@[simp] theorem present_pl (p : Prim) : (s.present p).pl = s.pl := rfl
@[simp] theorem present_plen (p : Prim) : (s.present p).plen = s.plen := rfl
@[simp] theorem present_cb (p : Prim) : (s.present p).cb = s.cb := rfl
@[simp] theorem present_drv (p : Prim) : (s.present p).drv = some p.word := rfl
@[simp] theorem present_rsp (p : Prim) : (s.present p).rsp = s.rsp := rfl
@[simp] theorem present_rst (p : Prim) : (s.present p).rst = s.rst := rfl
@[simp] theorem present_chip (p : Prim) : (s.present p).chip = s.chip := rfl
@[simp] theorem present_cmdIn (p : Prim) : (s.present p).cmdIn = s.cmdIn := rfl
@[simp] theorem present_trace (p : Prim) : (s.present p).trace = s.trace := rfl
@[simp] theorem present_taken (p : Prim) : (s.present p).taken = s.taken := rfl

/-! ### `fillStatic` -/

@[simp] theorem fillStatic_phase (font : Font) : (State.fillStatic font s).phase = s.phase := rfl
@[simp] theorem fillStatic_dsub (font : Font) : (State.fillStatic font s).dsub = s.dsub := rfl
@[simp] theorem fillStatic_sb (font : Font) : (State.fillStatic font s).sb = staticBitmap font s.txtAt := rfl
@[simp] theorem fillStatic_br (font : Font) : (State.fillStatic font s).br = s.br := rfl
@[simp] theorem fillStatic_ci (font : Font) : (State.fillStatic font s).ci = s.ci := rfl
@[simp] theorem fillStatic_sc (font : Font) : (State.fillStatic font s).sc = s.sc := rfl
@[simp] theorem fillStatic_dx (font : Font) : (State.fillStatic font s).dx = s.dx := rfl
@[simp] theorem fillStatic_dy (font : Font) : (State.fillStatic font s).dy = s.dy := rfl
@[simp] theorem fillStatic_pi (font : Font) : (State.fillStatic font s).pi = s.pi := rfl
@[simp] theorem fillStatic_active (font : Font) : (State.fillStatic font s).active = s.active := rfl
@[simp] theorem fillStatic_err (font : Font) : (State.fillStatic font s).err = s.err := rfl
@[simp] theorem fillStatic_txt (font : Font) : (State.fillStatic font s).txt = s.txt := rfl
@[simp] theorem fillStatic_tlen (font : Font) : (State.fillStatic font s).tlen = s.tlen := rfl
@[simp] theorem fillStatic_pl (font : Font) : (State.fillStatic font s).pl = s.pl := rfl
@[simp] theorem fillStatic_plen (font : Font) : (State.fillStatic font s).plen = s.plen := rfl
@[simp] theorem fillStatic_cb (font : Font) : (State.fillStatic font s).cb = s.cb := rfl
@[simp] theorem fillStatic_drv (font : Font) : (State.fillStatic font s).drv = s.drv := rfl
@[simp] theorem fillStatic_rsp (font : Font) : (State.fillStatic font s).rsp = s.rsp := rfl
@[simp] theorem fillStatic_rst (font : Font) : (State.fillStatic font s).rst = s.rst := rfl
@[simp] theorem fillStatic_chip (font : Font) : (State.fillStatic font s).chip = s.chip := rfl
@[simp] theorem fillStatic_cmdIn (font : Font) : (State.fillStatic font s).cmdIn = s.cmdIn := rfl
@[simp] theorem fillStatic_trace (font : Font) : (State.fillStatic font s).trace = s.trace := rfl
@[simp] theorem fillStatic_taken (font : Font) : (State.fillStatic font s).taken = s.taken := rfl

/-! ### `startMarquee` -/

@[simp] theorem startMarquee_phase : (s.startMarquee).phase = s.phase := rfl
@[simp] theorem startMarquee_dsub : (s.startMarquee).dsub = s.dsub := rfl
@[simp] theorem startMarquee_sb : (s.startMarquee).sb = Vector.replicate 17 0 := rfl
@[simp] theorem startMarquee_br : (s.startMarquee).br = s.br := rfl
@[simp] theorem startMarquee_ci : (s.startMarquee).ci = 0 := rfl
@[simp] theorem startMarquee_sc : (s.startMarquee).sc = 0 := rfl
@[simp] theorem startMarquee_dx : (s.startMarquee).dx = s.dx := rfl
@[simp] theorem startMarquee_dy : (s.startMarquee).dy = s.dy := rfl
@[simp] theorem startMarquee_pi : (s.startMarquee).pi = s.pi := rfl
@[simp] theorem startMarquee_active : (s.startMarquee).active = s.active := rfl
@[simp] theorem startMarquee_err : (s.startMarquee).err = s.err := rfl
@[simp] theorem startMarquee_txt : (s.startMarquee).txt = s.txt := rfl
@[simp] theorem startMarquee_tlen : (s.startMarquee).tlen = s.tlen := rfl
@[simp] theorem startMarquee_pl : (s.startMarquee).pl = s.pl := rfl
@[simp] theorem startMarquee_plen : (s.startMarquee).plen = s.plen := rfl
@[simp] theorem startMarquee_cb : (s.startMarquee).cb = s.cb := rfl
@[simp] theorem startMarquee_drv : (s.startMarquee).drv = s.drv := rfl
@[simp] theorem startMarquee_rsp : (s.startMarquee).rsp = s.rsp := rfl
@[simp] theorem startMarquee_rst : (s.startMarquee).rst = s.rst := rfl
@[simp] theorem startMarquee_chip : (s.startMarquee).chip = s.chip := rfl
@[simp] theorem startMarquee_cmdIn : (s.startMarquee).cmdIn = s.cmdIn := rfl
@[simp] theorem startMarquee_trace : (s.startMarquee).trace = s.trace := rfl
@[simp] theorem startMarquee_taken : (s.startMarquee).taken = s.taken := rfl

/-! ### `shiftIn` -/

@[simp] theorem shiftIn_phase (font : Font) : (State.shiftIn font s).phase = s.phase := rfl
@[simp] theorem shiftIn_dsub (font : Font) : (State.shiftIn font s).dsub = s.dsub := rfl
@[simp] theorem shiftIn_sb (font : Font) : (State.shiftIn font s).sb = shiftLeft s.sb (charColumn font (s.txtAt s.ci.toNat) s.sc) := rfl
@[simp] theorem shiftIn_br (font : Font) : (State.shiftIn font s).br = s.br := rfl
@[simp] theorem shiftIn_ci (font : Font) : (State.shiftIn font s).ci = s.ci := rfl
@[simp] theorem shiftIn_sc (font : Font) : (State.shiftIn font s).sc = s.sc := rfl
@[simp] theorem shiftIn_dx (font : Font) : (State.shiftIn font s).dx = s.dx := rfl
@[simp] theorem shiftIn_dy (font : Font) : (State.shiftIn font s).dy = s.dy := rfl
@[simp] theorem shiftIn_pi (font : Font) : (State.shiftIn font s).pi = s.pi := rfl
@[simp] theorem shiftIn_active (font : Font) : (State.shiftIn font s).active = s.active := rfl
@[simp] theorem shiftIn_err (font : Font) : (State.shiftIn font s).err = s.err := rfl
@[simp] theorem shiftIn_txt (font : Font) : (State.shiftIn font s).txt = s.txt := rfl
@[simp] theorem shiftIn_tlen (font : Font) : (State.shiftIn font s).tlen = s.tlen := rfl
@[simp] theorem shiftIn_pl (font : Font) : (State.shiftIn font s).pl = s.pl := rfl
@[simp] theorem shiftIn_plen (font : Font) : (State.shiftIn font s).plen = s.plen := rfl
@[simp] theorem shiftIn_cb (font : Font) : (State.shiftIn font s).cb = s.cb := rfl
@[simp] theorem shiftIn_drv (font : Font) : (State.shiftIn font s).drv = s.drv := rfl
@[simp] theorem shiftIn_rsp (font : Font) : (State.shiftIn font s).rsp = s.rsp := rfl
@[simp] theorem shiftIn_rst (font : Font) : (State.shiftIn font s).rst = s.rst := rfl
@[simp] theorem shiftIn_chip (font : Font) : (State.shiftIn font s).chip = s.chip := rfl
@[simp] theorem shiftIn_cmdIn (font : Font) : (State.shiftIn font s).cmdIn = s.cmdIn := rfl
@[simp] theorem shiftIn_trace (font : Font) : (State.shiftIn font s).trace = s.trace := rfl
@[simp] theorem shiftIn_taken (font : Font) : (State.shiftIn font s).taken = s.taken := rfl

/-! ### `advanceCursor` -/

@[simp] theorem advanceCursor_phase : (s.advanceCursor).phase = s.phase := rfl
@[simp] theorem advanceCursor_dsub : (s.advanceCursor).dsub = s.dsub := rfl
@[simp] theorem advanceCursor_sb : (s.advanceCursor).sb = s.sb := rfl
@[simp] theorem advanceCursor_br : (s.advanceCursor).br = s.br := rfl
@[simp] theorem advanceCursor_ci : (s.advanceCursor).ci = if s.sc.val < 5 then s.ci else s.ci + 1 := rfl
@[simp] theorem advanceCursor_sc : (s.advanceCursor).sc = if s.sc.val < 5 then s.sc + 1 else 0 := rfl
@[simp] theorem advanceCursor_dx : (s.advanceCursor).dx = s.dx := rfl
@[simp] theorem advanceCursor_dy : (s.advanceCursor).dy = s.dy := rfl
@[simp] theorem advanceCursor_pi : (s.advanceCursor).pi = s.pi := rfl
@[simp] theorem advanceCursor_active : (s.advanceCursor).active = s.active := rfl
@[simp] theorem advanceCursor_err : (s.advanceCursor).err = s.err := rfl
@[simp] theorem advanceCursor_txt : (s.advanceCursor).txt = s.txt := rfl
@[simp] theorem advanceCursor_tlen : (s.advanceCursor).tlen = s.tlen := rfl
@[simp] theorem advanceCursor_pl : (s.advanceCursor).pl = s.pl := rfl
@[simp] theorem advanceCursor_plen : (s.advanceCursor).plen = s.plen := rfl
@[simp] theorem advanceCursor_cb : (s.advanceCursor).cb = s.cb := rfl
@[simp] theorem advanceCursor_drv : (s.advanceCursor).drv = s.drv := rfl
@[simp] theorem advanceCursor_rsp : (s.advanceCursor).rsp = s.rsp := rfl
@[simp] theorem advanceCursor_rst : (s.advanceCursor).rst = s.rst := rfl
@[simp] theorem advanceCursor_chip : (s.advanceCursor).chip = s.chip := rfl
@[simp] theorem advanceCursor_cmdIn : (s.advanceCursor).cmdIn = s.cmdIn := rfl
@[simp] theorem advanceCursor_trace : (s.advanceCursor).trace = s.trace := rfl
@[simp] theorem advanceCursor_taken : (s.advanceCursor).taken = s.taken := rfl

end Sys2Proof.Machine
end

