-- ==== Sys2Proof/Laws/Draw.lean ====
section
/-! SUPPORT. The mapper's images, a sequence of accepted primitives, and what one draw leaves in the frame memory. -/

namespace Sys2Proof.Machine

/-! ## The mapper -/

theorem otherFrame_ne (f : FrameId) : otherFrame f ≠ f := by revert f; decide
@[simp] theorem otherFrame_otherFrame (f : FrameId) : otherFrame (otherFrame f) = f := by revert f; decide
theorem eq_or_other (f g : FrameId) : f = g ∨ f = otherFrame g := by revert f g; decide

/-- The physical column and row of a physical index make up the index (R84, R123). -/
theorem physIndex_extract (idx : Byte) : physIndex (idx.extractLsb' 4 4) (idx.extractLsb' 0 4) = idx.toNat := by
  unfold physIndex
  have := idx.isLt
  simp only [BitVec.extractLsb'_toNat, Nat.shiftRight_eq_div_pow]
  omega

theorem physIndex_pixel_lt (x : PanelX) (y : PanelY) :
    physIndex ((mapIndex x y).extractLsb' 4 4) ((mapIndex x y).extractLsb' 0 4) < 144 := by
  rw [physIndex_extract]; exact mapIndex_lt x y

theorem pixelCell_inj : ∀ {x x' : PanelX} {y y' : PanelY}, pixelCell x y = pixelCell x' y' → x = x' ∧ y = y' := by
  have h : ∀ x y, unmap (mapIndex x y) = some (x, y) := by decide
  intro x x' y y' e
  have e' : mapIndex x y = mapIndex x' y' := BitVec.eq_of_toNat_eq (by simpa [pixelCell] using e)
  have := (h x y).symm.trans ((congrArg unmap e').trans (h x' y'))
  simpa using this

/-- Accepting the SET_PIXEL of a logical pixel writes its cell of the target frame. -/
theorem cell_accept_pixelPrim (c : Chip) (x : PanelX) (y : PanelY) (b : Byte) (f : FrameId) (idx : Fin 144) :
    (c.accept (pixelPrim x y b)).cell f idx = if f = c.target ∧ idx = pixelCell x y then b else c.cell f idx := by
  unfold pixelPrim
  rw [cell_accept_setPixel c _ _ b f idx (physIndex_pixel_lt x y), physIndex_extract]
  simp only [pixelCell, Fin.ext_iff]

@[simp] theorem accept_pixelPrim_target (c : Chip) (x : PanelX) (y : PanelY) (b : Byte) :
    (c.accept (pixelPrim x y b)).target = c.target := accept_setPixel_target ..
@[simp] theorem accept_pixelPrim_visible (c : Chip) (x : PanelX) (y : PanelY) (b : Byte) :
    (c.accept (pixelPrim x y b)).visible = c.visible := accept_setPixel_visible ..

/-! ## Sequences of primitives -/

@[simp] theorem acceptAll_nil (s : State) : s.acceptAll [] = s := rfl
@[simp] theorem acceptAll_cons (s : State) (p : Prim) (ps : List Prim) :
    s.acceptAll (p :: ps) = (s.acceptPrim p).acceptAll ps := rfl

/-- Accepting a sequence changes the collaborator and the trace, and nothing else. -/
theorem acceptAll_eq (ps : List Prim) (s : State) :
    s.acceptAll ps = { s with chip := ps.foldl Chip.accept s.chip, trace := s.trace ++ ps } := by
  induction ps generalizing s with
  | nil => simp
  | cons p ps ih => rw [acceptAll_cons, ih]; simp [State.acceptPrim]

/-- One draw: the collaborator takes its primitives, the drawn frame is the active one, the iterators are discarded. -/
theorem drawWith_eq (s : State) (pixels : List Prim) :
    s.drawWith pixels =
      { s with
        chip := (drawPrims (otherFrame s.active) pixels).foldl Chip.accept s.chip
        trace := s.trace ++ drawPrims (otherFrame s.active) pixels
        active := otherFrame s.active, dx := 0, dy := 0, pi := 0 } := by
  unfold State.drawWith; rw [acceptAll_eq]

/-! ## A list of pixels -/

/-- A logical pixel and the brightness it is set to. -/
structure PixelWrite where
  x : PanelX
  y : PanelY
  b : Byte

/-- The primitive of a pixel write. -/
def PixelWrite.prim (p : PixelWrite) : Prim := pixelPrim p.x p.y p.b

/-- The brightness a list of pixel writes leaves in a cell: the last write to it wins (R181). -/
def lastWrite (idx : Fin 144) (old : Byte) : List PixelWrite → Byte
  | [] => old
  | p :: ps => lastWrite idx (if idx = pixelCell p.x p.y then p.b else old) ps

theorem foldl_pixels_target (ps : List PixelWrite) (c : Chip) :
    ((ps.map PixelWrite.prim).foldl Chip.accept c).target = c.target := by
  induction ps generalizing c with
  | nil => rfl
  | cons p ps ih => simp [ih, PixelWrite.prim]

theorem foldl_pixels_visible (ps : List PixelWrite) (c : Chip) :
    ((ps.map PixelWrite.prim).foldl Chip.accept c).visible = c.visible := by
  induction ps generalizing c with
  | nil => rfl
  | cons p ps ih => simp [ih, PixelWrite.prim]

/-- Pixel writes change the target frame only, each cell to the last write to it. -/
theorem cell_foldl_pixels (ps : List PixelWrite) (c : Chip) (f : FrameId) (idx : Fin 144) :
    ((ps.map PixelWrite.prim).foldl Chip.accept c).cell f idx =
      if f = c.target then lastWrite idx (c.cell f idx) ps else c.cell f idx := by
  induction ps generalizing c with
  | nil => simp [lastWrite]
  | cons p ps ih =>
    rw [List.map_cons, List.foldl_cons, ih]
    simp only [PixelWrite.prim, accept_pixelPrim_target, cell_accept_pixelPrim, lastWrite]
    by_cases h : f = c.target
    · simp [h]
    · simp [h]

/-! ## One draw -/

theorem foldl_drawPrims (t : FrameId) (ps : List PixelWrite) (c : Chip) :
    (drawPrims t (ps.map PixelWrite.prim)).foldl Chip.accept c =
      ((ps.map PixelWrite.prim).foldl Chip.accept ((c.accept (.selectFrame t false)).accept .clearFrame)).accept
        (.selectFrame t true) := by
  simp [drawPrims, List.foldl_append]

/-- After a draw into frame `t` the collaborator aims at it and shows it. -/
theorem drawn_target (t : FrameId) (ps : List PixelWrite) (c : Chip) :
    ((drawPrims t (ps.map PixelWrite.prim)).foldl Chip.accept c).target = t := by
  rw [foldl_drawPrims]; rfl

theorem drawn_visible (t : FrameId) (ps : List PixelWrite) (c : Chip) :
    ((drawPrims t (ps.map PixelWrite.prim)).foldl Chip.accept c).visible = t := by
  rw [foldl_drawPrims]; rfl

/-- After a draw into frame `t` each of its cells holds the last write to it, or 0; the other frame is as before
(R140, R181). -/
theorem drawn_cell (t : FrameId) (ps : List PixelWrite) (c : Chip) (f : FrameId) (idx : Fin 144) :
    ((drawPrims t (ps.map PixelWrite.prim)).foldl Chip.accept c).cell f idx =
      if f = t then lastWrite idx 0 ps else c.cell f idx := by
  rw [foldl_drawPrims, cell_accept_selectFrame, cell_foldl_pixels]
  simp only [accept_clearFrame_target, accept_selectFrame_target, cell_accept_clearFrame, cell_accept_selectFrame]
  by_cases h : f = t
  · simp [h]
  · simp [h]

/-- The pixel writes of a bitmap draw. -/
def bitmapWrites (m : Bitmap) (b : Byte) : List PixelWrite :=
  (panelPoints.filter fun p => lit m p.1 p.2).map fun p => ⟨p.1, p.2, b⟩

theorem bitmapPixels_eq (m : Bitmap) (b : Byte) : bitmapPixels m b = (bitmapWrites m b).map PixelWrite.prim := by
  simp [bitmapPixels, bitmapWrites, PixelWrite.prim, Function.comp_def]

theorem mem_panelPoints (x : PanelX) (y : PanelY) : (x, y) ∈ panelPoints := by
  simp [panelPoints]

/-- The last write of a list whose writes all have one brightness. -/
theorem lastWrite_const {ps : List PixelWrite} {b : Byte} (h : ∀ p ∈ ps, p.b = b) (idx : Fin 144) (old : Byte) :
    lastWrite idx old ps = if ∃ p ∈ ps, idx = pixelCell p.x p.y then b else old := by
  induction ps generalizing old with
  | nil => simp [lastWrite]
  | cons p ps ih =>
    have hp := h p (by simp)
    have ih := ih (fun q hq => h q (by simp [hq]))
    rw [lastWrite, ih, hp]
    by_cases h1 : ∃ q ∈ ps, idx = pixelCell q.x q.y
    · rw [if_pos h1, if_pos (by obtain ⟨q, hq, e⟩ := h1; exact ⟨q, .tail _ hq, e⟩)]
    · by_cases h3 : idx = pixelCell p.x p.y
      · rw [if_neg h1, if_pos h3, if_pos ⟨p, .head _, h3⟩]
      · rw [if_neg h1, if_neg h3, if_neg]
        rintro ⟨q, hq, e⟩
        rcases List.mem_cons.1 hq with rfl | hq
        · exact h3 e
        · exact h1 ⟨q, hq, e⟩

/-- A bitmap draw leaves its brightness at the lit pixels (R140). -/
theorem lastWrite_bitmap_pixel (m : Bitmap) (b : Byte) (x : PanelX) (y : PanelY) :
    lastWrite (pixelCell x y) 0 (bitmapWrites m b) = if lit m x y then b else 0 := by
  have hb : ∀ p ∈ bitmapWrites m b, p.b = b := by
    intro p hp
    obtain ⟨q, -, rfl⟩ := List.mem_map.1 hp
    rfl
  rw [lastWrite_const hb]
  refine if_congr ?_ rfl rfl
  constructor
  · rintro ⟨p, hp, e⟩
    obtain ⟨h1, h2⟩ := pixelCell_inj e
    simp only [bitmapWrites, List.mem_map, List.mem_filter] at hp
    obtain ⟨q, ⟨-, hq⟩, rfl⟩ := hp
    simpa [h1, h2] using hq
  · intro h
    exact ⟨⟨x, y, b⟩, by simp [bitmapWrites, mem_panelPoints, h], rfl⟩

/-- A list of pixel writes leaves a cell that is the image of no pixel at its old value. -/
theorem lastWrite_unused {idx : Fin 144} (h : ∀ x y, idx ≠ pixelCell x y) (old : Byte) (ps : List PixelWrite) :
    lastWrite idx old ps = old := by
  induction ps generalizing old with
  | nil => rfl
  | cons p ps ih => simp [lastWrite, h p.x p.y, ih]

end Sys2Proof.Machine
end

