-- ==== Sys2Proof/Laws/Text.lean ====
section
/-! SUPPORT. The text and pixel-list buffers: what is loaded is what is read back; normalisation and the character
check. -/

namespace Sys2Proof.Machine

/-- Reading after writing a list from entry `k` on. -/
theorem getElem_writeFrom {α : Type} {n : Nat} (l : List α) (k : Nat) (v : Vector α n) (i : Nat) (hi : i < n) :
    (writeFrom k l v)[i] = if h : k ≤ i ∧ i < k + l.length then l[i - k]'(by omega) else v[i] := by
  induction l generalizing k v with
  | nil =>
    rw [dif_neg (by simp)]
    rfl
  | cons a l ih =>
    rw [writeFrom, ih]
    simp only [List.length_cons, Vector.getElem_setIfInBounds]
    by_cases h1 : k = i
    · subst h1
      simp
    · by_cases h2 : k + 1 ≤ i ∧ i < k + 1 + l.length
      · rw [dif_pos h2, dif_pos (by omega)]
        have : i - k = (i - (k + 1)) + 1 := by omega
        simp [this]
      · rw [dif_neg h2, dif_neg (by omega), if_neg h1]

/-- A list written to the front of a buffer is its front. -/
theorem take_writeFrom {α : Type} {n : Nat} (l : List α) (v : Vector α n) (h : l.length ≤ n) :
    (writeFrom 0 l v).toList.take l.length = l := by
  apply List.ext_getElem
  · simp [h]
  · intro i h1 h2
    rw [List.getElem_take, Vector.getElem_toList, getElem_writeFrom, dif_pos (by omega)]
    simp

/-- Loading the front of a buffer twice is loading it once with the second list, when that one is no shorter. -/
theorem writeFrom_writeFrom {α : Type} {n : Nat} (l m : List α) (v : Vector α n) (h : l.length ≤ m.length) :
    writeFrom 0 m (writeFrom 0 l v) = writeFrom 0 m v := by
  apply Vector.ext
  intro i hi
  simp only [getElem_writeFrom]
  split
  · rfl
  · rw [dif_neg (by omega)]

/-- The text read back is the text loaded. -/
theorem text_loadText (s : State) (text : List Byte) (h : text.length ≤ 255) : (s.loadText text).text = text := by
  unfold State.text
  rw [loadText_txt, loadText_tlen, BitVec.toNat_ofNat, Nat.mod_eq_of_lt (by omega)]
  exact take_writeFrom text s.txt h

/-- The pixel list read back is the pixel list loaded. -/
theorem pixelList_loadPixels (s : State) (ts : List Triple) (h : ts.length ≤ 255) :
    (s.loadPixels ts).pixelList = ts := by
  unfold State.pixelList
  rw [loadPixels_pl, loadPixels_plen, BitVec.toNat_ofNat, Nat.mod_eq_of_lt (by omega)]
  exact take_writeFrom ts s.pl h

theorem text_length (s : State) : s.text.length = s.tlen.toNat := by
  have := s.tlen.isLt
  simp only [State.text, List.length_take, Vector.length_toList]
  omega

theorem pixelList_length (s : State) : s.pixelList.length = s.plen.toNat := by
  have := s.plen.isLt
  simp only [State.pixelList, List.length_take, Vector.length_toList]
  omega

/-- A character inside the text is an entry of `TXT`. -/
theorem txtAt_eq (s : State) (i : Nat) (h : i < s.tlen.toNat) : s.txtAt i = s.text.getD i 0 := by
  have := s.tlen.isLt
  unfold State.txtAt State.text
  rw [List.getD_eq_getElem?_getD, List.getD_eq_getElem?_getD, List.getElem?_take_of_lt h]

/-! ## Normalisation (R151) -/

theorem normalise_length (text : List Byte) :
    (normalise text).length =
      if 1 ≤ text.length ∧ text.length ≤ 3 then 3 else max text.length 4 := by
  unfold normalise
  split
  · next h => simp [h]
  · next h => simp [h]
  · next h => simp [h]
  · next h1 h2 h3 =>
    have h1' : text.length ≠ 1 := h1
    have h2' : text.length ≠ 2 := h2
    have h3' : text.length ≠ 3 := h3
    rw [if_neg (by omega), List.length_append, List.length_replicate]
    omega

theorem normalise_ge (text : List Byte) : text.length ≤ (normalise text).length := by
  rw [normalise_length]; split <;> omega

theorem normalise_le (text : List Byte) (h : text.length ≤ 255) : (normalise text).length ≤ 255 := by
  rw [normalise_length]; split <;> omega

/-- Normalisation is done once: a normalised text is normal. -/
theorem normalise_of_normal (text : List Byte) (h : 3 ≤ text.length) : normalise text = text := by
  unfold normalise
  split
  · omega
  · omega
  · rfl
  · have h0 : 4 - text.length = 0 := by
      have : text.length ≠ 3 := by assumption
      omega
    rw [h0]; simp

/-- Normalising a loaded text is loading the normalised text. -/
theorem normaliseText_loadText (s : State) (text : List Byte) (h : text.length ≤ 255) :
    (s.loadText text).normaliseText = s.loadText (normalise text) := by
  unfold State.normaliseText
  rw [text_loadText s text h]
  simp only [State.loadText]
  rw [writeFrom_writeFrom _ _ _ (normalise_ge text)]

/-! ## The checks name the first offender (R153, R182, R208) -/

theorem firstUnrenderable_none {k : Nat} {text : List Byte} :
    firstUnrenderable k text = none ↔ ∀ c ∈ text, (glyphOf? c).isSome := by
  induction text generalizing k with
  | nil => simp [firstUnrenderable]
  | cons c cs ih =>
    unfold firstUnrenderable
    split <;> simp_all

theorem firstUnrenderable_some {k i : Nat} {text : List Byte} (h : firstUnrenderable k text = some i) :
    ∃ j, i = k + j ∧ ∃ hj : j < text.length, glyphOf? text[j] = none ∧
      ∀ m, (hm : m < j) → (glyphOf? (text[m]'(by omega))).isSome := by
  induction text generalizing k with
  | nil => simp [firstUnrenderable] at h
  | cons c cs ih =>
    unfold firstUnrenderable at h
    split at h
    · next hc =>
      obtain ⟨j, rfl, hj, hbad, hok⟩ := ih h
      refine ⟨j + 1, by omega, by simpa using hj, by simpa using hbad, ?_⟩
      intro m hm
      cases m with
      | zero => simpa using hc
      | succ m => simpa using hok m (by omega)
    · next hc =>
      simp only [Option.some.injEq] at h
      exact ⟨0, by omega, by simp, by simpa using hc, by simp⟩

theorem firstOffPanel_none {k : Nat} {ts : List Triple} :
    firstOffPanel k ts = none ↔ ∀ t ∈ ts, (panelPoint? t.x t.y).isSome := by
  induction ts generalizing k with
  | nil => simp [firstOffPanel]
  | cons t ts ih =>
    unfold firstOffPanel
    split <;> simp_all

end Sys2Proof.Machine
end

