-- ==== Sys2Proof/Laws/Exec.lean ====
section
/-! SUPPORT. What the operands of a command amount to, what its checks find, and what its meaning answers: one equation
for each command, over the shared operations. -/

namespace Sys2Proof.Machine

/-! ## Operands and the response word -/

theorem panelPoint?_of_le {x y : Byte} (hx : x.toNat ≤ 16) (hy : y.toNat ≤ 6) :
    panelPoint? x y = some (⟨x.toNat, by omega⟩, ⟨y.toNat, by omega⟩) := by
  simp [panelPoint?, hx, hy]

theorem panelPoint?_isSome {x y : Byte} : (panelPoint? x y).isSome ↔ x.toNat ≤ 16 ∧ y.toNat ≤ 6 := by
  unfold panelPoint?; split <;> simp_all

theorem glyphOf?_isSome {c : Byte} : (glyphOf? c).isSome ↔ 32 ≤ c.toNat ∧ c.toNat ≤ 126 := by
  unfold glyphOf?; split <;> simp_all

theorem lit_bitmapOf (masks : Vector Byte 17) (x : PanelX) (y : PanelY) :
    lit (bitmapOf masks) x y = masks[x].getLsbD y.val := by
  have := y.isLt
  simp [lit, bitmapOf, columnMask]

/-- The response word as a number: the code, then the data (R86). -/
theorem responseWord_eq (code : BitVec 4) (data : Byte) :
    responseWord code data = BitVec.ofNat 16 (code.toNat * 256 + data.toNat) := by
  revert code data; decide

theorem responseWord_ofNat (code : BitVec 4) {j : Nat} (h : j ≤ 255) :
    responseWord code (BitVec.ofNat 8 j) = BitVec.ofNat 16 (code.toNat * 256 + j) := by
  rw [responseWord_eq, BitVec.toNat_ofNat, Nat.mod_eq_of_lt (by omega)]

/-- Loading the front of a buffer leaves the rest of it. -/
theorem drop_writeFrom {α : Type} {n : Nat} (l : List α) (v : Vector α n) :
    (writeFrom 0 l v).toList.drop l.length = v.toList.drop l.length := by
  apply List.ext_getElem
  · simp
  · intro i h1 h2
    simp only [List.getElem_drop, Vector.getElem_toList]
    rw [getElem_writeFrom, dif_neg (by omega)]

/-! ## The mapper's primitive, by its closed forms -/

theorem pixelPrim_eq (x : PanelX) (y : PanelY) (b : Byte) :
    pixelPrim x y b =
      .setPixel (BitVec.ofNat 4 (if 8 < x.val then 17 - x.val else x.val))
        (BitVec.ofNat 4 (if 8 < x.val then y.val + 8 else 7 - y.val)) b := by
  have h : ∀ (x : PanelX) (y : PanelY),
      (mapIndex x y).extractLsb' 4 4 = BitVec.ofNat 4 (if 8 < x.val then 17 - x.val else x.val) ∧
      (mapIndex x y).extractLsb' 0 4 = BitVec.ofNat 4 (if 8 < x.val then y.val + 8 else 7 - y.val) := by decide
  unfold pixelPrim
  rw [(h x y).1, (h x y).2]

/-! ## One draw of a bitmap -/

/-- The primitives of one bitmap draw, written out (R136, R138). -/
theorem drawPrims_bitmap (t : FrameId) (m : Bitmap) (b : Byte) :
    drawPrims t (bitmapPixels m b) = drawSequence t (fun x y => m[x].getLsbD y.val) b := by
  unfold drawPrims drawSequence
  congr 2
  simp only [bitmapPixels, panelPoints, List.filter_flatMap, List.map_flatMap, List.filter_map, List.map_map,
    Function.comp_def, lit, pixelPrim_eq]

theorem drawn_pixel (t : FrameId) (m : Bitmap) (b : Byte) (c : Chip) (x : PanelX) (y : PanelY) :
    ((drawPrims t (bitmapPixels m b)).foldl Chip.accept c).pixel t x y = if lit m x y then b else 0 := by
  rw [bitmapPixels_eq]
  unfold Chip.pixel
  rw [drawn_cell, if_pos rfl, lastWrite_bitmap_pixel]

theorem drawn_unused (t : FrameId) (m : Bitmap) (b : Byte) (c : Chip) {idx : Fin 144}
    (h : ∀ x y, idx ≠ pixelCell x y) : ((drawPrims t (bitmapPixels m b)).foldl Chip.accept c).cell t idx = 0 := by
  rw [bitmapPixels_eq, drawn_cell, if_pos rfl, lastWrite_unused h]

theorem drawn_other {t f : FrameId} (m : Bitmap) (b : Byte) (c : Chip) (idx : Fin 144) (h : f ≠ t) :
    ((drawPrims t (bitmapPixels m b)).foldl Chip.accept c).cell f idx = c.cell f idx := by
  rw [bitmapPixels_eq, drawn_cell, if_neg h]

theorem flips_append (a b : List Prim) : flips (a ++ b) = flips a + flips b := by simp [flips]

theorem flips_pixels (ps : List PixelWrite) : flips (ps.map PixelWrite.prim) = 0 := by
  induction ps with
  | nil => rfl
  | cons p ps ih => exact ih

/-- One draw flips once (R141). -/
theorem flips_drawPrims (t : FrameId) (ps : List PixelWrite) : flips (drawPrims t (ps.map PixelWrite.prim)) = 1 := by
  unfold drawPrims
  rw [flips_append, flips_append, flips_pixels]
  rfl

/-! ## The pixel writes of a list of triples -/

/-- The pixel write of a triple, none off the panel. -/
def tripleWrite (t : Triple) : Option PixelWrite :=
  match panelPoint? t.x t.y with
  | some (x, y) => some ⟨x, y, scale t.i⟩
  | none => none

theorem triplePixel_eq (t : Triple) : triplePixel t = (tripleWrite t).map PixelWrite.prim := by
  unfold triplePixel tripleWrite
  cases panelPoint? t.x t.y <;> rfl

theorem filterMap_triplePixel (ts : List Triple) :
    ts.filterMap triplePixel = (ts.filterMap tripleWrite).map PixelWrite.prim := by
  rw [List.map_filterMap]
  congr 1
  funext t
  exact triplePixel_eq t

/-- The SET_PIXEL primitives of a pixel list that is on the panel, written out (R179, R181). -/
theorem map_tripleWrites {ts : List Triple} (h : ∀ t ∈ ts, (panelPoint? t.x t.y).isSome) :
    (ts.filterMap tripleWrite).map PixelWrite.prim = ts.map fun t => Prim.setPixel
      (BitVec.ofNat 4 (if 8 < t.x.toNat then 17 - t.x.toNat else t.x.toNat))
      (BitVec.ofNat 4 (if 8 < t.x.toNat then t.y.toNat + 8 else 7 - t.y.toNat)) (scale t.i) := by
  induction ts with
  | nil => rfl
  | cons t ts ih =>
    have h1 := panelPoint?_isSome.1 (h t (by simp))
    rw [List.filterMap_cons_some (b := ⟨⟨t.x.toNat, by omega⟩, ⟨t.y.toNat, by omega⟩, scale t.i⟩)
      (by simp [tripleWrite, panelPoint?_of_le h1.1 h1.2]), List.map_cons, List.map_cons,
      ih fun u hu => h u (by simp [hu])]
    congr 1
    exact pixelPrim_eq _ _ _
/-- A list that is on the panel has one write a triple. -/
theorem length_tripleWrites {ts : List Triple} (h : ∀ t ∈ ts, (panelPoint? t.x t.y).isSome) :
    (ts.filterMap tripleWrite).length = ts.length := by
  induction ts with
  | nil => rfl
  | cons t ts ih =>
    obtain ⟨q, hq⟩ := Option.isSome_iff_exists.1 (h t (by simp))
    rw [List.filterMap_cons_some (b := ⟨q.1, q.2, scale t.i⟩) (by simp [tripleWrite, hq])]
    simp [ih (fun u hu => h u (by simp [hu]))]

theorem lastWrite_append (idx : Fin 144) (old : Byte) (ps qs : List PixelWrite) :
    lastWrite idx old (ps ++ qs) = lastWrite idx (lastWrite idx old ps) qs := by
  induction ps generalizing old with
  | nil => rfl
  | cons p ps ih => simp [lastWrite, ih]

/-- The last triple of a list that names a pixel gives it its brightness (R181). -/
theorem lastWrite_triples (ts : List Triple) (h : ∀ t ∈ ts, (panelPoint? t.x t.y).isSome) (x : PanelX) (y : PanelY)
    (old : Byte) :
    lastWrite (pixelCell x y) old (ts.filterMap tripleWrite) =
      match ts.reverse.find? fun t => t.x.toNat = x.val ∧ t.y.toNat = y.val with
      | some t => scale t.i
      | none => old := by
  induction ts using List.reverseRecOn with
  | nil => rfl
  | append_singleton ts t ih =>
    have h1 := panelPoint?_isSome.1 (h t (by simp))
    rw [List.filterMap_append, lastWrite_append, ih (fun u hu => h u (by simp [hu]))]
    simp only [List.reverse_append, List.reverse_cons, List.reverse_nil, List.nil_append, List.cons_append,
      List.find?_cons]
    have hw : tripleWrite t = some ⟨⟨t.x.toNat, by omega⟩, ⟨t.y.toNat, by omega⟩, scale t.i⟩ := by
      simp [tripleWrite, panelPoint?_of_le h1.1 h1.2]
    rw [List.filterMap_cons_some hw]
    simp only [List.filterMap_nil, lastWrite]
    by_cases hc : t.x.toNat = x.val ∧ t.y.toNat = y.val
    · rw [if_pos]
      · simp [hc]
      · congr 1 <;> apply Fin.ext <;> simp [hc]
    · rw [if_neg]
      · simp [hc]
      · intro e
        have := pixelCell_inj e
        apply hc
        rw [this.1, this.2]
        simp

/-! ## The checks name the first offender (R153, R182, R184, R208) -/

theorem firstUnrenderable_eq {text : List Byte} {j : Nat} (hj : j < text.length)
    (hb : ¬ (glyphOf? text[j]).isSome) (hok : ∀ m, (hm : m < j) → (glyphOf? (text[m]'(by omega))).isSome) (k : Nat) :
    firstUnrenderable k text = some (k + j) := by
  induction text generalizing k j with
  | nil => simp at hj
  | cons c cs ih =>
    unfold firstUnrenderable
    cases j with
    | zero => rw [if_neg (by simpa using hb)]; rfl
    | succ j =>
      rw [if_pos (by simpa using hok 0 (by omega)),
        ih (j := j) (by simpa using hj) (by simpa using hb) (fun m hm => by simpa using hok (m + 1) (by omega))]
      congr 1; omega

theorem firstOffPanel_eq {ts : List Triple} {j : Nat} (hj : j < ts.length)
    (hb : ¬ (panelPoint? ts[j].x ts[j].y).isSome)
    (hok : ∀ m, (hm : m < j) → (panelPoint? (ts[m]'(by omega)).x (ts[m]'(by omega)).y).isSome) (k : Nat) :
    firstOffPanel k ts = some (k + j) := by
  induction ts generalizing k j with
  | nil => simp at hj
  | cons t ts ih =>
    unfold firstOffPanel
    cases j with
    | zero => rw [if_neg (by simpa using hb)]; rfl
    | succ j =>
      rw [if_pos (by simpa using hok 0 (by omega)),
        ih (j := j) (by simpa using hj) (by simpa using hb) (fun m hm => by simpa using hok (m + 1) (by omega))]
      congr 1; omega

theorem imageCharOk_iff (p : Nat) (c : Byte) :
    imageCharOk p c = true ↔ if p % 18 = 17 then c = 0x3A else 0x30 ≤ c.toNat ∧ c.toNat ≤ 0x39 := by
  unfold imageCharOk; split <;> simp

/-- A string is well formed exactly when it has `n` characters, each of which may stand where it stands. -/
theorem firstMalformed_none (n : Nat) : ∀ (p : Nat) (l : List Byte),
    firstMalformed n p l = none ↔ l.length = n ∧ ∀ m < n, ∃ h : m < l.length, imageCharOk (p + m) l[m] = true := by
  induction n with
  | zero => intro p l; cases l <;> simp [firstMalformed]
  | succ n ih =>
    intro p l
    cases l with
    | nil => simp [firstMalformed]
    | cons c cs =>
      simp only [firstMalformed]
      by_cases hc : imageCharOk p c = true
      · rw [if_pos hc, ih]
        constructor
        · rintro ⟨h1, h2⟩
          refine ⟨by simp [h1], ?_⟩
          intro m hm
          cases m with
          | zero => exact ⟨by simp, by simpa using hc⟩
          | succ m =>
            obtain ⟨a, b⟩ := h2 m (by omega)
            exact ⟨by simpa using a, by simpa [Nat.add_comm, Nat.add_left_comm, Nat.add_assoc] using b⟩
        · rintro ⟨h1, h2⟩
          refine ⟨by simpa using h1, ?_⟩
          intro m hm
          obtain ⟨a, b⟩ := h2 (m + 1) (by omega)
          exact ⟨by simpa using a, by simpa [Nat.add_comm, Nat.add_left_comm, Nat.add_assoc] using b⟩
      · rw [if_neg hc]
        simp only [reduceCtorEq, false_iff]
        rintro ⟨h1, h2⟩
        obtain ⟨a, b⟩ := h2 0 (by omega)
        exact hc (by simpa using b)

/-- The position reported: all before it are good, and it is missing or wrong, or the string goes on after `n`. -/
theorem firstMalformed_some (n : Nat) : ∀ (p : Nat) (l : List Byte) (q : Nat), firstMalformed n p l = some q →
    ∃ j, q = p + j ∧ j ≤ n ∧ (∀ m < j, ∃ h : m < l.length, imageCharOk (p + m) l[m] = true) ∧
      (j < n → ¬ ∃ h : j < l.length, imageCharOk (p + j) l[j] = true) ∧ (j = n → n < l.length) := by
  induction n with
  | zero =>
    intro p l q h
    simp only [firstMalformed] at h
    split at h
    · simp at h
    · next hl =>
      simp only [Option.some.injEq] at h
      refine ⟨0, by omega, by omega, by simp, by simp, fun _ => ?_⟩
      simpa [List.length_pos_iff] using hl
  | succ n ih =>
    intro p l q h
    cases l with
    | nil =>
      simp only [firstMalformed, Option.some.injEq] at h
      exact ⟨0, by omega, by omega, by simp, by simp, by simp⟩
    | cons c cs =>
      simp only [firstMalformed] at h
      split at h
      · next hc =>
        obtain ⟨j, rfl, hj, h1, h2, h3⟩ := ih _ _ _ h
        refine ⟨j + 1, by omega, by omega, ?_, ?_, ?_⟩
        · intro m hm
          cases m with
          | zero => exact ⟨by simp, by simpa using hc⟩
          | succ m =>
            obtain ⟨a, b⟩ := h1 m (by omega)
            exact ⟨by simpa using a, by simpa [Nat.add_comm, Nat.add_left_comm, Nat.add_assoc] using b⟩
        · intro hlt
          have := h2 (by omega)
          rintro ⟨a, b⟩
          exact this ⟨by simpa using a, by simpa [Nat.add_comm, Nat.add_left_comm, Nat.add_assoc] using b⟩
        · intro e
          have := h3 (by omega)
          simp; omega
      · next hc =>
        simp only [Option.some.injEq] at h
        refine ⟨0, by omega, by omega, by simp, ?_, by simp⟩
        intro _
        rintro ⟨a, b⟩
        exact hc (by simpa using b)

theorem imageDefect_le {chars : List Byte} {p : Nat} (h : imageDefect chars = some p) : p ≤ 125 := by
  obtain ⟨j, rfl, h1, -⟩ := firstMalformed_some _ _ _ _ h
  omega

theorem length_decodeImage (chars : List Byte) : (decodeImage chars).length = 119 := by simp [decodeImage]

/-- Every decoded triple is on the panel, so an image string raises no coordinate error (R183). -/
theorem decodeImage_onPanel (chars : List Byte) : ∀ t ∈ decodeImage chars, (panelPoint? t.x t.y).isSome := by
  intro t ht
  simp only [decodeImage, List.mem_flatMap, List.mem_map, List.mem_range] at ht
  obtain ⟨r, hr, k, hk, rfl⟩ := ht
  rw [panelPoint?_isSome]
  simp; omega

/-! ## Normalised texts -/

/-- Normalisation adds nothing but spaces, at the end. -/
theorem normalise_append (text : List Byte) :
    ∃ pad, normalise text = text ++ pad ∧ ∀ c ∈ pad, c = Config.space := by
  unfold normalise
  split
  · exact ⟨_, rfl, by simp⟩
  · exact ⟨_, rfl, by simp⟩
  · exact ⟨[], by simp, by simp⟩
  · exact ⟨_, rfl, fun c hc => (List.mem_replicate.1 hc).2⟩

/-- A renderable text stays renderable. -/
theorem renderable_normalise {text : List Byte} (h : ∀ c ∈ text, (glyphOf? c).isSome) :
    ∀ c ∈ normalise text, (glyphOf? c).isSome := by
  obtain ⟨pad, hp, hs⟩ := normalise_append text
  intro c hc
  rw [hp] at hc
  rcases List.mem_append.1 hc with hc | hc
  · exact h c hc
  · rw [hs c hc]; decide

theorem digit_toNat {d : Nat} (h : d < 10) : (BitVec.ofNat 8 (48 + d)).toNat = 48 + d := by simp; omega

theorem digitsValue_append (a b : List Byte) :
    digitsValue (a ++ b) = b.foldl (fun v c => 10 * v + (c.toNat - 48)) (digitsValue a) := by simp [digitsValue]

/-- The digits of a number below `10 ^ (fuel + 1)` (R162). -/
theorem decDigits_spec (fuel : Nat) : ∀ (n : Nat) (acc : List Byte), n < 10 ^ (fuel + 1) →
    ∃ ds, decDigits fuel n acc = ds ++ acc ∧ canonicalDigits ds ∧ digitsValue ds = n ∧ ds.length ≤ fuel + 1 := by
  induction fuel with
  | zero =>
    intro n acc h
    have hn : n < 10 := by simpa using h
    refine ⟨[BitVec.ofNat 8 (48 + n % 10)], rfl, ?_, ?_, by simp⟩
    · rw [Nat.mod_eq_of_lt hn]
      refine ⟨by simp, ?_, fun h => by simpa using h⟩
      intro c hc
      simp only [List.mem_singleton] at hc
      subst hc
      rw [digit_toNat hn]; omega
    · rw [Nat.mod_eq_of_lt hn]
      simp only [digitsValue, List.foldl_cons, List.foldl_nil, digit_toNat hn]; omega
  | succ f ih =>
    intro n acc h
    unfold decDigits
    split
    · next hn =>
      refine ⟨[BitVec.ofNat 8 (48 + n)], rfl, ⟨by simp, ?_, fun h => by simpa using h⟩, ?_, by simp⟩
      · intro c hc
        simp only [List.mem_singleton] at hc
        subst hc
        rw [digit_toNat hn]; omega
      · simp only [digitsValue, List.foldl_cons, List.foldl_nil, digit_toNat hn]; omega
    · next hn =>
      obtain ⟨ds, h1, ⟨ha, hb, hc⟩, h3, h4⟩ :=
        ih (n / 10) (BitVec.ofNat 8 (48 + n % 10) :: acc) (by rw [Nat.pow_succ] at h; omega)
      have hd : n % 10 < 10 := by omega
      refine ⟨ds ++ [BitVec.ofNat 8 (48 + n % 10)], by simp [h1], ⟨by simp, ?_, ?_⟩, ?_, by simp; omega⟩
      · intro x hx
        rcases List.mem_append.1 hx with hx | hx
        · exact hb x hx
        · simp only [List.mem_singleton] at hx
          subst hx
          rw [digit_toNat hd]; omega
      · intro hh
        exfalso
        cases ds with
        | nil => exact ha rfl
        | cons d ds =>
          rw [hc (by simpa using hh)] at h3
          simp [digitsValue] at h3
          omega
      · rw [digitsValue_append, h3]
        simp only [List.foldl_cons, List.foldl_nil, digit_toNat hd]; omega

/-! ## What the meanings answer -/

theorem exec_draw (b : BitVec 16) (masks : Vector Byte 17) (s : State) :
    exec (.draw b masks) s = .next { s with
      phase := .respond, err := 0, cb := [], rsp := some 0x0000
      br := clampBrightness b
      sb := bitmapOf masks
      active := otherFrame s.active
      dx := 0, dy := 0, pi := 0
      chip := (drawPrims (otherFrame s.active) (bitmapPixels (bitmapOf masks) (clampBrightness b))).foldl
        Chip.accept s.chip
      trace := s.trace ++ drawPrims (otherFrame s.active) (bitmapPixels (bitmapOf masks) (clampBrightness b)) } := by
  simp only [exec, execDraw, State.drawBitmap, drawWith_eq, State.respond, loadBitmap_active, loadBitmap_sb,
    loadBitmap_br, loadBitmap_chip, loadBitmap_trace]
  simp only [State.loadBitmap, State.loadBrightness]
  rfl

theorem exec_pixels {ts : List Triple} (s : State) (hl : ts.length ≤ 255)
    (h : ∀ t ∈ ts, (panelPoint? t.x t.y).isSome) :
    exec (.pixels ts) s = .next { s with
      phase := .respond, err := 0, cb := [], rsp := some 0x0000
      pl := writeFrom 0 ts s.pl, plen := BitVec.ofNat 8 ts.length
      active := otherFrame s.active
      dx := 0, dy := 0, pi := 0
      chip := (drawPrims (otherFrame s.active) ((ts.filterMap tripleWrite).map PixelWrite.prim)).foldl
        Chip.accept s.chip
      trace := s.trace ++ drawPrims (otherFrame s.active) ((ts.filterMap tripleWrite).map PixelWrite.prim) } := by
  simp only [exec, execPixels, State.showPixels, pixelList_loadPixels s ts hl, firstOffPanel_none.2 h,
    State.drawPixels, filterMap_triplePixel, drawWith_eq]
  rfl

/-- SCROLL is normalisation, then the rendering of the normalised text. -/
theorem exec_scroll (b : BitVec 16) {text : List Byte} (s : State) (hl : text.length ≤ 255) :
    exec (.scroll b text) s = .next ((s.loadScroll b (normalise text)).renderText Config.font) := by
  simp only [exec, execScroll, State.loadScroll, State.scrollText, normaliseText_loadText _ _ hl]

theorem exec_scrolln (b : BitVec 16) (n : BitVec 32) (s : State) :
    exec (.scrolln b n) s = exec (.scroll b (dec n)) s := rfl

/-! ## Animation steps -/

theorem marqueeSteps_succ (font : Font) (n : Nat) (s : State) :
    State.marqueeSteps font (n + 1) s = (State.marqueeSteps font n s).marqueeStep font := by
  induction n generalizing s with
  | zero => rfl
  | succ n ih => rw [State.marqueeSteps, ih]; rfl

/-- One animation step: one shift, one draw, one move of the cursor (R158). -/
theorem marqueeStep_eq (font : Font) (s : State) :
    s.marqueeStep font =
      let sb := shiftLeft s.sb (charColumn font (s.txtAt s.ci.toNat) s.sc)
      let ps := drawPrims (otherFrame s.active) (bitmapPixels sb s.br)
      { s with
        sb := sb
        chip := ps.foldl Chip.accept s.chip
        trace := s.trace ++ ps
        active := otherFrame s.active, dx := 0, dy := 0, pi := 0
        sc := if s.sc.val < 5 then s.sc + 1 else 0, ci := if s.sc.val < 5 then s.ci else s.ci + 1 } := by
  unfold State.marqueeStep State.drawBitmap
  rw [drawWith_eq]
  simp only [State.advanceCursor, State.shiftIn]
  generalize drawPrims _ _ = ps
  rfl

/-! ## What every command does -/

/-- From `s` to `u` the primitives `ps` have been accepted; the ports, the host's bytes and the draw in progress are as
before, and a collaborator that agreed with LMX still does (R29, R134). -/
structure Emits (s u : State) (ps : List Prim) : Prop where
  chip : u.chip = ps.foldl Chip.accept s.chip
  trace : u.trace = s.trace ++ ps
  rst : u.rst = s.rst
  drv : u.drv = s.drv
  dsub : u.dsub = s.dsub
  cmdIn : u.cmdIn = s.cmdIn
  taken : u.taken = s.taken
  settled : s.Settled → u.Settled

theorem Emits.nothing {s u : State} (h1 : u.chip = s.chip) (h2 : u.trace = s.trace) (h3 : u.rst = s.rst)
    (h4 : u.drv = s.drv) (h5 : u.dsub = s.dsub) (h6 : u.cmdIn = s.cmdIn) (h7 : u.taken = s.taken)
    (h8 : u.active = s.active) : Emits s u [] :=
  ⟨h1, by simp [h2], h3, h4, h5, h6, h7, fun h => ⟨by rw [h1, h8]; exact h.1, by rw [h1, h8]; exact h.2⟩⟩

theorem Emits.append {s t u : State} {ps qs : List Prim} (h : Emits s t ps) (h' : Emits t u qs) :
    Emits s u (ps ++ qs) where
  chip := by rw [h'.chip, h.chip, List.foldl_append]
  trace := by rw [h'.trace, h.trace, List.append_assoc]
  rst := h'.rst.trans h.rst
  drv := h'.drv.trans h.drv
  dsub := h'.dsub.trans h.dsub
  cmdIn := h'.cmdIn.trans h.cmdIn
  taken := h'.taken.trans h.taken
  settled := fun hs => h'.settled (h.settled hs)

theorem Emits.after {s t u : State} {ps : List Prim} (h : Emits s t []) (h' : Emits t u ps) : Emits s u ps :=
  h.append h'

theorem emits_drawWith (s : State) (ps : List PixelWrite) :
    Emits s (s.drawWith (ps.map PixelWrite.prim)) (drawPrims (otherFrame s.active) (ps.map PixelWrite.prim)) := by
  rw [drawWith_eq]
  exact ⟨rfl, rfl, rfl, rfl, rfl, rfl, rfl, fun _ => ⟨drawn_target .., drawn_visible ..⟩⟩

theorem emits_drawBitmap (s : State) :
    Emits s s.drawBitmap (drawPrims (otherFrame s.active) (bitmapPixels s.sb s.br)) := by
  unfold State.drawBitmap
  rw [bitmapPixels_eq]
  exact emits_drawWith ..

theorem emits_drawPixels (s : State) : ∃ ps, Emits s s.drawPixels ps := by
  unfold State.drawPixels
  rw [filterMap_triplePixel]
  exact ⟨_, emits_drawWith ..⟩

theorem emits_marqueeStep (font : Font) (s : State) : ∃ ps, Emits s (s.marqueeStep font) ps := by
  unfold State.marqueeStep
  have h1 : Emits s (s.shiftIn font) [] := by refine .nothing ?_ ?_ ?_ ?_ ?_ ?_ ?_ ?_ <;> simp
  have h2 := emits_drawBitmap (s.shiftIn font)
  have h3 : ∀ v : State, Emits v v.advanceCursor [] := fun _ => .nothing rfl rfl rfl rfl rfl rfl rfl rfl
  exact ⟨_, (h1.after h2).append (h3 _)⟩

theorem emits_marqueeSteps (font : Font) (n : Nat) : ∀ s, ∃ ps, Emits s (State.marqueeSteps font n s) ps := by
  induction n with
  | zero => exact fun s => ⟨[], .nothing rfl rfl rfl rfl rfl rfl rfl rfl⟩
  | succ n ih =>
    intro s
    obtain ⟨ps, h⟩ := emits_marqueeStep font s
    obtain ⟨qs, h'⟩ := ih (s.marqueeStep font)
    exact ⟨_, h.append h'⟩

theorem code_ne_zero (e : ErrorCause) : e.code ≠ 0 := by cases e <;> decide

theorem code_le (e : ErrorCause) : e.code.toNat ≤ 4 := by cases e <;> decide

/-- How a command ends: with code 0 after its primitives, or with an error before the first one (R86, R209). -/
def Ends (s t : State) : Prop :=
  ∃ u code data ps, t = State.respond u code data ∧ code.toNat ≤ 4 ∧ Emits s u ps ∧
    (code ≠ 0 → ps = [] ∧ u.active = s.active)

theorem ends_respond {s u : State} {ps : List Prim} (h : Emits s u ps) (data : Byte) :
    Ends s (u.respond okCode data) :=
  ⟨u, okCode, data, ps, rfl, by decide, h, fun h => absurd rfl h⟩

theorem ends_raise {s u : State} (h : Emits s u []) (ha : u.active = s.active) (e : ErrorCause) (info : Byte) :
    Ends s (u.raise e info) :=
  ⟨u, e.code, info, [], rfl, code_le e, h, fun _ => ⟨rfl, ha⟩⟩

theorem ends_renderText (font : Font) (s : State) : Ends s (s.renderText font) := by
  unfold State.renderText
  split
  · exact ends_raise (.nothing rfl rfl rfl rfl rfl rfl rfl rfl) rfl _ _
  · split
    · have h : Emits s (s.fillStatic font) [] := by refine .nothing ?_ ?_ ?_ ?_ ?_ ?_ ?_ ?_ <;> simp
      exact ends_respond (h.after (emits_drawBitmap _)) _
    · have h : Emits s s.startMarquee [] := by refine .nothing ?_ ?_ ?_ ?_ ?_ ?_ ?_ ?_ <;> simp
      obtain ⟨ps, h'⟩ := emits_marqueeSteps font (6 * s.tlen.toNat) s.startMarquee
      exact ends_respond (h.after h') _

theorem Ends.of_emits {s t u : State} (h : Emits s t []) (ha : t.active = s.active) (h' : Ends t u) : Ends s u := by
  obtain ⟨v, code, data, ps, rfl, hc, he, hz⟩ := h'
  exact ⟨v, code, data, ps, rfl, hc, h.after he, fun hne => ⟨(hz hne).1, (hz hne).2.trans ha⟩⟩

theorem ends_scroll (font : Font) (b : BitVec 16) (text : List Byte) (s : State) :
    Ends s ((s.loadScroll b text).scrollText font) := by
  unfold State.scrollText
  refine .of_emits (t := (s.loadScroll b text).normaliseText) (.nothing ?_ ?_ ?_ ?_ ?_ ?_ ?_ ?_) ?_
    (ends_renderText ..) <;> simp [State.normaliseText, State.loadScroll]

/-- Every command ends, from every state (R86, R209, R222). -/
theorem exec_command {i : Instr} (hi : i.isCommand = true) (s : State) : ∃ t, exec i s = .next t ∧ Ends s t := by
  cases i with
  | clear =>
    exact ⟨_, rfl, ends_respond (u := s.acceptPrim .clearFrame) (ps := [.clearFrame])
      ⟨rfl, rfl, rfl, rfl, rfl, rfl, rfl, fun h => ⟨h.1, h.2⟩⟩ _⟩
  | scroll b text => exact ⟨_, rfl, ends_scroll ..⟩
  | scrolln b n => exact ⟨_, rfl, ends_scroll ..⟩
  | draw b masks =>
    have h : Emits s (s.loadBitmap b masks) [] := by refine .nothing ?_ ?_ ?_ ?_ ?_ ?_ ?_ ?_ <;> simp
    exact ⟨_, rfl, ends_respond (h.after (emits_drawBitmap _)) _⟩
  | pixels ts =>
    have h : Emits s (s.loadPixels ts) [] := by refine .nothing ?_ ?_ ?_ ?_ ?_ ?_ ?_ ?_ <;> simp
    refine ⟨_, rfl, ?_⟩
    unfold State.showPixels
    split
    · exact ends_raise h (by simp) _ _
    · obtain ⟨ps, h'⟩ := emits_drawPixels (s.loadPixels ts)
      exact ends_respond (h.after h') _
  | imgstr chars =>
    have h : Emits s (s.loadPixels (decodeImage chars)) [] := by refine .nothing ?_ ?_ ?_ ?_ ?_ ?_ ?_ ?_ <;> simp
    simp only [exec, execImgstr]
    split
    · exact ⟨_, rfl, ends_raise (.nothing rfl rfl rfl rfl rfl rfl rfl rfl) rfl _ _⟩
    · obtain ⟨ps, h'⟩ := emits_drawPixels (s.loadPixels (decodeImage chars))
      exact ⟨_, rfl, ends_respond (h.after h') _⟩
  | paddr x y =>
    have h : Emits s s [] := .nothing rfl rfl rfl rfl rfl rfl rfl rfl
    simp only [exec, execPaddr]
    split
    · exact ⟨_, rfl, ends_respond h _⟩
    · exact ⟨_, rfl, ends_raise h rfl _ _⟩
  | selectFrame id shown => simp [Instr.isCommand] at hi
  | clearFrame => simp [Instr.isCommand] at hi
  | setPixel pcol prow b => simp [Instr.isCommand] at hi

end Sys2Proof.Machine
end

