-- ==== Sys2Proof/Laws/PerInstr.lean ====
section
/-! SUPPORT. A statement made for every instruction: what it is on its port fits that port (30_encoding.md R84, R88,
R99). -/

namespace Sys2Proof.Laws.FitsPort

/-- A well-formed command has 1 to 767 bytes; a driver word never has the kind `00`. -/
def Statement (i : Instr) : Prop :=
  i.wellFormed = true →
    match encode i with
    | .command bytes => 1 ≤ bytes.length ∧ bytes.length ≤ Config.longestCommand
    | .driver word => word.extractLsb' 16 2 ≠ 0

theorem clear : Statement .clear := by simp [Statement, encode, Config.longestCommand]

theorem scroll (b : BitVec 16) (text : List Byte) : Statement (.scroll b text) := by
  simp [Statement, encode, Instr.wellFormed, brightnessBytes, Config.textMax, Config.longestCommand]; omega

theorem scrolln (b : BitVec 16) (n : BitVec 32) : Statement (.scrolln b n) := by
  simp [Statement, encode, brightnessBytes, Config.longestCommand]

theorem draw (b : BitVec 16) (masks : Vector Byte 17) : Statement (.draw b masks) := by
  simp [Statement, encode, brightnessBytes, Config.longestCommand]

theorem length_triples (ts : List Triple) : (ts.flatMap Triple.bytes).length = 3 * ts.length := by
  induction ts with
  | nil => rfl
  | cons t ts ih => simp [Triple.bytes] at ih ⊢; omega

theorem pixels (triples : List Triple) : Statement (.pixels triples) := by
  have := length_triples triples
  simp only [Statement, encode, Instr.wellFormed, decide_eq_true_eq, List.length_append, List.length_cons,
    List.length_nil, Config.pixMax, Config.longestCommand]
  omega

theorem imgstr (chars : List Byte) : Statement (.imgstr chars) := by
  simp [Statement, encode, Instr.wellFormed, Config.longestCommand]; omega

theorem paddr (x y : Byte) : Statement (.paddr x y) := by simp [Statement, encode, Config.longestCommand]

theorem selectFrame (id : FrameId) (shown : Bool) : Statement (.selectFrame id shown) := by
  intro _
  show (Prim.word (.selectFrame id shown)).extractLsb' 16 2 ≠ 0
  revert id shown
  decide

theorem clearFrame : Statement .clearFrame := by
  intro _
  show (Prim.word .clearFrame).extractLsb' 16 2 ≠ 0
  decide

theorem setPixel (pcol prow : BitVec 4) (b : Byte) : Statement (.setPixel pcol prow b) := by
  intro _
  show (Prim.word (.setPixel pcol prow b)).extractLsb' 16 2 ≠ 0
  intro h
  have h0 := congrArg (fun v => v.getLsbD 0) h
  simp only [BitVec.getLsbD_extractLsb', Prim.word, BitVec.getLsbD_append] at h0
  simp at h0

end Sys2Proof.Laws.FitsPort
end

