-- ==== Sys2Proof/Laws/Ports.lean ====
section
/-! SUPPORT. The sequencer at its ports: what accepting the primitives of LMX does, the decomposition of a step and of a
run of ticks, and the internal actions phase by phase. -/

namespace Sys2Proof.Machine

/-! ## Accepting a primitive -/

/-- The primitives LMX emits: a SET_PIXEL only for a logical pixel (R99, R137). -/
def Emitted : Prim → Prop
  | .selectFrame _ _ | .clearFrame => True
  | .setPixel pcol prow b => ∃ x y, Prim.setPixel pcol prow b = pixelPrim x y b

theorem emitted_pixelPrim (x : PanelX) (y : PanelY) (b : Byte) : Emitted (pixelPrim x y b) := ⟨x, y, rfl⟩

/-- The collaborator carries out every primitive LMX emits. -/
theorem exec_emitted {p : Prim} (h : Emitted p) (s : State) : exec p.instr s = .next (s.acceptPrim p) := by
  cases p with
  | selectFrame id shown => rfl
  | clearFrame => rfl
  | setPixel pcol prow b =>
    obtain ⟨x, y, e⟩ := h
    simp only [pixelPrim, Prim.setPixel.injEq] at e
    obtain ⟨rfl, rfl, -⟩ := e
    simp only [Prim.instr, exec, execSetPixel, physIndex_pixel_lt, if_true]

/-- Accepting the word of an emitted primitive: its effect, and the sequencer goes on. -/
theorem acceptWord_emitted {p : Prim} (h : Emitted p) (s : State) :
    s.acceptWord p.word = .next (({ s with drv := none }.acceptPrim p).advance Config.font) := by
  unfold State.acceptWord
  rw [decodeDriver_word]
  dsimp only
  rw [exec_emitted h]

/-! ## Runs of ticks -/

theorem ticks_add {m n : Nat} {s t : State} (h : ticks m s = .next t) : ticks (m + n) s = ticks n t := by
  induction m generalizing s with
  | zero =>
    simp only [ticks, Host.Outcome.next.injEq] at h
    subst h
    rw [Nat.zero_add]
  | succ m ih =>
    rw [Nat.succ_add]
    simp only [ticks] at h ⊢
    cases hs : tick s with
    | next u => rw [hs] at h; exact ih h
    | fault r => rw [hs] at h; simp at h
    | refused r => rw [hs] at h; simp at h

theorem ticks_one {s t : State} (h : tick s = .next t) : ticks 1 s = .next t := by
  simp [ticks, h]

/-- What a run of ticks reaches, a longer run reaches through it. -/
theorem ticks_trans {m n : Nat} {s t u : State} (h : ticks m s = .next t) (h' : ticks n t = .next u) :
    ticks (m + n) s = .next u := by rw [ticks_add h, h']

/-! ## One tick, by what is waiting -/

theorem tick_drv {s : State} {w : BitVec 18} (h : s.rst = false) (hd : s.drv = some w) : tick s = s.acceptWord w := by
  unfold tick
  rw [h, hd]
  rfl

theorem tick_rsp {s : State} {w : BitVec 16} (h : s.rst = false) (hd : s.drv = none) (hr : s.rsp = some w) :
    tick s = .next (s.takeResponse w) := by
  unfold tick
  rw [h, hd, hr]
  rfl

theorem tick_byte {s : State} {b : Byte} {rest : List Byte} (h : s.rst = false) (hd : s.drv = none)
    (hr : s.rsp = none) (hp : s.phase = .idle ∨ s.phase = .receive) (hc : s.cmdIn = b :: rest) :
    tick s = .next ({ s with cmdIn := rest }.acceptByte b) := by
  unfold tick
  rw [h, hd, hr, hc]
  rcases hp with hp | hp <;> rw [hp] <;> rfl

theorem tick_internal {s t : State} (h : s.rst = false) (hd : s.drv = none) (hr : s.rsp = none)
    (hp : s.phase ≠ .idle) (hp' : s.phase ≠ .receive) (hi : s.internal Config.font = some t) : tick s = .next t := by
  unfold tick
  rw [h, hd, hr]
  simp only [Bool.false_eq_true, if_false]
  split
  · simp_all
  · simp_all
  · simp_all
  · simp_all
  · rw [hi]

/-! ## A step, a tick and a command -/

theorem readyCommand_some {s : State} {i : Instr} {rest : List Byte} (h : s.readyCommand = some (i, rest)) :
    s.rst = false ∧ s.phase = .idle ∧ s.drv = none ∧ s.rsp = none ∧ decodeCommand s.cmdIn = .ok (i, rest) := by
  unfold State.readyCommand at h
  split at h
  · next hc =>
    obtain ⟨a, b, c, d⟩ := hc
    split at h
    · next hd =>
      simp only [Option.some.injEq] at h
      subst h
      exact ⟨a, b, c, d, hd⟩
    · simp at h
  · simp at h

/-- A step is a tick, or a whole command. -/
theorem step_cases (s : State) :
    step s = tick s ∨ ∃ i rest, s.readyCommand = some (i, rest) ∧ step s = exec i { s with cmdIn := rest } := by
  unfold step
  cases h : s.readyCommand with
  | none => exact .inl rfl
  | some q => exact .inr ⟨q.1, q.2, rfl, rfl⟩

/-- With a word presented a step carries that word out, in every phase, and the sequencer goes on. -/
theorem step_word {s : State} {w : BitVec 18} {p : Prim} (hr : s.rst = false) (hd : s.drv = some w)
    (hp : decodeDriver w = .ok p) :
    step s = match exec p.instr { s with drv := none } with
      | .next t => .next (t.advance Config.font)
      | .fault r => .fault r
      | .refused r => .refused r := by
  have h : s.readyCommand = none := by
    unfold State.readyCommand
    rw [if_neg]
    simp [hd]
  unfold step
  cases hx : exec p.instr { s with drv := none } <;>
    simp only [h, tick_drv hr hd, State.acceptWord, hp, hx]

/-- A primitive that is carried out changes the collaborator and the trace only. -/
theorem exec_prim_next {p : Prim} {s t : State} (h : exec p.instr s = .next t) : t = s.acceptPrim p := by
  cases p with
  | selectFrame id shown => exact (Host.Outcome.next.inj h).symm
  | clearFrame => exact (Host.Outcome.next.inj h).symm
  | setPixel pcol prow b =>
    simp only [Prim.instr, exec, execSetPixel] at h
    split at h
    · exact (Host.Outcome.next.inj h).symm
    · cases h

/-! ## What the invariant says of the ports -/

/-- Only primitives of LMX are presented, and no response waits meanwhile. -/
theorem drv_emitted {s : State} (h : s.Inv) {w : BitVec 18} (hw : s.drv = some w) :
    s.rsp = none ∧ ∃ p, Emitted p ∧ w = p.word := by
  obtain ⟨-, -, -, hp⟩ := h
  have draw : s.Drawing → s.rsp = none ∧ ∃ p, Emitted p ∧ w = p.word := by
    rintro ⟨hrsp, d, hd, hi⟩
    refine ⟨hrsp, ?_⟩
    cases d <;> simp only [State.DrawInv, State.PresentsOnly, hw, Option.some.injEq, reduceCtorEq, false_or] at hi
    · exact ⟨.selectFrame _ _, True.intro, hi.2⟩
    · exact ⟨.clearFrame, True.intro, hi.2⟩
    · obtain ⟨-, x, y, b, e⟩ := hi
      exact ⟨_, emitted_pixelPrim x y b, e⟩
    · exact ⟨.selectFrame _ _, True.intro, hi.2⟩
  unfold State.PhaseInv at hp
  cases hph : s.phase <;> simp only [hph] at hp
  · simp [hp.1.1] at hw
  · simp [hp.1.1] at hw
  · simp [hp.1.1] at hw
  · exact draw hp
  · exact draw hp.1
  · exact draw hp
  · exact draw hp.1
  · obtain ⟨h1, -, -, h2⟩ := hp
    simp only [State.PresentsOnly, hw, Option.some.injEq, reduceCtorEq, false_or] at h2
    exact ⟨h1, .clearFrame, True.intro, h2⟩
  · simp [hp.1] at hw

/-- A response waits in `Respond` only. -/
theorem rsp_phase {s : State} (h : s.Inv) {w : BitVec 16} (hw : s.rsp = some w) : s.phase = .respond := by
  obtain ⟨-, -, -, hp⟩ := h
  unfold State.PhaseInv at hp
  cases hph : s.phase <;> simp only [hph] at hp
  · simp [hp.1.2.1] at hw
  · simp [hp.1.2.1] at hw
  · simp [hp.1.2.1] at hw
  · simp [hp.1] at hw
  · simp [hp.1.1] at hw
  · simp [hp.1] at hw
  · simp [hp.1.1] at hw
  · simp [hp.1] at hw
  · rfl

/-- In `Respond` a response waits. -/
theorem phase_rsp {s : State} (h : s.Inv) (hp : s.phase = .respond) : s.rsp ≠ none := by
  obtain ⟨-, -, -, hi⟩ := h
  unfold State.PhaseInv at hi
  rw [hp] at hi
  obtain ⟨-, -, -, -, d, e⟩ := hi
  rw [e]
  simp

/-- Everything a tick can do inside the invariant. -/
inductive TickCase (s : State) : State → Prop where
  | wait (hp : s.phase = .idle) (hc : s.cmdIn = []) : TickCase s s
  | byte (b : Byte) (rest : List Byte) (hp : s.phase = .idle ∨ s.phase = .receive) (hd : s.drv = none)
      (hr : s.rsp = none) (hc : s.cmdIn = b :: rest) : TickCase s ({ s with cmdIn := rest }.acceptByte b)
  | accept (p : Prim) (hp : Emitted p) (hd : s.drv = some p.word) (hr : s.rsp = none) :
      TickCase s (({ s with drv := none }.acceptPrim p).advance Config.font)
  | response (w : BitVec 16) (hp : s.phase = .respond) (hd : s.drv = none) (hr : s.rsp = some w) :
      TickCase s (s.takeResponse w)
  | internal (t : State) (hd : s.drv = none) (hr : s.rsp = none) (hi : s.internal Config.font = some t)
      (h1 : s.phase ≠ .idle) (h2 : s.phase ≠ .receive) (h3 : s.phase ≠ .respond) : TickCase s t

theorem tick_case {s t : State} (h : s.Inv) (ht : tick s = .next t) : TickCase s t := by
  have hr := h.1
  cases hd : s.drv with
  | some w =>
    obtain ⟨h1, p, h2, rfl⟩ := drv_emitted h hd
    rw [tick_drv hr hd, acceptWord_emitted h2] at ht
    cases ht
    exact .accept p h2 hd h1
  | none =>
    cases hw : s.rsp with
    | some w =>
      rw [tick_rsp hr hd hw] at ht
      cases ht
      exact .response w (rsp_phase h hw) hd hw
    | none =>
      by_cases hp : s.phase = .idle ∨ s.phase = .receive
      · cases hc : s.cmdIn with
        | nil =>
          unfold tick at ht
          rw [hr, hd, hw, hc] at ht
          rcases hp with hp | hp <;> rw [hp] at ht <;> simp at ht
          rw [← ht]
          exact .wait hp hc
        | cons b rest =>
          rw [tick_byte hr hd hw hp hc] at ht
          cases ht
          exact .byte b rest hp hd hw hc
      · have h1 : s.phase ≠ .idle := fun e => hp (.inl e)
        have h2 : s.phase ≠ .receive := fun e => hp (.inr e)
        cases hi : s.internal Config.font with
        | some u =>
          rw [tick_internal hr hd hw h1 h2 hi] at ht
          cases ht
          exact .internal _ hd hw hi h1 h2 fun e => phase_rsp h e hw
        | none =>
          unfold tick at ht
          rw [hr, hd, hw] at ht
          simp only [Bool.false_eq_true, if_false, hi] at ht
          split at ht <;> simp_all

/-! ## The draw, one handshake at a time -/

/-- A draw is in progress in this phase. -/
def drawPhase (p : Phase) : Prop := p = .staticDraw ∨ p = .bitmapDraw ∨ p = .animatingStep ∨ p = .pixelDraw

theorem advance_draw {s : State} {d : DrawSub} (h : drawPhase s.phase) (hd : s.dsub = some d) (font : Font) :
    s.advance font = s.drawAccepted font d := by
  unfold State.advance
  rcases h with h | h | h | h <;> rw [h, hd]

theorem internal_draw {s : State} {d : DrawSub} (h : drawPhase s.phase) (hd : s.dsub = some d) (h1 : s.drv = none)
    (h2 : s.rsp = none) (font : Font) : s.internal font = some (s.drawAction d) := by
  unfold State.internal
  rw [h1, h2]
  rcases h with h | h | h | h <;> rw [h, hd] <;> rfl

/-- A draw that presents a primitive emits it in two ticks: presented, then accepted. -/
theorem ticks_emit {s : State} {d : DrawSub} {p : Prim} (hr : s.rst = false) (h : drawPhase s.phase)
    (hd : s.dsub = some d) (h1 : s.drv = none) (h2 : s.rsp = none) (ha : s.drawAction d = s.present p)
    (hp : Emitted p) : ticks 2 s = .next ((s.acceptPrim p).drawAccepted Config.font d) := by
  have h3 : tick s = .next (s.present p) := by
    refine tick_internal hr h1 h2 ?_ ?_ (ha ▸ internal_draw h hd h1 h2 Config.font) <;>
      rcases h with h | h | h | h <;> rw [h] <;> simp
  have h4 : tick (s.present p) = .next ((s.acceptPrim p).drawAccepted Config.font d) := by
    rw [tick_drv (s := s.present p) (w := p.word) hr rfl, acceptWord_emitted hp, ← advance_draw (s := s.acceptPrim p) h hd]
    have e : ({ s.present p with drv := none } : State) = s := by rw [← h1]; rfl
    rw [e]
  exact ticks_trans (ticks_one h3) (ticks_one h4)

end Sys2Proof.Machine
end

