-- ==== Sys2Proof/Laws/Run.lean ====
section
/-! SUPPORT. Runs of the sequencer: the bytes of a command, a whole draw and a whole animation, one
handshake at a time, in terms of the commands' own operations. -/

namespace Sys2Proof

/-- A command cut off before its last byte is not yet a command (R82). -/
theorem decodeCommand_proper {own : List Byte} {i : Instr} (h : decodeCommand own = .ok (i, [])) {k : Nat}
    (hk : k < own.length) :
    decodeCommand (own.take k) = .error .incomplete := by
  cases hd : decodeCommand (own.take k) with
  | error e =>
    rcases decodeCommand_error hd with rfl | ⟨op, rfl⟩
    · rfl
    · obtain ⟨r, hr, ho⟩ := decodeCommand_illegal hd
      rw [← List.take_append_drop k own, hr, List.cons_append, decodeCommand_of_illegal ho] at h
      simp at h
  | ok q =>
    exfalso
    have := decodeCommand_append hd (own.drop k)
    rw [List.take_append_drop, h] at this
    simp only [Except.ok.injEq, Prod.mk.injEq, List.nil_eq, List.append_eq_nil_iff, List.drop_eq_nil_iff] at this
    omega

end Sys2Proof

namespace Sys2Proof.Machine

/-- LMX can act on a draw: nothing is presented or waiting. -/
def Ready (s : State) : Prop := s.rst = false ∧ s.drv = none ∧ s.rsp = none

/-- The pixel order of R138, column by column, rows ascending. -/
theorem panelPoints_drop : ∀ (x : PanelX) (y : PanelY),
    panelPoints.drop (7 * x.val + y.val) = (x, y) :: panelPoints.drop (7 * x.val + y.val + 1) := by decide
theorem panelPoints_end : panelPoints.drop 119 = [] := by decide

/-- The pixels a bitmap draw still has to present, from the iterators on. -/
def State.restOfBitmap (s : State) : List Prim :=
  ((panelPoints.drop (7 * s.dx.val + s.dy.val)).filter fun p => lit s.sb p.1 p.2).map fun p => pixelPrim p.1 p.2 s.br

/-- The iterators go on by one pixel, or the flip is due after the last one. -/
theorem nextPixel_cases (s : State) : (∃ dx dy, s.nextPixel = { s with dx := dx, dy := dy } ∧
    7 * dx.val + dy.val = 7 * s.dx.val + s.dy.val + 1) ∨
    (7 * s.dx.val + s.dy.val = 118 ∧ s.nextPixel = { s with dsub := some .dFlip }) := by
  unfold State.nextPixel
  split
  · next h => refine .inl ⟨s.dx, s.dy + 1, rfl, ?_⟩; rw [Fin.val_add]; simp; omega
  · split
    · next h => refine .inl ⟨s.dx + 1, 0, rfl, ?_⟩; rw [Fin.val_add]; simp; omega
    · refine .inr ⟨by omega, rfl⟩

/-- The pixel at the iterators, then the rest. -/
theorem restOfBitmap_eq (s : State) : s.restOfBitmap =
    (if lit s.sb s.dx s.dy then [pixelPrim s.dx s.dy s.br] else []) ++
    ((panelPoints.drop (7 * s.dx.val + s.dy.val + 1)).filter fun p => lit s.sb p.1 p.2).map fun p => pixelPrim p.1 p.2 s.br := by
  unfold State.restOfBitmap
  rw [panelPoints_drop, List.filter_cons]
  split <;> simp

/-- A draw's action with nothing presented or waiting is one tick. -/
theorem tick_act {s t : State} {d : DrawSub} (hr : Ready s) (h : drawPhase s.phase) (hd : s.dsub = some d)
    (ha : s.drawAction d = t) : tick s = .next t := by
  subst ha
  refine tick_internal hr.1 hr.2.1 hr.2.2 ?_ ?_ (internal_draw h hd hr.2.1 hr.2.2 Config.font) <;>
      rcases h with h | h | h | h <;> rw [h] <;> simp

/-- The pixel phase of a bitmap draw, from any iterator position to the flip. -/
theorem ticks_bitmap (m : Nat) : ∀ (s : State), Ready s → drawPhase s.phase → s.phase ≠ .pixelDraw →
    s.dsub = some .dPixels →
   118 - (7 * s.dx.val + s.dy.val) = m →
    ∃ n dx dy, ticks n s = .next { s.acceptAll s.restOfBitmap with dsub := some .dFlip, dx := dx, dy := dy } := by
  induction m using Nat.strongRecOn with
  | ind m ih =>
    intro s hr h hp hd hm
    have act : s.drawAction .dPixels = s.bitmapPixel := by simp [State.drawAction, hp]
    have acc : ∀ u : State, u.phase = s.phase → u.drawAccepted Config.font .dPixels = u.nextPixel := by
      intro u hu; simp [State.drawAccepted, hu, hp]
    have one : ∃ n, ticks n s = .next (s.acceptAll
        (if lit s.sb s.dx s.dy then [pixelPrim s.dx s.dy s.br] else [])).nextPixel := by
      by_cases hl : lit s.sb s.dx s.dy = true
      · refine ⟨2, ?_⟩
        rw [if_pos hl, ticks_emit hr.1 h hd hr.2.1 hr.2.2 (p := pixelPrim s.dx s.dy s.br)
            (by rw [act]; unfold State.bitmapPixel; rw [if_pos hl]) (emitted_pixelPrim ..), acc (s.acceptPrim _) rfl]
        rfl
      · refine ⟨1, ticks_one (tick_act hr h hd ?_)⟩
        rw [act, if_neg hl]; unfold State.bitmapPixel; rw [if_neg hl]; rfl
    obtain ⟨n, hn⟩ := one
    rw [restOfBitmap_eq]
    generalize (if lit s.sb s.dx s.dy then [pixelPrim s.dx s.dy s.br] else []) = q at *
    rw [acceptAll_eq] at hn ⊢
    rcases nextPixel_cases { s with chip := q.foldl Chip.accept s.chip, trace := s.trace ++ q } with ⟨dx, dy, e,
        he⟩ | ⟨he, e⟩
    · rw [e] at hn
      dsimp only at he
      obtain ⟨n', dx', dy', h'⟩ := ih (118 - (7 * dx.val + dy.val)) (by omega)
          { s with chip := q.foldl Chip.accept s.chip, trace := s.trace ++ q, dx := dx, dy := dy } hr h hp hd rfl
      refine ⟨n + n', dx', dy', ticks_trans hn (h'.trans ?_)⟩
      rw [acceptAll_eq]
      simp only [State.restOfBitmap, he, List.foldl_append, List.append_assoc]
    · rw [e] at hn
      dsimp only at he
      refine ⟨n, s.dx, s.dy, hn.trans ?_⟩
      rw [show 7 * s.dx.val + s.dy.val + 1 = 119 by omega, panelPoints_end]
      simp only [List.filter_nil, List.map_nil, List.append_nil]

/-! ## A pixel list, from any iterator position -/

/-- The pixel phase of a pixel-list draw, from any iterator position to the flip. -/
theorem ticks_list (m : Nat) : ∀ (s : State), Ready s → s.phase = .pixelDraw → s.dsub = some .dPixels →
   (∀ t ∈ s.pixelList, (panelPoint? t.x t.y).isSome) →
   s.plen.toNat - s.pi.toNat = m →
    ∃ n pi, ticks n s = .next { s.acceptAll
        ((s.pixelList.drop s.pi.toNat).filterMap triplePixel) with dsub := some .dFlip, pi := pi } := by
  induction m with
  | zero =>
    intro s hr hp hd hv hm
    have hn : s.pixelList[s.pi.toNat]? = none := by rw [List.getElem?_eq_none_iff, pixelList_length]; omega
    refine ⟨1, s.pi, ticks_one (tick_act hr (by unfold drawPhase; simp [hp]) hd ?_)⟩
    simp only [State.drawAction, if_pos hp, State.listPixel, hn]
    rw [List.drop_eq_nil_of_le (by rw [pixelList_length]; omega)]
    rfl
  | succ m ih =>
    intro s hr hp hd hv hm
    have hlt : s.pi.toNat < s.pixelList.length := by rw [pixelList_length]; omega
    have hdr := List.drop_eq_getElem_cons hlt
    have hv' := hv _ (List.getElem_mem hlt)
    obtain ⟨q, hq⟩ := Option.isSome_iff_exists.1 hv'
    have hq' : triplePixel (s.pixelList[s.pi.toNat]) = some (pixelPrim q.1 q.2 (scale
        (s.pixelList[s.pi.toNat]).i)) := by
      simp [triplePixel, hq]
    have act : s.drawAction .dPixels = s.present (pixelPrim q.1 q.2 (scale (s.pixelList[s.pi.toNat]).i)) := by
      simp only [State.drawAction, if_pos hp, State.listPixel, List.getElem?_eq_getElem hlt, hq']
    have hn := ticks_emit hr.1 (by unfold drawPhase; simp [hp]) hd hr.2.1 hr.2.2 act (emitted_pixelPrim ..)
    rw [hdr, List.filterMap_cons_some hq']
    generalize pixelPrim q.1 q.2 (scale (s.pixelList[s.pi.toNat]).i) = p at *
    have acc : (s.acceptPrim p).drawAccepted Config.font .dPixels = { s.acceptPrim p with pi := s.pi + 1 } := by
      unfold State.drawAccepted
      exact if_pos hp
    rw [acc] at hn
    have hpi : (s.pi + 1).toNat = s.pi.toNat + 1 := by
      have := s.plen.isLt
      rw [BitVec.toNat_add]; simp; omega
    obtain ⟨n', pi', h'⟩ := ih { s.acceptPrim p with pi := s.pi + 1 } hr hp hd hv
        (by dsimp only [State.acceptPrim]; omega)
    refine ⟨2 + n', pi', ticks_trans hn (h'.trans ?_)⟩
    rw [acceptAll_cons]
    dsimp only
    rw [hpi, acceptAll_eq, acceptAll_eq]
    rfl

/-- A draw up to its pixel phase: aim and clear. -/
theorem ticks_aim {s : State} (hr : Ready s) (h : drawPhase s.phase) (hd : s.dsub = some .dSelect) :
    ticks 4 s = .next { s.acceptAll [.selectFrame (otherFrame s.active) false,
        .clearFrame] with dsub := some .dPixels, dx := 0, dy := 0, pi := 0 } := by
  have h1 := ticks_emit hr.1 h hd hr.2.1 hr.2.2 (p := .selectFrame (otherFrame s.active) false) rfl True.intro
  have h2 := ticks_emit (s := (s.acceptPrim (.selectFrame
      (otherFrame s.active) false)).drawAccepted Config.font .dSelect) (p := .clearFrame)
      (d := .dClear) hr.1 h rfl hr.2.1 hr.2.2 rfl True.intro
  exact (ticks_trans h1 h2)

/-- The flip at the end of a draw. -/
theorem ticks_flip {s : State} (hr : Ready s) (h : drawPhase s.phase) (hd : s.dsub = some .dFlip) :
    ticks 2 s = .next ((s.acceptPrim (.selectFrame (otherFrame s.active) true)).finishDraw Config.font) :=
  ticks_emit hr.1 h hd hr.2.1 hr.2.2 (p := .selectFrame (otherFrame s.active) true) rfl True.intro

/-- A whole draw, given its pixel phase. -/
theorem ticks_draw {s : State} (hr : Ready s) (h : drawPhase s.phase) (hd : s.dsub = some .dSelect) (ps : List Prim)
   (hpx : ∀ u : State, Ready u → u.phase = s.phase → u.dsub = some .dPixels → u.dx = 0 → u.dy = 0 → u.pi = 0 →
       u.sb = s.sb → u.br = s.br → u.pixelList = s.pixelList →
      ∃ n dx dy pi, ticks n u = .next { u.acceptAll ps with dsub := some .dFlip, dx := dx, dy := dy, pi := pi }) :
    ∃ n, ticks n s = .next (({ s.drawWith ps with dsub := some .dFlip } : State).afterDraw Config.font) := by
  have h1 := ticks_aim hr h hd
  rw [acceptAll_eq] at h1
  obtain ⟨n, dx, dy, pi, h2⟩ := hpx { s with chip := [Prim.selectFrame (otherFrame s.active) false, .clearFrame].foldl Chip.accept s.chip, trace := s.trace ++ [Prim.selectFrame (otherFrame s.active) false, .clearFrame], dsub := some .dPixels, dx := 0, dy := 0, pi := 0 } hr rfl rfl rfl rfl rfl rfl rfl rfl
  rw [acceptAll_eq] at h2
  have h3 := ticks_flip (s := { s with chip := ps.foldl Chip.accept ([Prim.selectFrame (otherFrame s.active) false, .clearFrame].foldl Chip.accept s.chip), trace := (s.trace ++ [Prim.selectFrame (otherFrame s.active) false, .clearFrame]) ++ ps, dsub := some .dFlip, dx := dx, dy := dy, pi := pi }) hr h rfl
  refine ⟨4 + n + 2, (ticks_trans (ticks_trans h1 h2) h3).trans ?_⟩
  unfold State.finishDraw
  rw [drawWith_eq]
  congr 2
  simp only [State.acceptPrim, drawPrims, List.foldl_append, List.append_assoc]
  rfl

/-- A whole bitmap draw. -/
theorem ticks_drawBitmap {s : State} (hr : Ready s) (h : drawPhase s.phase) (hp : s.phase ≠ .pixelDraw)
    (hd : s.dsub = some .dSelect) :
    ∃ n, ticks n s = .next (({ s.drawBitmap with dsub := some .dFlip } : State).afterDraw Config.font) := by
  refine ticks_draw hr h hd _ ?_
  intro u hu e1 e2 e3 e4 e5 e6 e7 _
  obtain ⟨n, dx, dy, h'⟩ := ticks_bitmap _ u hu (e1 ▸ h) (e1 ▸ hp) e2 rfl
  have : u.restOfBitmap = bitmapPixels s.sb s.br := by
    unfold State.restOfBitmap bitmapPixels
    rw [e3, e4, e6, e7]; rfl
  rw [this] at h'
  refine ⟨n, dx, dy, u.pi, h'.trans ?_⟩
  rw [acceptAll_eq]

/-- A whole pixel-list draw. -/
theorem ticks_drawPixels {s : State} (hr : Ready s) (hp : s.phase = .pixelDraw) (hd : s.dsub = some .dSelect)
    (hv : ∀ t ∈ s.pixelList, (panelPoint? t.x t.y).isSome) :
    ∃ n, ticks n s = .next (({ s.drawPixels with dsub := some .dFlip } : State).afterDraw Config.font) := by
  refine ticks_draw hr (by unfold drawPhase; simp [hp]) hd _ ?_
  intro u hu e1 e2 e3 e4 e5 e6 e7 e8
  obtain ⟨n, pi, h'⟩ := ticks_list _ u hu (e1.trans hp) e2 (e8 ▸ hv) rfl
  rw [e5, e8] at h'
  simp only [BitVec.ofNat_eq_ofNat, BitVec.toNat_ofNat, Nat.zero_mod, List.drop_zero] at h'
  refine ⟨n, u.dx, u.dy, pi, h'.trans ?_⟩
  rw [acceptAll_eq]

/-- The bytes of a command after its first `k`, up to its begin. -/
theorem ticks_bytes {own : List Byte} {i : Instr} (hd : decodeCommand own = .ok (i, [])) {rest : List Byte}
    (m : Nat) : ∀ (s : State) (k : Nat),
   Ready s → s.phase = .receive → k < own.length → s.cmdIn = own.drop k ++ rest → s.cb = own.take k →
       own.length = k + m →
   ticks m s = .next (State.begin i { s with cb := own, cmdIn := rest }) := by
  induction m with
  | zero => intro s k _ _ h _ _ h'; omega
  | succ m ih =>
    intro s k hr hp hk hc hcb hm
    have hc' : s.cmdIn = own[k] :: (own.drop (k + 1) ++ rest) := by
      rw [hc, List.drop_eq_getElem_cons hk]; rfl
    have h1 := tick_byte hr.1 hr.2.1 hr.2.2 (.inr hp) hc'
    have hcb' : s.cb ++ [own[k]] = own.take (k + 1) := by rw [hcb]; simp
    simp only [ticks, h1]
    by_cases hl : k + 1 = own.length
    · have e : ({ s with cmdIn := own.drop (k + 1) ++ rest } : State).acceptByte own[k] = State.begin i
          { s with cb := own, cmdIn := rest } := by
        unfold State.acceptByte
        simp only [hp, reduceCtorEq, if_false, hcb']
        rw [List.take_of_length_le (by omega), hd, List.drop_eq_nil_of_le (by omega)]
        rfl
      rw [e, show m = 0 by omega, ticks]
    · have e : ({ s with cmdIn := own.drop (k + 1) ++ rest } : State).acceptByte own[k] =
          { s with cmdIn := own.drop (k + 1) ++ rest, cb := own.take (k + 1) } := by
        unfold State.acceptByte
        simp only [hp, reduceCtorEq, if_false, hcb']
        rw [decodeCommand_proper hd (by omega)]
      rw [e]
      exact ih _ (k + 1) hr hp (by omega) rfl rfl (by omega)

/-- The bytes of a command from `Idle` on, up to its begin. -/
theorem ticks_command {own : List Byte} {i : Instr} (hd : decodeCommand own = .ok (i, [])) {rest : List Byte}
    (s : State)
   (hr : Ready s) (hp : s.phase = .idle) (hc : s.cmdIn = own ++ rest) :
   ∃ n p, ticks n s = .next (State.begin i { s with cb := own, cmdIn := rest, phase := p }) := by
  cases own with
  | nil => simp [decodeCommand] at hd
  | cons b own =>
    have h1 := tick_byte hr.1 hr.2.1 hr.2.2 (.inl hp) hc
    by_cases hl : own = []
    · subst hl
      refine ⟨1, s.phase, ticks_one (h1.trans ?_)⟩
      unfold State.acceptByte
      simp only [hp, if_true]
      rw [hd]
      rfl
    · have hl' : 1 < (b :: own).length := by
        have := List.length_pos_iff.2 hl; simp; omega
      have e : ({ s with cmdIn := own ++ rest } : State).acceptByte b =
          { s with cmdIn := own ++ rest, cb := [b], phase := .receive } := by
        unfold State.acceptByte
        simp only [hp, if_true]
        have := decodeCommand_proper hd hl'
        simp only [List.take_succ_cons, List.take_zero] at this
        rw [this]
      have h2 := ticks_bytes hd (rest := rest) own.length
          { s with cmdIn := own ++ rest, cb := [b], phase := .receive } 1 hr rfl hl' (by simp) (by simp)
          (by simp; omega)
      exact ⟨_, .receive, ticks_trans (ticks_one (h1.trans (congrArg _ e))) h2⟩

/-- An animation step moves the cursor by one column. -/
theorem cursor_pos (s : State) (h : 6 * s.ci.toNat + s.sc.val < 6 * s.tlen.toNat) :
    6 * s.advanceCursor.ci.toNat + s.advanceCursor.sc.val = 6 * s.ci.toNat + s.sc.val + 1 := by
  have := s.tlen.isLt
  have hs := s.sc.isLt
  simp only [State.advanceCursor]
  split
  · rw [Fin.val_add]; simp; omega
  · rw [BitVec.toNat_add]; simp; omega

/-- After the last draw of an animation. -/
theorem afterDraw_last {s : State} (hp : s.phase = .animatingStep) (hc : s.advanceCursor.ci = s.tlen) (font : Font) :
    s.afterDraw font = { s.advanceCursor.respond okCode 0 with dsub := none } := by
  unfold State.afterDraw; rw [if_pos hp, if_pos hc]

/-- After a draw of an animation that goes on. -/
theorem afterDraw_again {s : State} (hp : s.phase = .animatingStep) (hc : s.advanceCursor.ci ≠ s.tlen) (font : Font) :
    s.afterDraw font = { s.advanceCursor.shiftIn font with dsub := some .dSelect } := by
  unfold State.afterDraw; rw [if_pos hp, if_neg hc]

/-- After the one draw of any other command. -/
theorem afterDraw_once {s : State} (hp : s.phase ≠ .animatingStep) (font : Font) :
    s.afterDraw font = { s.respond okCode 0 with dsub := none } := by
  unfold State.afterDraw; rw [if_neg hp]

/-- What a bitmap draw leaves alone. -/
theorem drawBitmap_form (s : State) : ∃ chip trace active, s.drawBitmap =
    { s with chip := chip, trace := trace, active := active, dx := 0, dy := 0, pi := 0 } :=
  ⟨_, _, _, by unfold State.drawBitmap; exact drawWith_eq s _⟩

/-- One step of an animation in progress is one step of the command's meaning. -/
theorem marqueeStep_dsub (w : State) (font : Font) (d : Option DrawSub) :
    ({ ({ w.shiftIn font with dsub := d } : State).drawBitmap.advanceCursor with dsub := none } : State) =
      ({ w with dsub := none } : State).marqueeStep font := by
  unfold State.marqueeStep State.drawBitmap
  simp only [drawWith_eq, State.shiftIn, State.advanceCursor, State.txtAt]

/-- The state in which the next animation step begins. -/
def State.again (w : State) : State := { w.shiftIn Config.font with dsub := some .dSelect }
theorem again_ready {w : State} (h : Ready w) : Ready w.again := by simp only [Ready, State.again, State.shiftIn]; exact h

/-- What the next animation step begins with. -/
theorem again_fields (w : State) : w.again.phase = w.phase ∧ w.again.dsub = some .dSelect ∧ w.again.ci = w.ci ∧
    w.again.sc = w.sc ∧ w.again.tlen = w.tlen := by simp only [State.again, State.shiftIn, and_self]
theorem again_step (w : State) : ({ w.again.drawBitmap.advanceCursor with dsub := none } : State) =
      ({ w with dsub := none } : State).marqueeStep Config.font := marqueeStep_dsub w _ _

/-- An animation from the beginning of any of its steps. -/
theorem ticks_marquee (m : Nat) : ∀ (s : State), Ready s → s.phase = .animatingStep → s.dsub = some .dSelect →
    6 * s.ci.toNat + s.sc.val + (m + 1) = 6 * s.tlen.toNat →
    ∃ n, ticks n s = .next ((State.marqueeSteps Config.font m
        { s.drawBitmap.advanceCursor with dsub := none }).respond okCode 0) := by
  induction m with
  | zero =>
    intro s hr hp hd hm
    obtain ⟨n, h⟩ := ticks_drawBitmap hr (.inr (.inr (.inl hp))) (by simp [hp]) hd
    have hc := cursor_pos s (by omega)
    obtain ⟨chip, tr, a, e⟩ := drawBitmap_form s
    rw [e] at h ⊢
    have : s.advanceCursor.ci = s.tlen := by
      apply BitVec.eq_of_toNat_eq
      have := s.sc.isLt
      have := s.advanceCursor.sc.isLt
      omega
    exact ⟨n, h.trans (congrArg _ (afterDraw_last (s :=
        { s with chip := chip, trace := tr, active := a, dx := 0, dy := 0, pi := 0, dsub := some .dFlip }) hp this Config.font))⟩
  | succ m ih =>
    intro s hr hp hd hm
    obtain ⟨n, h⟩ := ticks_drawBitmap hr (.inr (.inr (.inl hp))) (by simp [hp]) hd
    have hc := cursor_pos s (by omega)
    have hne : s.advanceCursor.ci ≠ s.tlen := by
      intro e; rw [e] at hc
      omega
    obtain ⟨chip, tr, a, e⟩ := drawBitmap_form s
    rw [e] at h ⊢
    obtain ⟨w, hw⟩ : ∃ w, w = ({ s with chip := chip, trace := tr, active := a, dx := 0, dy := 0, pi := 0 } : State).advanceCursor := ⟨_, rfl⟩
    replace h : ticks n s = .next w.again := by
      rw [hw]
      exact h.trans (congrArg _ (afterDraw_again (s :=
          { s with chip := chip, trace := tr, active := a, dx := 0, dy := 0, pi := 0, dsub := some .dFlip }) hp hne Config.font))
    have hw1 : 6 * w.ci.toNat + w.sc.val + (m + 1) = 6 * w.tlen.toNat := by
      rw [hw]
      change 6 * s.advanceCursor.ci.toNat + s.advanceCursor.sc.val + (m + 1) = 6 * s.tlen.toNat
      omega
    have hw2 : w.phase = .animatingStep := by rw [hw]; exact hp
    have hw3 : Ready w := by rw [hw]; exact hr
    rw [← hw]
    clear hw hc hne hm hp hr hd e
    obtain ⟨e1, e2, e3, e4, e5⟩ := again_fields w
    obtain ⟨n', h'⟩ := ih w.again (again_ready hw3) (e1.trans hw2) e2 (by rw [e3, e4, e5]; exact hw1)
    rw [again_step] at h'
    exact ⟨n + n', ticks_trans h h'⟩

end Sys2Proof.Machine
end

