-- ==== Sys2Proof/Tests/Slice0.lean ====
section
/-! SUPPORT. Tests. The expected values are the vectors of spec/95_test_vectors.md, its mapper table, or words written out
from the tables of 30_encoding.md; each test names its source. The witnesses at the end show, for every statement with
hypotheses, a state and operands that meet them. -/

open Sys2Proof Sys2Proof.Machine

namespace Sys2Proof.Tests

set_option maxRecDepth 20000

/-! ## Helpers -/

/-- The state an outcome goes on in. -/
def nextOf : Host.Outcome State Fault Refusal → State
  | .next t => t
  | .fault _ | .refused _ => State.reset

/-- `ACTIVE = TARGET = VISIBLE = 1`. -/
def frameOne : State := { State.reset with active := 1, chip := ⟨1, 1, []⟩ }

/-- The font of the vectors, `FONT[g][k] = (g * (k + 1)) mod 128`. -/
def testFont : Font := fun g k => BitVec.ofNat 7 (g.val * (k.val + 1))

/-- SCROLL from the launch state with the font of the vectors. -/
def scrollTest (text : List Byte) (b : BitVec 16) : State := (State.reset.loadScroll b text).scrollText testFont

/-- `SEL`, `CLR` and `PIX` as the vectors write them, through the driver words of R131 to R133. -/
def words (s : State) : List (BitVec 18) := s.trace.map Prim.word

/-- The image string of V40. -/
def zeros : List Byte :=
  (List.range 125).map fun p => if p % 18 = 17 then 0x3A else 0x30

/-! ## Well-formedness -/

theorem test_wf_scroll_too_long : (Instr.scroll 30 (List.replicate 256 65)).wellFormed = false := by decide
theorem test_wf_scroll_longest : (Instr.scroll 30 (List.replicate 255 65)).wellFormed = true := by decide
theorem test_wf_pixels_too_many : (Instr.pixels (List.replicate 256 ⟨0, 0, 1⟩)).wellFormed = false := by decide
theorem test_wf_imgstr_too_long : (Instr.imgstr (List.replicate 256 0x30)).wellFormed = false := by decide
theorem test_wf_setPixel_no_column : (Instr.setPixel 9 0 30).wellFormed = false := by decide

/-! ## Decoding: words written out from R84 and R88, one per constructor -/

theorem test_decode_clear : decodeCommand [0x01] = .ok (.clear, []) := by decide
/-- `SCROLL "Hi", 300`: brightness 300 is `2C 01`. -/
theorem test_decode_scroll :
    decodeCommand [0x02, 0x2C, 0x01, 0x02, 0x48, 0x69, 0x07] = .ok (.scroll 300 [0x48, 0x69], [0x07]) := by decide
/-- `SCROLLN −5, 30` of V23. -/
theorem test_decode_scrolln :
    decodeCommand [0x03, 0x1E, 0x00, 0xFB, 0xFF, 0xFF, 0xFF] = .ok (.scrolln 30 (BitVec.ofInt 32 (-5)), []) := by decide
/-- V13: brightness −5 is `FB FF`. -/
theorem test_decode_draw :
    decodeCommand [0x04, 0xFB, 0xFF, 0x81, 0, 0, 0, 0, 0, 0, 0, 0, 0, 0, 0, 0, 0, 0, 0, 0x40] =
      .ok (.draw (BitVec.ofInt 16 (-5)) #v[0x81, 0, 0, 0, 0, 0, 0, 0, 0, 0, 0, 0, 0, 0, 0, 0, 0x40], []) := by decide
/-- V46. -/
theorem test_decode_pixels :
    decodeCommand [0x05, 0x02, 0, 0, 1, 0x11, 0, 1] = .ok (.pixels [⟨0, 0, 1⟩, ⟨17, 0, 1⟩], []) := by decide
theorem test_decode_imgstr : decodeCommand [0x06, 0x02, 0x39, 0x3A, 0x01] = .ok (.imgstr [0x39, 0x3A], [0x01]) := by
  decide
/-- V3. -/
theorem test_decode_paddr : decodeCommand [0x07, 0x08, 0x03] = .ok (.paddr 8 3, []) := by decide
/-- `01`, 14 zeros, show, id. -/
theorem test_decode_selectFrame : decodeDriver 0b01_00000000000000_1_0#18 = .ok (.selectFrame 0 true) := by decide
/-- `10`, 16 zeros. -/
theorem test_decode_clearFrame : decodeDriver 0b10_0000000000000000#18 = .ok .clearFrame := by decide
/-- `11`, column 8, row 4, brightness 30: the word `0x3841E` of S3. -/
theorem test_decode_setPixel : decodeDriver 0b11_1000_0100_00011110#18 = .ok (.setPixel 8 4 30) := by decide
/-- Reserved bits and the code 00 are no primitive (R99). -/
theorem test_decode_reserved : decodeDriver 0x10004 = .error .driverReservedBits ∧
    decodeDriver 0x20001 = .error .driverReservedBits ∧ decodeDriver 0x00000 = .error .driverOpNone := by decide
/-- V53 to V55. -/
theorem test_decode_illegal : decodeCommand [0x00] = .error (.illegalOpcode 0) ∧
    decodeCommand [0x08, 0x01] = .error (.illegalOpcode 8) ∧ decodeCommand [0xFF] = .error (.illegalOpcode 0xFF) := by
  decide
theorem test_decode_incomplete : decodeCommand [0x02, 0x1E, 0x00, 0x03, 0x61, 0x62] = .error .incomplete ∧
    decodeCommand [] = .error .incomplete := by decide
theorem test_encode_draw : encode (.draw 300 #v[1, 0, 0, 0, 0, 0, 0, 0, 0, 0, 0, 0, 0, 0, 0, 0, 2]) =
    .command [0x04, 0x2C, 0x01, 0x01, 0, 0, 0, 0, 0, 0, 0, 0, 0, 0, 0, 0, 0, 0, 0, 0x02] := by decide
theorem test_table_words : decodeTableWord 8 0x01 = some .clear ∧ decodeTableWord 8 0x02 = some (.scroll 0 []) ∧
    decodeTableWord 24 0x10000 = some (.selectFrame 0 false) ∧ decodeTableWord 24 0x30000 = some (.setPixel 0 0 0) := by
  decide

/-! ## The mapper: section 2 of the vectors, row by row -/

theorem test_map_rows : (List.finRange 7).map (fun y => (List.finRange 17).map fun x => (mapIndex x y).toNat) =
    [[7, 23, 39, 55, 71, 87, 103, 119, 135, 136, 120, 104, 88, 72, 56, 40, 24],
     [6, 22, 38, 54, 70, 86, 102, 118, 134, 137, 121, 105, 89, 73, 57, 41, 25],
     [5, 21, 37, 53, 69, 85, 101, 117, 133, 138, 122, 106, 90, 74, 58, 42, 26],
     [4, 20, 36, 52, 68, 84, 100, 116, 132, 139, 123, 107, 91, 75, 59, 43, 27],
     [3, 19, 35, 51, 67, 83, 99, 115, 131, 140, 124, 108, 92, 76, 60, 44, 28],
     [2, 18, 34, 50, 66, 82, 98, 114, 130, 141, 125, 109, 93, 77, 61, 45, 29],
     [1, 17, 33, 49, 65, 81, 97, 113, 129, 142, 126, 110, 94, 78, 62, 46, 30]] := by decide

/-! ## The instructions -/

/-- V30. -/
theorem test_clear : words (nextOf (exec .clear frameOne)) = [0x20000] ∧
    (nextOf (exec .clear frameOne)).rsp = some 0x0000 ∧ (nextOf (exec .clear frameOne)).active = 1 := by decide
theorem test_clear_cells : memRead (cellAddr 1 143) (nextOf (exec .clear frameOne)).chip.fm = some 0 ∧
    memRead (cellAddr 0 143) (nextOf (exec .clear frameOne)).chip.fm = none := by decide

/-- V22: the three cells side by side, one draw of 44 primitives. -/
theorem test_scroll_static : (scrollTest [65, 66, 67] 30).sb = #v[0x21, 0x42, 0x63, 0x04, 0x25, 0x00, 0x22, 0x44, 0x66,
      0x08, 0x2A, 0x00, 0x23, 0x46, 0x69, 0x0C, 0x2F] ∧
    (scrollTest [65, 66, 67] 30).trace.length = 44 ∧ (scrollTest [65, 66, 67] 30).active = 1 := by decide
/-- V42. -/
theorem test_scroll_unrenderable : (nextOf (exec (.scroll 30 [0x61, 0x62, 0x7F]) State.reset)).rsp = some 0x0102 ∧
    (nextOf (exec (.scroll 30 [0x61, 0x62, 0x7F]) State.reset)).trace = [] := by decide
/-- V25, steps 0 and 1 of 24: cursor, bitmap and words. -/
theorem test_scroll_animated :
    let u := State.marqueeSteps testFont 2 (State.reset.loadScroll 300 [65, 66, 67, 68]).startMarquee
    u.sb = #v[0, 0, 0, 0, 0, 0, 0, 0, 0, 0, 0, 0, 0, 0, 0, 0x21, 0x42] ∧ u.ci = 0 ∧ u.sc = 2 ∧ u.active = 0 ∧
    words u = [0x10001, 0x20000, 0x318FF, 0x31DFF, 0x10003,
      0x10000, 0x20000, 0x328FF, 0x32DFF, 0x319FF, 0x31EFF, 0x10002] := by decide

/-- V23. -/
theorem test_scrolln : (scrollTest (dec (BitVec.ofInt 32 (-5))) 30).sb = #v[0x0D, 0x1A, 0x27, 0x34, 0x41, 0x00, 0x15, 0x2A,
      0x3F, 0x54, 0x69, 0, 0, 0, 0, 0, 0] ∧ (scrollTest (dec (BitVec.ofInt 32 (-5))) 30).trace.length = 37 := by decide
/-- V24: the longest decimal text, `-2147483648`. -/
theorem test_scrolln_dec : dec 0x80000000 = [45, 50, 49, 52, 55, 52, 56, 51, 54, 52, 56] ∧ dec 0 = [48] := by decide

/-- V13: bit 7 of `81` is ignored, brightness −5 is 0, and the pixels are still emitted. -/
theorem test_draw : words (nextOf (exec
      (.draw (BitVec.ofInt 16 (-5)) #v[0x81, 0, 0, 0, 0, 0, 0, 0, 0, 0, 0, 0, 0, 0, 0, 0, 0x40]) State.reset)) =
    [0x10001, 0x20000, 0x30700, 0x31E00, 0x10003] := by decide
/-- V17: the two columns on either side of the split. -/
theorem test_draw_split : (words (nextOf (exec
      (.draw 30 #v[0, 0, 0, 0, 0, 0, 0, 0, 0x7F, 0x7F, 0, 0, 0, 0, 0, 0, 0]) State.reset))).map
        (fun w => (w.extractLsb' 8 8).toNat) =
    [0, 0, 135, 134, 133, 132, 131, 130, 129, 136, 137, 138, 139, 140, 141, 142, 0] := by decide

/-- V31. -/
theorem test_pixels : words (nextOf (exec (.pixels [⟨0, 0, 9⟩, ⟨16, 6, 5⟩, ⟨8, 3, 0xFD⟩, ⟨8, 3, 12⟩, ⟨9, 0, 1⟩])
      State.reset)) = [0x10001, 0x20000, 0x307FF, 0x31E8D, 0x38400, 0x384FF, 0x3881C, 0x10003] := by decide
/-- V46. -/
theorem test_pixels_off_panel : (nextOf (exec (.pixels [⟨0, 0, 1⟩, ⟨17, 0, 1⟩]) State.reset)).rsp = some 0x0301 ∧
    (nextOf (exec (.pixels [⟨0, 0, 1⟩, ⟨17, 0, 1⟩]) State.reset)).trace = [] := by decide

/-- V41: `9` at position 0, `5` at 16, `3` at 116. -/
theorem test_imgstr : ((nextOf (exec (.imgstr (((zeros.set 0 0x39).set 16 0x35).set 116 0x33)) State.reset)).chip.fm.filter
      fun c => c.2 ≠ 0) = [(144 + 7, 255), (144 + 24, 141), (144 + 129, 85)] := by decide
/-- V50, V51 and V52. -/
theorem test_imgstr_malformed : (nextOf (exec (.imgstr (zeros ++ [0x3A])) State.reset)).rsp = some 0x027D ∧
    (nextOf (exec (.imgstr (zeros.set 17 0x30)) State.reset)).rsp = some 0x0211 ∧
    (nextOf (exec (.imgstr (zeros.set 40 0x61)) State.reset)).rsp = some 0x0228 := by decide

/-- V3 and V7. -/
theorem test_paddr : (nextOf (exec (.paddr 8 3) State.reset)).rsp = some 0x0084 ∧
    (nextOf (exec (.paddr 9 6) State.reset)).rsp = some 0x008E := by decide
/-- V10 and V11. -/
theorem test_paddr_off_panel : (nextOf (exec (.paddr 17 0) State.reset)).rsp = some 0x0300 ∧
    (nextOf (exec (.paddr 0 7) State.reset)).rsp = some 0x0300 := by decide

/-- R131: aiming at a frame does not show it. -/
theorem test_selectFrame : (nextOf (exec (.selectFrame 1 false) State.reset)).chip = ⟨1, 0, []⟩ ∧
    (nextOf (exec (.selectFrame 1 true) State.reset)).chip = ⟨1, 1, []⟩ := by decide
/-- R132: all 144 cells of the aimed-at frame, none of the other. -/
theorem test_clearFrame : (nextOf (exec .clearFrame frameOne)).chip.fm = (List.range 144).map fun k => (144 + k, 0) := by
  decide
/-- R133, at the last cell of a frame. -/
theorem test_setPixel : (nextOf (exec (.setPixel 8 15 30) frameOne)).chip.fm = [(287, 30)] := by decide
/-- R58: there is no column 9. -/
theorem test_setPixel_no_cell : exec (.setPixel 9 0 30) State.reset = .fault .noSuchCell := rfl

/-! ## Steps -/

/-- V54: an illegal opcode is one byte. -/
theorem test_step_illegal : (nextOf (step { State.reset with cmdIn := [0x08, 0x01] })).rsp = some 0x0408 ∧
    (nextOf (step { State.reset with cmdIn := [0x08, 0x01] })).cmdIn = [0x01] := by decide
/-- S3 as bytes. -/
theorem test_step_paddr : (nextOf (step { State.reset with cmdIn := [0x07, 0x08, 0x03, 0x01] })).rsp = some 0x0084 ∧
    (nextOf (step { State.reset with cmdIn := [0x07, 0x08, 0x03, 0x01] })).cmdIn = [0x01] := by decide
theorem test_step_fetches : (nextOf (step (State.reset.withFetchWord 24 0x10003))).chip = ⟨1, 1, []⟩ ∧
    (nextOf (step (State.reset.withFetchWord 8 0x07))).rsp = some 0x0007 := by decide

/-! ## Witnesses: the hypotheses of every statement can be met -/

/-- A state in the middle of a bitmap draw, with nothing presented. -/
def drawing (d : DrawSub) (target : FrameId) (word : Option (BitVec 18)) : State :=
  { State.reset with phase := .bitmapDraw, dsub := some d, drv := word, chip := ⟨target, 0, []⟩ }

/-- A response waits. -/
def responding : State := { State.reset with phase := .respond, err := 3, rsp := some 0x0300 }

/-- CLEAR has presented its primitive. -/
def clearingNow : State := { State.reset with phase := .clearing, cb := [1], drv := some 0x20000 }

/-- `Idle`, with a command and a byte more to come. -/
def waiting (bytes : List Byte) : State := { State.reset with cmdIn := bytes }

theorem witness_DecodeOfEncode : (Instr.scroll 0xFFFF (List.replicate 255 0)).wellFormed = true ∧
    (Instr.setPixel 8 15 255).wellFormed = true := by decide
theorem witness_DecodedBytesAreTheEncoding :
    decodeCommand [0x05, 0x01, 0xFF, 0xFF, 0xFF, 0x00] = .ok (.pixels [⟨0xFF, 0xFF, 0xFF⟩], [0x00]) := by decide
theorem witness_DriverWordForms : decodeDriver 0x3FFFF = .ok (.setPixel 15 15 255) ∧
    (0x0FFFF : BitVec 18).extractLsb' 16 2 = 0b00#2 ∧
    ((0x10004 : BitVec 18).extractLsb' 16 2 = 0b01#2 ∧ (0x10004 : BitVec 18).extractLsb' 2 14 ≠ 0) ∧
    ((0x28000 : BitVec 18).extractLsb' 16 2 = 0b10#2 ∧ (0x28000 : BitVec 18).extractLsb' 0 16 ≠ 0) ∧
    (0x30000 : BitVec 18).extractLsb' 16 2 = 0b11#2 := by decide
theorem witness_CommandLengths : (Instr.imgstr [0x30]).wellFormed = true ∧
    encode (.imgstr [0x30]) = .command [0x06, 0x01, 0x30] ∧ 2 < [0x06, 0x01, (0x30 : Byte)].length := by decide
theorem witness_NormalisedText : ([65] : List Byte).length = 1 ∧ ([65, 66] : List Byte).length = 2 ∧
    ([65, 66, 67] : List Byte).length = 3 ∧ ([] : List Byte).length = 0 ∧ 4 ≤ ([65, 66, 67, 68] : List Byte).length := by
  decide
theorem witness_GlyphColumns : (32 ≤ (32 : Byte).toNat ∧ (32 : Byte).toNat ≤ 126) ∧
    (32 ≤ (126 : Byte).toNat ∧ (126 : Byte).toNat ≤ 126) := by decide
theorem witness_MapperClosedForms : (8 : PanelX).val ≤ 8 ∧ 9 ≤ (9 : PanelX).val ∧ 9 ≤ (16 : PanelX).val := by decide
theorem witness_MapperBlock : ((16 : BitVec 5).toNat ≤ 16 ∧ (6 : BitVec 3).toNat ≤ 6) ∧ (mapBlock 16 6).ok = true ∧
    (mapBlock 16 7).ok = false ∧ (mapBlock 17 6).ok = false := by decide
theorem witness_PaddrOnPanel : ((16 : Byte).toNat ≤ 16 ∧ (6 : Byte).toNat ≤ 6) ∧
    ((8 : Byte).toNat ≤ 16 ∧ (0 : Byte).toNat ≤ 6) := by decide
theorem witness_PaddrOffPanel : (16 < (17 : Byte).toNat ∨ 6 < (0 : Byte).toNat) ∧
    (16 < (0 : Byte).toNat ∨ 6 < (7 : Byte).toNat) := by decide
theorem witness_SetPixelEffect : (8 : BitVec 4).toNat ≤ 8 := by decide
theorem witness_SetPixelWithoutCell : 8 < (9 : BitVec 4).toNat := by decide
theorem witness_CollaboratorIsTheFoldOfTheTrace :
    ∃ t, step (drawing .dSelect 0 (some 0x10001)) = .next t ∧ t.trace = [.selectFrame 1 false] := ⟨_, rfl, rfl⟩
theorem witness_DrawPrimitiveCounts :
    ∃ t, exec (.draw 30 (Vector.replicate 17 0)) frameOne = .next t := ⟨_, rfl⟩
theorem witness_ShownFrameIsDefined_scroll : ∃ t, exec (.scroll 30 [32]) frameOne = .next t ∧ t.err = 0 :=
  ⟨_, rfl, by decide⟩
theorem witness_ShownFrameIsDefined_scrolln : ∃ t, exec (.scrolln 30 5) frameOne = .next t ∧ t.err = 0 :=
  ⟨_, rfl, by decide⟩
theorem witness_ShownFrameIsDefined_draw :
    ∃ t, exec (.draw 30 (Vector.replicate 17 0x7F)) frameOne = .next t ∧ t.err = 0 := ⟨_, rfl, rfl⟩
theorem witness_ShownFrameIsDefined_pixels : ∃ t, exec (.pixels [⟨16, 6, 9⟩]) frameOne = .next t ∧ t.err = 0 :=
  ⟨_, rfl, by decide⟩
theorem witness_ShownFrameIsDefined_imgstr :
    ∃ t, exec (.imgstr zeros) frameOne = .next t ∧ t.err = 0 ∧ (Instr.imgstr zeros).wellFormed = true :=
  ⟨_, rfl, by decide, by decide⟩
theorem witness_StaticScroll : (1 ≤ [(32 : Byte)].length ∧ [(32 : Byte)].length ≤ 3 ∧
      ∀ c ∈ [(32 : Byte)], 32 ≤ c.toNat ∧ c.toNat ≤ 126) ∧
    ([(126 : Byte), 32, 126].length ≤ 3 ∧ ∀ c ∈ [(126 : Byte), 32, 126], 32 ≤ c.toNat ∧ c.toNat ≤ 126) := by decide
theorem witness_MarqueeFrames : 0 ≤ 6 * State.reset.tlen.toNat ∧
    24 ≤ 6 * ({ State.reset with tlen := 4 } : State).tlen.toNat := by decide
theorem witness_AnimatedScroll : (([] : List Byte).length = 0 ∨ 4 ≤ ([] : List Byte).length) ∧
    (4 ≤ (List.replicate 255 (126 : Byte)).length ∧ (List.replicate 255 (126 : Byte)).length ≤ 255 ∧
      ∀ c ∈ List.replicate 255 (126 : Byte), 32 ≤ c.toNat ∧ c.toNat ≤ 126) := by decide
theorem witness_UnrenderableTextStops : ¬ (32 ≤ ([0x1F] : List Byte)[0].toNat ∧ ([0x1F] : List Byte)[0].toNat ≤ 126) ∧
    ¬ (32 ≤ ([32, 126, 0x7F] : List Byte)[2].toNat ∧ ([32, 126, 0x7F] : List Byte)[2].toNat ≤ 126) ∧
    (∀ m, (hm : m < 2) → 32 ≤ (([32, 126, 0x7F] : List Byte)[m]'(by simp; omega)).toNat ∧
      (([32, 126, 0x7F] : List Byte)[m]'(by simp; omega)).toNat ≤ 126) := by decide
theorem witness_ClearBlanksTheVisibleFrame : frameOne.Settled := ⟨rfl, rfl⟩
theorem witness_PixelListResult : ([] : List Triple).length ≤ 255 ∧
    (List.replicate 255 (⟨16, 6, 0x80⟩ : Triple)).length ≤ 255 ∧
    ∀ t ∈ List.replicate 255 (⟨16, 6, 0x80⟩ : Triple), t.x.toNat ≤ 16 ∧ t.y.toNat ≤ 6 := by decide
theorem witness_OffPanelListStops :
    ¬ (([⟨16, 6, 1⟩, ⟨17, 0, 1⟩] : List Triple)[1].x.toNat ≤ 16 ∧ ([⟨16, 6, 1⟩, ⟨17, 0, 1⟩] : List Triple)[1].y.toNat ≤ 6) ∧
    (([⟨16, 6, 1⟩, ⟨17, 0, 1⟩] : List Triple)[0].x.toNat ≤ 16 ∧ ([⟨16, 6, 1⟩, ⟨17, 0, 1⟩] : List Triple)[0].y.toNat ≤ 6) ∧
    ¬ (([⟨0, 7, 9⟩] : List Triple)[0].x.toNat ≤ 16 ∧ ([⟨0, 7, 9⟩] : List Triple)[0].y.toNat ≤ 6) := by decide
/-- V48 to V51: the first and the last position, one too few, one too many, and a well-formed string. -/
theorem witness_ImageStringDefect : imageDefect [] = some 0 ∧ imageDefect (zeros.take 124) = some 124 ∧
    imageDefect (zeros ++ [0x30]) = some 125 ∧ imageDefect (zeros.set 124 0x3A) = some 124 ∧
    imageDefect zeros = none := by decide
theorem witness_MalformedImageStops : imageDefect (zeros.set 17 0x30) = some 17 ∧ imageDefect [] = some 0 := by decide
theorem witness_ImageStringIsItsPixelList : imageDefect (zeros.set 0 0x39) = none := by decide
theorem witness_ErrorsLeaveNoTrace : ∃ t, exec (.paddr 17 0) frameOne = .next t ∧ t.err ≠ 0 := ⟨_, rfl, by decide⟩
theorem witness_EveryCommandResponds : Instr.clear.isCommand = true ∧ (Instr.scroll 0 []).isCommand = true ∧
    (Instr.scrolln 0 0).isCommand = true ∧ (Instr.draw 0 (Vector.replicate 17 0)).isCommand = true ∧
    (Instr.pixels []).isCommand = true ∧ (Instr.imgstr []).isCommand = true ∧ (Instr.paddr 0 0).isCommand = true := by
  decide
theorem witness_OneErrorKindPerCommand : (∃ t, exec (.scroll 0 [0]) frameOne = .next t ∧ t.err = 1) ∧
    (∃ t, exec (.imgstr []) frameOne = .next t ∧ t.err = 2) ∧
    (∃ t, exec (.pixels [⟨17, 0, 0⟩]) frameOne = .next t ∧ t.err = 3) ∧
    (∃ t, exec .clear frameOne = .next t ∧ t.err = 0) :=
  ⟨⟨_, rfl, by decide⟩, ⟨_, rfl, by decide⟩, ⟨_, rfl, by decide⟩, ⟨_, rfl, rfl⟩⟩
theorem witness_StepRunsTheDecodedCommand : (waiting [0x07, 16, 6, 0]).rst = false ∧ (waiting [0x07, 16, 6, 0]).phase = .idle ∧
    (waiting [0x07, 16, 6, 0]).drv = none ∧ (waiting [0x07, 16, 6, 0]).rsp = none ∧
    decodeCommand (waiting [0x07, 16, 6, 0]).cmdIn = .ok (.paddr 16 6, [0]) := by decide
theorem witness_StepCarriesOutTheDriverWord_idle : ({ State.reset with drv := some 0x384FF } : State).rst = false ∧
    ({ State.reset with drv := some 0x384FF } : State).phase = .idle ∧
    decode (.driver 0x384FF) = .ok (.setPixel 8 4 255, []) ∧
    decode (.driver 0x39000) = .ok (.setPixel 9 0 0, []) := by decide
theorem witness_StepCarriesOutTheDriverWord_fault :
    exec (.setPixel 9 0 0) { State.reset with drv := none } = .fault .noSuchCell := rfl
theorem witness_StepCarriesOutTheDriverWord_clearing : clearingNow.phase = .clearing ∧
    clearingNow.drv = some 0x20000 ∧ decode (.driver 0x20000) = .ok (.clearFrame, []) ∧
    (∃ t, exec .clearFrame { clearingNow with drv := none } = .next t) := ⟨rfl, rfl, rfl, _, rfl⟩
theorem witness_StepCarriesOutTheDriverWord_select : (drawing .dSelect 0 (some 0x10001)).phase = .bitmapDraw ∧
    decode (.driver 0x10001) = .ok (.selectFrame 1 false, []) ∧
    (∃ t, exec (.selectFrame 1 false) { drawing .dSelect 0 (some 0x10001) with drv := none } = .next t) :=
  ⟨rfl, rfl, _, rfl⟩
theorem witness_StepCarriesOutTheDriverWord_clear : (drawing .dClear 1 (some 0x20000)).dsub = some .dClear ∧
    (∃ t, exec .clearFrame { drawing .dClear 1 (some 0x20000) with drv := none } = .next t) := ⟨rfl, _, rfl⟩
/-- The last pixel, the last of a column, one inside a column, and a triple. -/
theorem witness_StepCarriesOutTheDriverWord_pixels : decode (.driver 0x31E1E) = .ok (.setPixel 1 14 30, []) ∧
    ({ drawing .dPixels 1 (some 0x31E1E) with dx := 16, dy := 6 } : State).dx.val = 16 ∧
    ({ drawing .dPixels 1 (some 0x31E1E) with dx := 15, dy := 6 } : State).dx.val < 16 ∧
    ({ drawing .dPixels 1 (some 0x31E1E) with dy := 5 } : State).dy.val < 6 ∧
    ({ drawing .dPixels 1 (some 0x31E1E) with phase := .pixelDraw } : State).dsub = some .dPixels ∧
    (∃ t, exec (.setPixel 1 14 30) { drawing .dPixels 1 (some 0x31E1E) with drv := none } = .next t) :=
  ⟨by decide, rfl, by decide, by decide, rfl, _, rfl⟩
/-- Before the flip of step `sc` of the fourth of four text bytes. -/
def animating (sc : Fin 6) : State :=
  { drawing .dFlip 1 (some 0x10003) with phase := .animatingStep, ci := 3, sc := sc, tlen := 4 }
/-- The flip of a single draw, of an animation that goes on, and of its last draw. -/
theorem witness_StepCarriesOutTheDriverWord_flip : decode (.driver 0x10003) = .ok (.selectFrame 1 true, []) ∧
    (drawing .dFlip 1 (some 0x10003)).phase ≠ .animatingStep ∧
    (∃ t, exec (.selectFrame 1 true) { drawing .dFlip 1 (some 0x10003) with drv := none } = .next t) ∧
    (animating 4).phase = .animatingStep ∧ (animating 4).sc.val < 5 ∧ (animating 4).ci ≠ (animating 4).tlen ∧
    ¬ (animating 5).sc.val < 5 ∧ (animating 5).ci + 1 = (animating 5).tlen :=
  ⟨rfl, by decide, ⟨_, rfl⟩, rfl, by decide, by decide, by decide, by decide⟩
theorem witness_IllegalOpcodeByte : (waiting [0x00]).cmdIn = [0x00] ∧ (waiting [0x08, 1]).cmdIn = 0x08 :: [1] ∧
    8 ≤ (0x08 : Byte).toNat ∧ 8 ≤ (0xFF : Byte).toNat ∧ (waiting [0x08, 1]).phase = .idle := by decide
theorem witness_StepsOutsideCommands : (responding.rst = false ∧ responding.drv = none ∧ responding.rsp = some 0x0300) ∧
    ((waiting []).phase = .idle ∧ (waiting []).cmdIn = []) ∧
    (({ State.reset with phase := .receive, cb := [2] } : State).phase = .receive) := by decide

/-! ### States of the invariant -/

theorem witness_Inv_waiting (bytes : List Byte) : (waiting bytes).Inv :=
  ⟨rfl, ⟨.nil, fun _ h => absurd h List.not_mem_nil⟩, Nat.zero_le 4, ⟨⟨rfl, rfl, rfl, rfl, rfl⟩, rfl⟩⟩
theorem witness_Inv_receive : ({ State.reset with phase := .receive, cb := [2, 30] } : State).Inv :=
  ⟨rfl, by decide, by decide, ⟨⟨rfl, rfl, rfl, rfl, rfl⟩, by decide, by decide⟩⟩
theorem witness_Inv_normalizing : ({ State.reset with phase := .normalizing, cb := [5, 0] } : State).Inv :=
  ⟨rfl, by decide, by decide, ⟨⟨rfl, rfl, rfl, rfl, rfl⟩, .pixels [], rfl, .inr (.inr (.inl ⟨_, rfl⟩))⟩⟩
theorem witness_Inv_select : (drawing .dSelect 0 (some 0x10001)).Inv :=
  ⟨rfl, by decide, by decide, ⟨rfl, .dSelect, rfl, ⟨rfl, rfl⟩, .inr rfl⟩⟩
theorem witness_Inv_pixels : (drawing .dPixels 1 (some 0x3841E)).Inv :=
  ⟨rfl, by decide, by decide, ⟨rfl, .dPixels, rfl, ⟨rfl, rfl⟩, .inr ⟨8, 3, 30, rfl⟩⟩⟩
theorem witness_Inv_flip : (drawing .dFlip 1 (some 0x10003)).Inv :=
  ⟨rfl, by decide, by decide, ⟨rfl, .dFlip, rfl, ⟨rfl, rfl⟩, .inr rfl⟩⟩
theorem witness_Inv_clearing : clearingNow.Inv := ⟨rfl, by decide, by decide, ⟨rfl, rfl, ⟨rfl, rfl⟩, .inr rfl⟩⟩
theorem witness_Inv_responding : responding.Inv := ⟨rfl, by decide, by decide, ⟨rfl, rfl, ⟨rfl, rfl⟩, rfl, 0, rfl⟩⟩

/-- A presented primitive and a waiting response, each with an event that is not its acceptance. -/
theorem witness_HandshakesHold : (∃ t, portStep (.rst false) (drawing .dPixels 1 (some 0x3841E)) = some t) ∧
    (∃ t, portStep (.rst false) responding = some t) := ⟨⟨_, rfl⟩, ⟨_, rfl⟩⟩
theorem witness_StepKeepsTheInvariant : ∃ t, step (waiting [0x01]) = .next t ∧ t.phase = .respond := ⟨_, rfl, rfl⟩
theorem witness_TickKeepsTheInvariant : ∃ t, tick (waiting [0x04]) = .next t ∧ t.phase = .receive := ⟨_, rfl, rfl⟩
theorem witness_OnlyStuckInReceive :
    step { State.reset with phase := .receive, cb := [2, 30] } = .fault .stuckInReceive := rfl
/-- A cell is written, the shown frame is blanked, the frames are flipped. -/
theorem witness_NoTearing : (∃ t, tick (drawing .dPixels 1 (some 0x3841E)) = .next t ∧ t.chip.fm = [(276, 30)]) ∧
    (∃ t, tick clearingNow = .next t ∧ t.chip.fm.length = 144) ∧
    (∃ t, tick (drawing .dFlip 1 (some 0x10003)) = .next t ∧ t.chip.visible = 1) :=
  ⟨⟨_, rfl, by decide⟩, ⟨_, rfl, by decide⟩, ⟨_, rfl, rfl⟩⟩
theorem witness_InactiveFrameKept : (∃ t, tick clearingNow = .next t) ∧ clearingNow.dsub = none := ⟨⟨_, rfl⟩, rfl⟩
theorem witness_PhaseGraph :
    ∃ t, tick { State.reset with phase := .normalizing, cb := [5, 0] } = .next t ∧ t.phase = .pixelDraw := ⟨_, rfl, rfl⟩
theorem witness_PortsRefineCommands : (Instr.paddr 8 3).wellFormed = true ∧ encode (.paddr 8 3) = .command [0x07, 8, 3] ∧
    (waiting ([0x07, 8, 3] ++ [1])).dsub = none ∧ (waiting ([0x07, 8, 3] ++ [1])).cb = [] ∧
    (waiting ([0x07, 8, 3] ++ [1])).cmdIn = [0x07, 8, 3] ++ [1] := by decide
theorem witness_SequencerReturnsToIdle : (drawing .dPixels 1 (some 0x3841E)).phase ≠ .idle ∧
    (drawing .dPixels 1 (some 0x3841E)).phase ≠ .receive := by decide

end Sys2Proof.Tests
end

section
/-! Proofs of the family 40_mapper.md: the closed forms of the coordinate mapper (R120 to R123). -/

namespace Sys2Proof.Machine

/-- The left half keeps the column and flips the rows (R120, R121); the 8-bit index does not wrap (R123). -/
theorem mapIndex_toNat_left {x : PanelX} (y : PanelY) (hx : x.val ≤ 8) :
    (mapIndex x y).toNat = x.val * 16 + (7 - y.val) := by
  rw [mapIndex, if_neg (by omega), BitVec.toNat_ofNat, Nat.mod_eq_of_lt (by omega)]

/-- The right half mirrors the columns and moves to the second row bank (R120); the 8-bit index does not wrap (R123). -/
theorem mapIndex_toNat_right {x : PanelX} (y : PanelY) (hx : 9 ≤ x.val) :
    (mapIndex x y).toNat = (17 - x.val) * 16 + (y.val + 8) := by
  rw [mapIndex, if_pos (by omega), BitVec.toNat_ofNat, Nat.mod_eq_of_lt (by omega)]

/-- Settles O13: one closed form per half, and the boundary column 8 as an instance of the left one (R121, R122). -/
theorem mapperClosedForms : Obligations.MapperClosedForms := by
  refine ⟨fun _ y => mapIndex_toNat_left y, fun _ y => mapIndex_toNat_right y, ?boundary⟩
  case boundary => exact BitVec.eq_of_toNat_eq (mapIndex_toNat_left 3 (Nat.le_refl 8))

end Sys2Proof.Machine
end

section
/-! Proofs of the family 42_scroll.md: normalisation (R151) and the columns of a character cell (R152). -/

namespace Sys2Proof.Machine

/-! ## Normalisation -/

/-- The padding is spaces alone, as many as the normalised length asks for. -/
theorem normalise_eq_append_replicate (text : List Byte) :
    normalise text = text ++ List.replicate ((normalise text).length - text.length) Config.space := by
  obtain ⟨pad, hp, hs⟩ := normalise_append text
  rw [hp, List.length_append, Nat.add_sub_cancel_left, ← List.eq_replicate_of_mem hs]

/-- A text of 1 to 3 characters is filled up to 3. -/
theorem normalise_of_short {text : List Byte} (h : 1 ≤ text.length ∧ text.length ≤ 3) :
    normalise text = text ++ List.replicate (3 - text.length) Config.space := by
  have hn := normalise_eq_append_replicate text
  rwa [normalise_length, if_pos h] at hn

theorem normalise_length_eq_three_iff (text : List Byte) :
    (normalise text).length = 3 ↔ 1 ≤ text.length ∧ text.length ≤ 3 := by
  rw [normalise_length]; split <;> omega

theorem normalise_length_ge_three (text : List Byte) :
    (normalise text).length = 3 ∨ 4 ≤ (normalise text).length := by
  rw [normalise_length]; split <;> omega

/-- Settles O10: the spaces added are counted by the length of the text; from 3 characters on there are none. -/
theorem normalisedText : Obligations.NormalisedText := by
  refine fun text => ⟨fun h => ?one, fun h => ?two, fun h => normalise_of_normal text (by omega), fun h => ?empty,
    fun h => normalise_of_normal text (by omega), normalise_length_ge_three text, normalise_length_eq_three_iff text⟩
  case one => rw [normalise_of_short (by omega), h]; rfl
  case two => rw [normalise_of_short (by omega), h]; rfl
  case empty => rw [List.length_eq_zero_iff.mp h]; rfl

/-! ## The character cell -/

theorem glyphOf?_of_le {c : Byte} (h : 32 ≤ c.toNat ∧ c.toNat ≤ 126) :
    glyphOf? c = some ⟨c.toNat - 32, by omega⟩ := dif_pos h

/-- The font ROM is laid out glyph after glyph, five columns each (R30). -/
theorem fontRom_glyph_column (font : Font) (g : Glyph) (k : Fin 5) :
    fontRom font ⟨g.val * 5 + k.val, by omega⟩ = font g k := by
  have hg : (g.val * 5 + k.val) / 5 = g.val := by omega
  have hk : (g.val * 5 + k.val) % 5 = k.val := by omega
  simp only [fontRom, hg, hk]

theorem glyphcol_of_lt (font : Font) (g : Glyph) (k : Fin 5) :
    glyphcol font g ⟨k.val, by omega⟩ = fontRom font ⟨g.val * 5 + k.val, by omega⟩ := dif_pos k.isLt

theorem glyphcol_spacer (font : Font) (g : Glyph) : glyphcol font g 5 = 0 := rfl

theorem charColumn_of_le (font : Font) {c : Byte} (h : 32 ≤ c.toNat ∧ c.toNat ≤ 126) (k : Fin 6) :
    charColumn font c k = glyphcol font ⟨c.toNat - 32, by omega⟩ k := by
  rw [charColumn, glyphOf?_of_le h]

/-- Settles O11: a renderable code has a glyph, whose first five columns are its five entries of the font ROM. -/
theorem glyphColumns : Obligations.GlyphColumns := by
  intro font c h
  have rom (k : Fin 5) : charColumn font c ⟨k.val, by omega⟩ = fontRom font ⟨(c.toNat - 32) * 5 + k.val, by omega⟩ := by
    rw [charColumn_of_le font h, glyphcol_of_lt]
  refine ⟨fun k => ⟨(rom k).trans ?column, rom k⟩, ?spacer⟩
  case column => exact fontRom_glyph_column font ⟨c.toNat - 32, by omega⟩ k
  case spacer => rw [charColumn_of_le font h, glyphcol_spacer]

end Sys2Proof.Machine
end

section
/-! Proofs of the family 43_facade.md: the custom image string of zeros (R184, R185, R187). -/

namespace Sys2Proof.Machine

/-- A string is well formed exactly when it has 125 characters, each of which may stand where it stands (R184). -/
theorem imageDefect_eq_none_iff (chars : List Byte) :
    imageDefect chars = none ↔ chars.length = 125 ∧ ∀ p < 125, imageCharOk p (chars.getD p 0) = true := by
  rw [imageDefect, firstMalformed_none]
  refine and_congr_right fun hlen => forall₂_congr fun p hp => ?_
  have hp' : p < chars.length := by omega
  simp [hp']

/-- A string with a digit of the same value at every pixel's position decodes to a panel filled with it (R185). -/
theorem decodeImage_of_forall_value {chars : List Byte} {i : Byte}
    (h : ∀ r < 7, ∀ c < 17, chars.getD (r * 18 + c) 0 - 0x30 = i) :
    decodeImage chars =
      (List.range 7).flatMap fun r => (List.range 17).map fun c => ⟨BitVec.ofNat 8 c, BitVec.ofNat 8 r, i⟩ := by
  refine List.flatMap_congr fun r hr => List.map_congr_left fun c hc => ?_
  rw [h r (List.mem_range.mp hr) c (List.mem_range.mp hc)]

/-- The character at a position of the string of zeros: `:` between two rows, `0` elsewhere (R187). -/
def zeroImageChar (p : Nat) : Byte := if p % 18 = 17 then 0x3A else 0x30

theorem imageCharOk_zeroImageChar (p : Nat) : imageCharOk p (zeroImageChar p) = true := by
  rw [imageCharOk_iff, zeroImageChar]
  split <;> decide

/-- No pixel's position is a separator's, so every pixel reads the digit `0`. -/
theorem zeroImageChar_pixel (r : Nat) {c : Nat} (hc : c < 17) : zeroImageChar (r * 18 + c) = 0x30 :=
  if_neg (by omega)

/-- Settles O40: position by position the string is `zeroImageChar`, which may stand at every position and is `0` at
every pixel's. -/
theorem zeroImageRoundTrip : Obligations.ZeroImageRoundTrip := by
  unfold Obligations.ZeroImageRoundTrip
  intro row chars
  have hchars : chars = (List.range 125).map zeroImageChar := by decide
  have hlen : chars.length = 125 := by rw [hchars, List.length_map, List.length_range]
  have hchar {p : Nat} (hp : p < 125) : chars.getD p 0 = zeroImageChar p := by simp [hchars, hp]
  refine ⟨hlen, (imageDefect_eq_none_iff chars).mpr ⟨hlen, fun p hp => ?wellFormed⟩, length_decodeImage chars,
    decodeImage_of_forall_value fun r hr c hc => ?digit⟩
  case wellFormed => rw [hchar hp, imageCharOk_zeroImageChar]
  case digit => rw [hchar (by omega), zeroImageChar_pixel r hc]; rfl

end Sys2Proof.Machine
end

section
/-! Proofs of the family 60_exceptions.md: an error leaves no trace (R209). -/

namespace Sys2Proof.Machine

/-- A response emits no primitive. -/
theorem emits_respond (s : State) (code : BitVec 4) (data : Byte) : Emits s (s.respond code data) [] :=
  .nothing rfl rfl rfl rfl rfl rfl rfl rfl

/-- A command that ended in an error has emitted no primitive and has not toggled `ACTIVE` (R209). -/
theorem Ends.emits_nothing {s t : State} (h : Ends s t) (herr : t.err ≠ 0) : Emits s t [] ∧ t.active = s.active := by
  obtain ⟨u, code, data, ps, rfl, -, hemits, hzero⟩ := h
  rw [respond_err] at herr
  obtain ⟨rfl, hactive⟩ := hzero herr
  exact ⟨hemits.append (emits_respond u code data), hactive⟩

/-- Settles O41: every command `Ends`, with an error only before its first primitive; from there to the response nothing
is emitted, so what `Emits` carries over is as before. -/
theorem errorsLeaveNoTrace : Obligations.ErrorsLeaveNoTrace := by
  intro i s t hi hexec herr
  obtain ⟨t', hexec', hends⟩ := exec_command hi s
  obtain rfl : t' = t := by rwa [hexec', Host.Outcome.next.injEq] at hexec
  obtain ⟨hemits, hactive⟩ := hends.emits_nothing herr
  have htrace : t'.trace = s.trace := by rw [hemits.trace, List.append_nil]
  exact ⟨htrace, hemits.chip, hactive, hemits.taken, hemits.cmdIn, hemits.drv, hemits.rst, hemits.dsub⟩

end Sys2Proof.Machine
end

section
/-! Proofs of the family other: the encoder and the two decoders (R82, R84, R88 to R101). -/

namespace Sys2Proof

/-! ## Words as numbers -/

/-- Two words put together, as a number. -/
theorem toNat_append_eq_add {m n : Nat} (x : BitVec m) (y : BitVec n) :
    (x ++ y).toNat = x.toNat * 2 ^ n + y.toNat := by
  rw [BitVec.toNat_append, ← Nat.shiftLeft_add_eq_or_of_lt y.isLt, Nat.shiftLeft_eq]

/-- A field of a word, as a number. -/
theorem toNat_field {n : Nat} (start len : Nat) (w : BitVec n) :
    (w.extractLsb' start len).toNat = w.toNat / 2 ^ start % 2 ^ len := by
  rw [BitVec.extractLsb'_toNat, Nat.shiftRight_eq_div_pow]

theorem brightnessBytes_append (b0 b1 : Byte) : brightnessBytes (b1 ++ b0) = [b0, b1] := by
  simp only [brightnessBytes, List.cons.injEq, and_true, ← BitVec.toNat_inj, toNat_field, toNat_append_eq_add]
  omega

theorem integerBytes_append (n0 n1 n2 n3 : Byte) :
    let n := n3 ++ n2 ++ n1 ++ n0
    [n.extractLsb' 0 8, n.extractLsb' 8 8, n.extractLsb' 16 8, n.extractLsb' 24 8] = [n0, n1, n2, n3] := by
  simp only [List.cons.injEq, and_true, ← BitVec.toNat_inj, toNat_field, toNat_append_eq_add]
  omega

/-! ## Commands -/

/-- The bytes of a well-formed command have its form, whatever bytes follow them. -/
theorem commandForm_of_encode {i : Instr} {own : List Byte} (hi : i.wellFormed = true)
    (h : encode i = .command own) (rest : List Byte) : CommandForm (own ++ rest) i rest := by
  cases i <;> simp only [encode, Packet.command.injEq, reduceCtorEq] at h <;> subst h
  case clear => exact .clear rest
  case scroll b text =>
    have hlen : text.length = (BitVec.ofNat 8 text.length).toNat :=
      (toNat_lengthByte (of_decide_eq_true hi)).symm
    simpa [brightnessBytes, append_bytes16] using
      CommandForm.scroll (b.extractLsb' 0 8) (b.extractLsb' 8 8) _ text rest hlen
  case scrolln b n =>
    simpa [brightnessBytes, append_bytes16, append_bytes32] using
      CommandForm.scrolln (b.extractLsb' 0 8) (b.extractLsb' 8 8) (n.extractLsb' 0 8) (n.extractLsb' 8 8)
        (n.extractLsb' 16 8) (n.extractLsb' 24 8) rest
  case draw b masks =>
    simpa [brightnessBytes, append_bytes16, columnsOf_toList] using
      CommandForm.draw (b.extractLsb' 0 8) (b.extractLsb' 8 8) masks.toList rest masks.length_toList
  case pixels ts => simpa using CommandForm.pixels _ ts rest (toNat_lengthByte (of_decide_eq_true hi)).symm
  case imgstr chars => simpa using CommandForm.imgstr _ chars rest (toNat_lengthByte (of_decide_eq_true hi)).symm
  case paddr x y => exact .paddr x y rest

/-- A form of a command is its encoding, with the bytes that follow. -/
theorem CommandForm.encode_eq {l : List Byte} {i : Instr} {rest : List Byte} (h : CommandForm l i rest) :
    i.wellFormed = true ∧ ∃ own, encode i = .command own ∧ l = own ++ rest := by
  cases h with
  | clear => exact ⟨rfl, _, rfl, rfl⟩
  | scroll b0 b1 len text _ hlen =>
    refine ⟨decide_eq_true ?_, _, rfl, ?_⟩
    · have := len.isLt; unfold Config.textMax; omega
    · simp [brightnessBytes_append, hlen]
  | scrolln b0 b1 n0 n1 n2 n3 =>
    refine ⟨rfl, _, rfl, ?_⟩
    rw [brightnessBytes_append, integerBytes_append]
    rfl
  | draw b0 b1 masks _ hlen => exact ⟨rfl, _, rfl, by simp [brightnessBytes_append, toList_columnsOf hlen]⟩
  | pixels cnt ts _ hlen =>
    refine ⟨decide_eq_true ?_, _, rfl, ?_⟩
    · have := cnt.isLt; unfold Config.pixMax; omega
    · simp [hlen]
  | imgstr len chars _ hlen =>
    refine ⟨decide_eq_true ?_, _, rfl, ?_⟩
    · have := len.isLt; omega
    · simp [hlen]
  | paddr => exact ⟨rfl, _, rfl, rfl⟩

/-! ## Driver words -/

theorem toNat_word_selectFrame (id : FrameId) (shown : Bool) :
    (Prim.word (.selectFrame id shown)).toNat = 0x10000 + 2 * shown.toNat + id.val := by
  revert id shown; decide

theorem toNat_word_clearFrame : (Prim.word .clearFrame).toNat = 0x20000 := by decide

theorem toNat_word_setPixel (pcol prow : BitVec 4) (b : Byte) :
    (Prim.word (.setPixel pcol prow b)).toNat = 0x30000 + (pcol.toNat * 16 + prow.toNat) * 256 + b.toNat := by
  simp only [Prim.word, toNat_append_eq_add, BitVec.toNat_ofNat]
  omega

/-- A bit of a word, as a number. -/
theorem toNat_getLsbD {n : Nat} (w : BitVec n) (i : Nat) : (w.getLsbD i).toNat = w.toNat / 2 ^ i % 2 := by
  rw [← BitVec.testBit_toNat, Nat.toNat_testBit]

/-- What the decoder of the driver port accepts is a word of the table (R84, R99). -/
theorem word_of_decodeDriver {w : BitVec 18} {p : Prim} (h : decodeDriver w = .ok p) : p.word = w := by
  have hw := w.isLt
  unfold decodeDriver at h
  apply BitVec.eq_of_toNat_eq
  split at h
  next hkind =>
    split at h <;> cases h
    next hreserved =>
      have hid : (if w.getLsbD 0 then (1 : FrameId) else 0).val = (w.getLsbD 0).toNat := by
        cases w.getLsbD 0 <;> rfl
      rw [toNat_word_selectFrame]
      simp only [← BitVec.toNat_inj, toNat_field, BitVec.ofNat_eq_ofNat, BitVec.toNat_ofNat] at hkind hreserved
      simp only [hid, toNat_getLsbD]
      omega
  split at h
  next hkind =>
    split at h <;> cases h
    next hreserved =>
      rw [toNat_word_clearFrame]
      simp only [← BitVec.toNat_inj, toNat_field, BitVec.ofNat_eq_ofNat, BitVec.toNat_ofNat] at hkind hreserved
      omega
  split at h <;> cases h
  next hkind =>
    rw [toNat_word_setPixel]
    simp only [← BitVec.toNat_inj, toNat_field, BitVec.toNat_ofNat] at hkind ⊢
    omega

/-- Settles O1: a command's bytes have its form, which decodes to it; a driver word decodes to its primitive. -/
theorem decodeOfEncode : Obligations.DecodeOfEncode := by
  intro i hi
  cases hencode : encode i with
  | command own => exact fun rest => decodeCommand_form (commandForm_of_encode hi hencode rest)
  | driver word =>
    cases i <;> simp only [encode, Packet.driver.injEq, reduceCtorEq] at hencode <;> subst hencode <;>
      simp only [decode, decodeDriver_word, Prim.instr]

/-- Settles O2: what the decoder accepts has the form of a command, and that form is the command's encoding. -/
theorem decodedBytesAreTheEncoding : Obligations.DecodedBytesAreTheEncoding :=
  fun _ _ _ h => ⟨isCommand_of_decodeCommand h, (form_of_decodeCommand h).encode_eq⟩

/-- Settles O3: an accepted word is the word of its primitive, the rejections follow the decoder's branches, and the
three words are read as numbers. -/
theorem driverWordForms : Obligations.DriverWordForms := by
  refine ⟨fun w => ⟨fun p => word_of_decodeDriver, fun h => ?none, fun h => ?select, fun h => ?clear, fun h => ?pixel⟩,
    decodeDriver_word, toNat_word_selectFrame, toNat_word_clearFrame, toNat_word_setPixel⟩
  case none => simp [decodeDriver, h]
  case select => simp [decodeDriver, h.1, show w.extractLsb' 2 14 ≠ 0#14 from h.2]
  case clear => simp [decodeDriver, h.1, show w.extractLsb' 0 16 ≠ 0#16 from h.2]
  case pixel => exact ⟨_, by simp [decodeDriver, h]; rfl⟩

/-- Settles O4: the length is counted from the encoding, which decodes to the whole command with nothing left over. -/
theorem commandLengths : Obligations.CommandLengths := by
  intro i own hi h
  have hdecode : decodeCommand own = .ok (i, []) := by
    simpa using decodeCommand_form (commandForm_of_encode hi h [])
  refine ⟨?length, fun k hk => decodeCommand_proper hdecode hk⟩
  case length =>
    cases i <;> simp only [encode, Packet.command.injEq, reduceCtorEq] at h <;> subst h <;>
      simp only [brightnessBytes, List.length_append, List.length_cons, List.length_nil, Vector.length_toList,
        Laws.FitsPort.length_triples]

end Sys2Proof
end

section
/-! Proofs of the family other: the invariant of the sequencer, kept by every port event and every step (R29, R34,
R99). -/

namespace Sys2Proof.Machine

/-! ## The invariant by parts -/

/-- The part of the invariant that is the same in every phase. -/
def State.Kept (s : State) : Prop := s.rst = false ∧ memWf s.chip.fm ∧ s.err.toNat ≤ 4

/-- What an animation and a pixel-list draw have checked of their buffers (R153, R182). -/
def State.BuffersChecked (s : State) : Prop :=
  (s.phase = .animatingStep → s.ci.toNat < s.tlen.toNat ∧ 4 ≤ s.tlen.toNat ∧ ∀ c ∈ s.text, (glyphOf? c).isSome) ∧
  (s.phase = .pixelDraw → ∀ t ∈ s.pixelList, (panelPoint? t.x t.y).isSome)

theorem inv_iff (s : State) : s.Inv ↔ s.Kept ∧ s.PhaseInv := by
  simp only [State.Inv, State.Kept, and_assoc]

theorem phaseInv_draw_iff {s : State} (h : drawPhase s.phase) : s.PhaseInv ↔ s.Drawing ∧ s.BuffersChecked := by
  unfold State.PhaseInv State.BuffersChecked
  rcases h with h | h | h | h <;> simp [h]

/-- Between two primitives of a draw. -/
theorem inv_of_draw {s : State} {d : DrawSub} (hk : s.Kept) (hp : drawPhase s.phase) (hr : s.rsp = none)
    (hd : s.dsub = some d) (hi : s.DrawInv d) (hb : s.BuffersChecked) : s.Inv :=
  (inv_iff s).mpr ⟨hk, (phaseInv_draw_iff hp).mpr ⟨⟨hr, d, hd, hi⟩, hb⟩⟩

/-- A response is issued between draws. -/
theorem inv_respond {s : State} {code : BitVec 4} {data : Byte} (hk : s.Kept) (hcode : code.toNat ≤ 4)
    (hdrv : s.drv = none) (hdsub : s.dsub = none) (hs : s.Settled) : (s.respond code data).Inv :=
  ⟨hk.1, hk.2.1, hcode, hdrv, hdsub, hs, rfl, data, rfl⟩

theorem inv_raise {s : State} (hk : s.Kept) (hdrv : s.drv = none) (hdsub : s.dsub = none) (hs : s.Settled)
    (e : ErrorCause) (info : Byte) : (s.raise e info).Inv :=
  inv_respond hk (code_le e) hdrv hdsub hs

/-! ## The presented primitive -/

/-- The primitives LMX presents, by where the sequencer is, and how the collaborator agrees with it there (R29, R99,
R136, R176, R179). -/
inductive Presents (s : State) : Prim → Prop where
  | clearing (hp : s.phase = .clearing) (hd : s.dsub = none) (ha : s.Settled) : Presents s .clearFrame
  | select (hp : drawPhase s.phase) (hd : s.dsub = some .dSelect) (ha : s.Settled) :
      Presents s (.selectFrame (otherFrame s.active) false)
  | clear (hp : drawPhase s.phase) (hd : s.dsub = some .dClear) (ha : s.Aimed) : Presents s .clearFrame
  | pixel (x : PanelX) (y : PanelY) (b : Byte) (hp : drawPhase s.phase) (hd : s.dsub = some .dPixels) (ha : s.Aimed) :
      Presents s (pixelPrim x y b)
  | flip (hp : drawPhase s.phase) (hd : s.dsub = some .dFlip) (ha : s.Aimed) :
      Presents s (.selectFrame (otherFrame s.active) true)

theorem word_injective {p q : Prim} (h : p.word = q.word) : p = q := by
  have := decodeDriver_word p
  rw [h, decodeDriver_word] at this
  exact (Except.ok.inj this).symm

/-- The phases in which a primitive can be presented. -/
theorem drawPhase_or_clearing {s : State} (h : s.PhaseInv) (hd : s.drv ≠ none) :
    drawPhase s.phase ∨ s.phase = .clearing := by
  unfold drawPhase
  unfold State.PhaseInv at h
  cases hp : s.phase <;> simp only [hp] at h <;> simp
  case idle => exact hd h.1.1
  case receive => exact hd h.1.1
  case normalizing => exact hd h.1.1
  case respond => exact hd h.1

theorem presents_of_inv {s : State} {p : Prim} (h : s.PhaseInv) (hw : s.drv = some p.word) : Presents s p := by
  have only {q : Prim} (hq : s.PresentsOnly q) : p = q := by
    simp only [State.PresentsOnly, hw, reduceCtorEq, false_or, Option.some.injEq] at hq
    exact word_injective hq
  rcases drawPhase_or_clearing h (by simp [hw]) with hp | hp
  · obtain ⟨⟨-, d, hd, hi⟩, -⟩ := (phaseInv_draw_iff hp).mp h
    cases d <;> obtain ⟨ha, hi⟩ := hi
    case dSelect => exact only hi ▸ .select hp hd ha
    case dClear => exact only hi ▸ .clear hp hd ha
    case dFlip => exact only hi ▸ .flip hp hd ha
    case dPixels =>
      simp only [hw, reduceCtorEq, false_or, Option.some.injEq] at hi
      obtain ⟨x, y, b, hi⟩ := hi
      exact word_injective hi ▸ .pixel x y b hp hd ha
  · simp only [State.PhaseInv, hp] at h
    obtain ⟨-, hd, ha, hi⟩ := h
    exact only hi ▸ .clearing hp hd ha

/-- Presenting such a primitive keeps the invariant. -/
theorem inv_present {s : State} {p : Prim} (h : s.Inv) (hp : Presents s p) : (s.present p).Inv := by
  obtain ⟨hk, hi⟩ := (inv_iff s).mp h
  have draw {d : DrawSub} (hph : drawPhase s.phase) (hd : s.dsub = some d) (hdraw : (s.present p).DrawInv d) :
      (s.present p).Inv := by
    obtain ⟨⟨hr, -⟩, hb⟩ := (phaseInv_draw_iff hph).mp hi
    exact inv_of_draw hk hph hr hd hdraw hb
  cases hp with
  | clearing hp hd ha =>
    simp only [State.PhaseInv, hp] at hi
    refine (inv_iff _).mpr ⟨hk, ?_⟩
    simp only [State.PhaseInv, present_phase, hp]
    exact ⟨hi.1, hd, ha, .inr rfl⟩
  | select hp hd ha => exact draw hp hd ⟨ha, .inr rfl⟩
  | clear hp hd ha => exact draw hp hd ⟨ha, .inr rfl⟩
  | pixel x y b hp hd ha => exact draw hp hd ⟨ha, .inr ⟨x, y, b, rfl⟩⟩
  | flip hp hd ha => exact draw hp hd ⟨ha, .inr rfl⟩

/-! ## Accepting the presented primitive -/

/-- The iterators are no part of the invariant. -/
theorem inv_iterators {s : State} (h : s.Inv) (dx : PanelX) (dy : PanelY) (pi : BitVec 8) :
    ({ s with dx := dx, dy := dy, pi := pi } : State).Inv := h

/-- The pixels are drawn and the flip is due. -/
theorem inv_flipDue {s : State} (h : s.Inv) (hp : drawPhase s.phase) (hd : s.dsub = some .dPixels)
    (hdrv : s.drv = none) : ({ s with dsub := some .dFlip } : State).Inv := by
  obtain ⟨hk, hi⟩ := (inv_iff s).mp h
  obtain ⟨⟨hr, d, hd', hi⟩, hb⟩ := (phaseInv_draw_iff hp).mp hi
  obtain rfl : d = .dPixels := Option.some.inj (hd'.symm.trans hd)
  exact inv_of_draw (d := .dFlip) hk hp hr rfl ⟨hi.1, .inl hdrv⟩ hb

theorem inv_nextPixel {s : State} (h : s.Inv) (hp : drawPhase s.phase) (hd : s.dsub = some .dPixels)
    (hdrv : s.drv = none) : s.nextPixel.Inv := by
  obtain ⟨dx, dy, e, -⟩ | ⟨-, e⟩ := nextPixel_cases s <;> rw [e]
  · exact inv_iterators h dx dy s.pi
  · exact inv_flipDue h hp hd hdrv

/-- The cursor stays inside the text unless it has come to its end. -/
theorem advanceCursor_lt {s : State} (h : s.ci.toNat < s.tlen.toNat) (hne : s.advanceCursor.ci ≠ s.tlen) :
    s.advanceCursor.ci.toNat < s.tlen.toNat := by
  rw [advanceCursor_ci] at hne ⊢
  split at hne
  · rwa [if_pos ‹_›]
  · rw [if_neg ‹_›]
    bv_omega

/-- The next animation step differs in the bitmap, the cursor and the sub-phase only. -/
theorem afterDraw_again_form {s : State} (hp : s.phase = .animatingStep) (hc : s.advanceCursor.ci ≠ s.tlen)
    (font : Font) : ∃ sb sc, s.afterDraw font =
      { s with sb := sb, sc := sc, ci := s.advanceCursor.ci, dsub := some .dSelect } := by
  refine ⟨(s.advanceCursor.shiftIn font).sb, s.advanceCursor.sc, ?_⟩
  rw [afterDraw_again hp hc]
  simp only [State.shiftIn, State.advanceCursor]

/-- After the flip: the next animation step begins, or the response is issued, with the drawn frame shown and
active. -/
theorem inv_afterDraw {s : State} (hk : s.Kept) (hp : drawPhase s.phase) (hr : s.rsp = none) (hdrv : s.drv = none)
    (hs : s.Settled) (hb : s.BuffersChecked) (font : Font) : (s.afterDraw font).Inv := by
  by_cases ha : s.phase = .animatingStep
  · by_cases hc : s.advanceCursor.ci = s.tlen
    · rw [afterDraw_last ha hc]
      exact inv_respond (s := { s.advanceCursor with dsub := none }) (code := okCode) hk (by decide) hdrv rfl hs
    · obtain ⟨sb, sc, e⟩ := afterDraw_again_form ha hc font
      rw [e]
      obtain ⟨hlt, hlen, hglyphs⟩ := hb.1 ha
      exact inv_of_draw (d := .dSelect) hk hp hr rfl ⟨hs, .inl hdrv⟩
        ⟨fun _ => ⟨advanceCursor_lt hlt hc, hlen, hglyphs⟩, fun h => by simp [ha] at h⟩
  · rw [afterDraw_once ha]
    exact inv_respond (s := { s with dsub := none }) (code := okCode) hk (by decide) hdrv rfl hs

/-- The sequencer goes on with the invariant once the collaborator has accepted what LMX presents. -/
theorem inv_accepted {s : State} {p : Prim} (h : s.Inv) (hp : Presents s p) (font : Font) :
    (({ s with drv := none }.acceptPrim p).advance font).Inv := by
  obtain ⟨hk, hi⟩ := (inv_iff s).mp h
  set u : State := { s with drv := none }.acceptPrim p with hu
  have hku : u.Kept := ⟨hk.1, accept_memWf hk.2.1 p, hk.2.2⟩
  cases hp with
  | clearing hp hd ha =>
    rw [State.advance, show u.phase = _ from hp]
    exact inv_respond hku (by decide) rfl hd ha
  | select hp hd ha =>
    obtain ⟨⟨hr, -⟩, hb⟩ := (phaseInv_draw_iff hp).mp hi
    rw [advance_draw (s := u) hp hd]
    exact inv_of_draw (d := .dClear) hku hp hr rfl ⟨⟨rfl, ha.2⟩, .inl rfl⟩ hb
  | clear hp hd ha =>
    obtain ⟨⟨hr, -⟩, hb⟩ := (phaseInv_draw_iff hp).mp hi
    rw [advance_draw (s := u) hp hd]
    exact inv_of_draw (d := .dPixels) hku hp hr rfl ⟨ha, .inl rfl⟩ hb
  | pixel x y b hp hd ha =>
    obtain ⟨⟨hr, -⟩, hb⟩ := (phaseInv_draw_iff hp).mp hi
    have haimed : u.Aimed :=
      ⟨(accept_pixelPrim_target ..).trans ha.1, (accept_pixelPrim_visible ..).trans ha.2⟩
    have hinv : u.Inv := inv_of_draw hku hp hr hd ⟨haimed, .inl rfl⟩ hb
    rw [advance_draw (s := u) hp hd, State.drawAccepted]
    split
    · exact inv_iterators hinv u.dx u.dy (u.pi + 1)
    · exact inv_nextPixel hinv hp hd rfl
  | flip hp hd ha =>
    obtain ⟨⟨hr, -⟩, hb⟩ := (phaseInv_draw_iff hp).mp hi
    rw [advance_draw (s := u) hp hd]
    exact inv_afterDraw (s := { u with active := otherFrame u.active, dx := 0, dy := 0, pi := 0 })
      hku hp hr rfl ⟨rfl, rfl⟩ hb font

/-! ## Receiving a byte -/

/-- What one more byte of the command port does. -/
inductive Received (s : State) : State → Prop where
  | more (cb : List Byte) (hcb : cb ≠ []) (hd : decodeCommand cb = .error .incomplete) :
      Received s { s with cb := cb, phase := .receive }
  | illegal (op : Byte) : Received s (s.raise .illegalCommand op)
  | whole (i : Instr) (cb : List Byte) (hd : decodeCommand cb = .ok (i, [])) (hi : i = .clear ↔ s.phase = .idle) :
      Received s (State.begin i { s with cb := cb })

/-- The first byte is a whole command exactly for CLEAR (R89). -/
theorem decodeCommand_first {b : Byte} {i : Instr} {r : List Byte} (h : decodeCommand [b] = .ok (i, r)) :
    i = .clear ∧ r = [] := by
  generalize hl : [b] = l at h
  cases form_of_decodeCommand h <;> simp_all

theorem decodeCommand_clear {l : List Byte} (h : decodeCommand l = .ok (.clear, [])) : l = [0x01] := by
  cases form_of_decodeCommand h
  rfl

theorem received {s : State} (b : Byte)
    (h : s.phase = .idle ∨ s.phase = .receive ∧ s.cb ≠ [] ∧ decodeCommand s.cb = .error .incomplete) :
    Received s (s.acceptByte b) := by
  unfold State.acceptByte
  set cb := if s.phase = .idle then [b] else s.cb ++ [b] with hcb
  have hne : cb ≠ [] := by rw [hcb]; split <;> simp
  dsimp only
  split
  next i r hd =>
    suffices hr : r = [] ∧ (i = .clear ↔ s.phase = .idle) by obtain ⟨rfl, hi⟩ := hr; exact .whole i cb hd hi
    rcases h with hp | ⟨hp, hcb', hinc⟩
    · rw [hcb, if_pos hp] at hd
      exact ⟨(decodeCommand_first hd).2, by simp [hp, (decodeCommand_first hd).1]⟩
    · rw [hcb, if_neg (by simp [hp])] at hd
      obtain hd' | ⟨j, hd'⟩ := decodeCommand_snoc hcb' hinc b <;> rw [hd] at hd' <;> cases hd'
      refine ⟨rfl, ⟨?_, fun e => by simp [hp] at e⟩⟩
      rintro rfl
      exact absurd (congrArg List.length (decodeCommand_clear hd)) (by simp [hcb'])
  next op hd => exact .illegal op
  next e hne' hd =>
    obtain rfl | ⟨op, rfl⟩ := decodeCommand_error hd
    · exact .more cb hne hd
    · exact absurd rfl (hne' op)

/-- What the sequencer needs before the first primitive of a command. -/
theorem quiet_of_receiving {s : State} (h : s.PhaseInv) (hp : s.phase = .idle ∨ s.phase = .receive) :
    s.Quiet ∧ (s.phase = .idle ∨ s.phase = .receive ∧ s.cb ≠ [] ∧ decodeCommand s.cb = .error .incomplete) := by
  unfold State.PhaseInv at h
  rcases hp with hp | hp <;> simp only [hp] at h
  · exact ⟨h.1, .inl hp⟩
  · exact ⟨h.1, .inr ⟨hp, h.2⟩⟩

/-- PADDR responds with its last byte (R126, R189). -/
theorem begin_paddr (x y : Byte) (s : State) :
    ∃ code data, code.toNat ≤ 4 ∧ State.begin (.paddr x y) s = s.respond code data := by
  simp only [State.begin]
  split
  · exact ⟨okCode, _, by decide, rfl⟩
  · exact ⟨ErrorCause.coordinateOutOfRange.code, _, code_le _, rfl⟩

/-- A whole command begins: it responds at once, is normalised, is the clear or begins its draw. -/
theorem inv_begin {i : Instr} {s : State} (hk : s.Kept) (hq : s.Quiet) (hd : decodeCommand s.cb = .ok (i, [])) :
    (State.begin i s).Inv := by
  obtain ⟨hdrv, hrsp, hdsub, hs⟩ := hq
  have hi := isCommand_of_decodeCommand hd
  cases i with
  | clear => exact (inv_iff _).mpr ⟨hk, hrsp, hdsub, hs, .inl hdrv⟩
  | scroll b text => exact (inv_iff _).mpr ⟨hk, ⟨hdrv, hrsp, hdsub, hs⟩, _, hd, .inl ⟨_, _, rfl⟩⟩
  | scrolln b n => exact (inv_iff _).mpr ⟨hk, ⟨hdrv, hrsp, hdsub, hs⟩, _, hd, .inr (.inl ⟨_, _, rfl⟩)⟩
  | pixels ts => exact (inv_iff _).mpr ⟨hk, ⟨hdrv, hrsp, hdsub, hs⟩, _, hd, .inr (.inr (.inl ⟨_, rfl⟩))⟩
  | imgstr chars => exact (inv_iff _).mpr ⟨hk, ⟨hdrv, hrsp, hdsub, hs⟩, _, hd, .inr (.inr (.inr ⟨_, rfl⟩))⟩
  | draw b masks =>
    generalize hu : s.loadBitmap b masks = u
    obtain ⟨br, sb, rfl⟩ : ∃ br sb, u = { s with br := br, sb := sb } := ⟨_, _, hu.symm⟩
    rw [State.begin, hu]
    exact inv_of_draw (d := .dSelect) hk (.inr (.inl rfl)) hrsp rfl ⟨hs, .inl hdrv⟩ ⟨nofun, nofun⟩
  | paddr x y =>
    obtain ⟨code, data, hcode, e⟩ := begin_paddr x y s
    exact e ▸ inv_respond hk hcode hdrv hdsub hs
  | selectFrame id shown => simp [Instr.isCommand] at hi
  | clearFrame => simp [Instr.isCommand] at hi
  | setPixel pcol prow b => simp [Instr.isCommand] at hi

/-- Receiving a byte keeps the invariant. -/
theorem inv_received {s t : State} (hk : s.Kept) (hq : s.Quiet) (h : Received s t) : t.Inv := by
  cases h with
  | more cb hcb hd => exact (inv_iff _).mpr ⟨hk, hq, hcb, hd⟩
  | illegal op => exact inv_raise hk hq.1 hq.2.2.1 hq.2.2.2 _ _
  | whole i cb hd hi => exact inv_begin (s := { s with cb := cb }) hk hq hd

/-! ## Leaving `Normalizing` -/

/-- The text and pixel-list buffers, the bitmap, the brightness and the cursor are all that differs. -/
structure SameDriver (s u : State) : Prop where
  rst : u.rst = s.rst
  drv : u.drv = s.drv
  rsp : u.rsp = s.rsp
  dsub : u.dsub = s.dsub
  active : u.active = s.active
  chip : u.chip = s.chip
  trace : u.trace = s.trace
  err : u.err = s.err

theorem SameDriver.kept {s u : State} (h : SameDriver s u) (hk : s.Kept) : u.Kept := by
  simpa only [State.Kept, h.rst, h.chip, h.err] using hk

theorem SameDriver.quiet {s u : State} (h : SameDriver s u) (hq : s.Quiet) : u.Quiet := by
  simpa only [State.Quiet, State.Settled, h.drv, h.rsp, h.dsub, h.chip, h.active] using hq

/-- How `Normalizing` is left: with an error, or to a draw whose buffers have been checked (R150, R177, R183, R189). -/
inductive Normalized (s : State) : State → Prop where
  | error (u : State) (h : SameDriver s u) (e : ErrorCause) (info : Byte) : Normalized s (u.raise e info)
  | draw (u : State) (h : SameDriver s u) (hp : u.phase = .staticDraw ∨ u.phase = .animatingStep ∨ u.phase = .pixelDraw)
      (hb : u.BuffersChecked) : Normalized s { u with dsub := some .dSelect }

theorem SameDriver.trans {s u v : State} (h : SameDriver s u) (h' : SameDriver u v) : SameDriver s v :=
  ⟨h'.rst.trans h.rst, h'.drv.trans h.drv, h'.rsp.trans h.rsp, h'.dsub.trans h.dsub, h'.active.trans h.active,
    h'.chip.trans h.chip, h'.trace.trans h.trace, h'.err.trans h.err⟩

theorem Normalized.of_sameDriver {s u t : State} (h : SameDriver s u) (h' : Normalized u t) : Normalized s t := by
  cases h' with
  | error v hv e info => exact .error v (h.trans hv) e info
  | draw v hv hp hb => exact .draw v (h.trans hv) hp hb

theorem normalized_enterText (font : Font) {s : State} (hlen : s.tlen ≠ 3 → 4 ≤ s.tlen.toNat) :
    Normalized s (s.enterText font) := by
  unfold State.enterText
  split
  next j hj => exact .error s ⟨rfl, rfl, rfl, rfl, rfl, rfl, rfl, rfl⟩ _ _
  next hj =>
    split
    next h3 =>
      generalize hu : s.fillStatic font = u
      obtain ⟨sb, rfl⟩ : ∃ sb, u = { s with sb := sb } := ⟨_, hu.symm⟩
      exact .draw { s with sb := sb, phase := .staticDraw } ⟨rfl, rfl, rfl, rfl, rfl, rfl, rfl, rfl⟩ (.inl rfl)
        ⟨nofun, nofun⟩
    next h3 =>
      generalize hu : s.startMarquee.shiftIn font = u
      obtain ⟨sb, rfl⟩ : ∃ sb, u = { s with sb := sb, ci := 0, sc := 0 } := ⟨_, hu.symm⟩
      have hpos : (0 : BitVec 8).toNat < s.tlen.toNat := Nat.lt_of_lt_of_le (by decide) (hlen h3)
      exact .draw { s with sb := sb, ci := 0, sc := 0, phase := .animatingStep }
        ⟨rfl, rfl, rfl, rfl, rfl, rfl, rfl, rfl⟩ (.inr (.inl rfl))
        ⟨fun _ => ⟨hpos, hlen h3, firstUnrenderable_none.mp hj⟩, nofun⟩

theorem sameDriver_normaliseText (s : State) : SameDriver s s.normaliseText := by
  constructor <;> simp [State.normaliseText]

/-- A normalised text has 3 characters, or at least 4 (R151). -/
theorem tlen_normaliseText (s : State) : s.normaliseText.tlen.toNat = (normalise s.text).length := by
  have := s.tlen.isLt
  exact toNat_lengthByte (normalise_le _ (by rw [text_length]; omega))

theorem normalized_leaveText (font : Font) (s : State) : Normalized s (s.leaveText font) := by
  have hlen : s.normaliseText.tlen ≠ 3 → 4 ≤ s.normaliseText.tlen.toNat := by
    intro h3
    have := normalise_length_ge_three s.text
    rw [← tlen_normaliseText] at this
    bv_omega
  exact .of_sameDriver (sameDriver_normaliseText s) (normalized_enterText font hlen)

theorem normalized_leaveList (s : State) : Normalized s s.leaveList := by
  unfold State.leaveList
  split
  next j hj => exact .error s ⟨rfl, rfl, rfl, rfl, rfl, rfl, rfl, rfl⟩ _ _
  next hj =>
    exact .draw { s with phase := .pixelDraw } ⟨rfl, rfl, rfl, rfl, rfl, rfl, rfl, rfl⟩ (.inr (.inr rfl))
      ⟨nofun, fun _ => firstOffPanel_none.mp hj⟩

theorem normalized_leaveImage (s : State) (chars : List Byte) : Normalized s (s.leaveImage chars) := by
  unfold State.leaveImage
  split
  next p hp => exact .error s ⟨rfl, rfl, rfl, rfl, rfl, rfl, rfl, rfl⟩ _ _
  next hp =>
    have hlist : (s.loadPixels (decodeImage chars)).pixelList = decodeImage chars :=
      pixelList_loadPixels s _ (by simp [length_decodeImage])
    generalize hu : s.loadPixels (decodeImage chars) = u at hlist ⊢
    obtain ⟨pl, plen, rfl⟩ : ∃ pl plen, u = { s with pl := pl, plen := plen } := ⟨_, _, hu.symm⟩
    exact .draw { s with pl := pl, plen := plen, phase := .pixelDraw } ⟨rfl, rfl, rfl, rfl, rfl, rfl, rfl, rfl⟩
      (.inr (.inr rfl)) ⟨nofun, fun _ t ht => decodeImage_onPanel chars t (hlist ▸ ht)⟩

theorem normalized_leaveNormalizing {font : Font} {s t : State} (h : s.leaveNormalizing font = some t) :
    Normalized s t := by
  unfold State.leaveNormalizing at h
  split at h <;> cases h
  · exact normalized_leaveText font s
  · exact normalized_leaveText font s
  · exact normalized_leaveList s
  · exact normalized_leaveImage s _

theorem inv_normalized {s t : State} (hk : s.Kept) (hq : s.Quiet) (h : Normalized s t) : t.Inv := by
  cases h with
  | error u h e info =>
    obtain ⟨hdrv, -, hdsub, hs⟩ := h.quiet hq
    exact inv_raise (h.kept hk) hdrv hdsub hs e info
  | draw u h hp hb =>
    obtain ⟨hdrv, hrsp, -, hs⟩ := h.quiet hq
    have hp' : drawPhase u.phase := by unfold drawPhase; tauto
    exact inv_of_draw (d := .dSelect) (h.kept hk) hp' hrsp rfl ⟨hs, .inl hdrv⟩ hb

/-! ## The internal actions -/

/-- What LMX does on its own: it leaves `Normalizing`, presents a primitive, or goes on in the pixel phase of a draw
(R25, R136, R179, R189). -/
inductive Acts (s : State) : State → Prop where
  | normalized (t : State) (hp : s.phase = .normalizing) (h : Normalized s t) : Acts s t
  | present (p : Prim) (h : Presents s p) : Acts s (s.present p)
  | iterate (dx : PanelX) (dy : PanelY) (pi : BitVec 8) (hp : drawPhase s.phase) (hd : s.dsub = some .dPixels) :
      Acts s { s with dx := dx, dy := dy, pi := pi }
  | flipDue (hp : drawPhase s.phase) (hd : s.dsub = some .dPixels) : Acts s { s with dsub := some .dFlip }

theorem acts_nextPixel {s : State} (hp : drawPhase s.phase) (hd : s.dsub = some .dPixels) : Acts s s.nextPixel := by
  obtain ⟨dx, dy, e, -⟩ | ⟨-, e⟩ := nextPixel_cases s <;> rw [e]
  · exact .iterate dx dy s.pi hp hd
  · exact .flipDue hp hd

theorem acts_bitmapPixel {s : State} (hp : drawPhase s.phase) (hd : s.dsub = some .dPixels) (ha : s.Aimed) :
    Acts s s.bitmapPixel := by
  unfold State.bitmapPixel
  split
  · exact .present _ (.pixel _ _ _ hp hd ha)
  · exact acts_nextPixel hp hd

theorem acts_listPixel {s : State} (hp : drawPhase s.phase) (hd : s.dsub = some .dPixels) (ha : s.Aimed) :
    Acts s s.listPixel := by
  unfold State.listPixel
  split
  next t _ =>
    unfold triplePixel
    cases panelPoint? t.x t.y with
    | none => exact .iterate s.dx s.dy (s.pi + 1) hp hd
    | some q => exact .present _ (.pixel _ _ _ hp hd ha)
  · exact .flipDue hp hd

theorem acts_drawAction {s : State} {d : DrawSub} (hp : drawPhase s.phase) (hd : s.dsub = some d) (hi : s.DrawInv d) :
    Acts s (s.drawAction d) := by
  cases d with
  | dSelect => exact .present _ (.select hp hd hi.1)
  | dClear => exact .present _ (.clear hp hd hi.1)
  | dFlip => exact .present _ (.flip hp hd hi.1)
  | dPixels =>
    simp only [State.drawAction]
    split
    · exact acts_listPixel hp hd hi.1
    · exact acts_bitmapPixel hp hd hi.1

/-- Where LMX acts: in `Normalizing`, in `Clearing` and in a draw (R189). -/
theorem acts_of_internal {s t : State} {font : Font} (h : s.PhaseInv) (hi : s.internal font = some t) : Acts s t := by
  have hfree : s.drv = none ∧ s.rsp = none := by
    unfold State.internal at hi
    split at hi
    · cases hi
    next hn => simpa using hn
  by_cases hp : drawPhase s.phase
  · obtain ⟨⟨-, d, hd, hdraw⟩, -⟩ := (phaseInv_draw_iff hp).mp h
    rw [internal_draw hp hd hfree.1 hfree.2] at hi
    exact Option.some.inj hi ▸ acts_drawAction hp hd hdraw
  · unfold State.internal at hi
    rw [hfree.1, hfree.2] at hi
    cases hph : s.phase <;> simp [hph, drawPhase] at hi hp
    case normalizing => exact .normalized t hph (normalized_leaveNormalizing hi)
    case clearing =>
      simp only [State.PhaseInv, hph] at h
      exact hi ▸ .present _ (.clearing hph h.2.1 h.2.2.1)

theorem inv_acts {s t : State} (h : s.Inv) (hdrv : s.drv = none) (ha : Acts s t) : t.Inv := by
  cases ha with
  | normalized t hp hn =>
    obtain ⟨hk, hi⟩ := (inv_iff s).mp h
    simp only [State.PhaseInv, hp] at hi
    exact inv_normalized hk hi.1 hn
  | present p hp => exact inv_present h hp
  | iterate dx dy pi hp hd => exact inv_iterators h dx dy pi
  | flipDue hp hd => exact inv_flipDue h hp hd hdrv

/-! ## Every port event and every step -/

/-- Settles O54: each of the five things a port event can be keeps the invariant. -/
theorem tickKeepsTheInvariant : Obligations.TickKeepsTheInvariant := by
  intro s t h ht
  obtain ⟨hk, hi⟩ := (inv_iff s).mp h
  cases tick_case h ht with
  | wait => exact h
  | byte b rest hp hdrv hrsp hc =>
    obtain ⟨hq, hr⟩ := quiet_of_receiving hi hp
    exact inv_received (s := { s with cmdIn := rest }) hk hq (received b hr)
  | accept p hp hdrv hrsp => exact inv_accepted h (presents_of_inv hi hdrv) Config.font
  | response w hp hdrv hrsp =>
    simp only [State.PhaseInv, hp] at hi
    obtain ⟨-, hdsub, hs, hcb, -⟩ := hi
    exact (inv_iff _).mpr ⟨hk, ⟨hdrv, rfl, hdsub, hs⟩, hcb⟩
  | internal t hdrv hrsp hact => exact inv_acts h hdrv (acts_of_internal hi hact)

/-- A whole command leads from `Idle` to `Respond` with the invariant. -/
theorem inv_of_ends {s t : State} (hk : s.Kept) (hq : s.Quiet) (h : Ends s t) : t.Inv := by
  obtain ⟨u, code, data, ps, rfl, hcode, he, -⟩ := h
  obtain ⟨hdrv, -, hdsub, hs⟩ := hq
  have hmem : memWf u.chip.fm := he.chip ▸ foldl_accept_memWf ps hk.2.1
  exact ⟨he.rst.trans hk.1, hmem, hcode, he.drv.trans hdrv, he.dsub.trans hdsub, he.settled hs, rfl, data, rfl⟩

/-- Settles O53: a step is a port event, or a whole command carried out from `Idle`. -/
theorem stepKeepsTheInvariant : Obligations.StepKeepsTheInvariant := by
  intro s t h ht
  obtain hstep | ⟨i, rest, hready, hstep⟩ := step_cases s
  · exact tickKeepsTheInvariant s t h (hstep ▸ ht)
  · obtain ⟨-, hp, -, -, hd⟩ := readyCommand_some hready
    obtain ⟨u, hu, hends⟩ := exec_command (isCommand_of_decodeCommand hd) { s with cmdIn := rest }
    obtain rfl : u = t := by rwa [← hstep, ht, Host.Outcome.next.injEq, eq_comm] at hu
    obtain ⟨hk, hi⟩ := (inv_iff s).mp h
    exact inv_of_ends (s := { s with cmdIn := rest }) hk (quiet_of_receiving hi (.inl hp)).1 hends

end Sys2Proof.Machine
end

section
/-! Proofs of the family other: what a port event shows, the phase graph, the handshakes and progress (R66, R67, R85,
R87, R189, R221). -/

namespace Sys2Proof.Machine

/-! ## What a byte, an action and an acceptance leave alone -/

/-- The phases a command begins in, with the collaborator and `ACTIVE` as before (R189). -/
theorem begin_kept (i : Instr) (s : State) (hi : i.isCommand = true) :
    (State.begin i s).chip = s.chip ∧ (State.begin i s).active = s.active ∧
      ((State.begin i s).phase = .clearing ∧ i = .clear ∨
        i ≠ .clear ∧ ((State.begin i s).phase = .normalizing ∨ (State.begin i s).phase = .bitmapDraw ∨
          (State.begin i s).phase = .respond)) := by
  cases i
  case paddr x y =>
    obtain ⟨code, data, -, e⟩ := begin_paddr x y s
    simp [e]
  case selectFrame => simp [Instr.isCommand] at hi
  case clearFrame => simp [Instr.isCommand] at hi
  case setPixel => simp [Instr.isCommand] at hi
  all_goals simp [State.begin, State.loadScroll]

theorem received_kept {s t : State} (h : Received s t) : t.chip = s.chip ∧ t.active = s.active := by
  cases h with
  | more cb hcb hd => exact ⟨rfl, rfl⟩
  | illegal op => exact ⟨rfl, rfl⟩
  | whole i cb hd hi =>
    obtain ⟨hchip, hactive, -⟩ := begin_kept i { s with cb := cb } (isCommand_of_decodeCommand hd)
    exact ⟨hchip, hactive⟩

theorem acts_kept {s t : State} (h : Acts s t) : t.chip = s.chip ∧ t.active = s.active := by
  cases h with
  | normalized t hp hn =>
    cases hn with
    | error u h e info => exact ⟨h.chip, h.active⟩
    | draw u h hp hb => exact ⟨h.chip, h.active⟩
  | present p hp => exact ⟨rfl, rfl⟩
  | iterate dx dy pi hp hd => exact ⟨rfl, rfl⟩
  | flipDue hp hd => exact ⟨rfl, rfl⟩

/-- After the flip a draw responds, or it is an animation that begins its next step (R189). -/
theorem afterDraw_kept (font : Font) (s : State) : (s.afterDraw font).chip = s.chip ∧
    (s.afterDraw font).active = s.active ∧ (s.afterDraw font).drv = s.drv ∧
    ((s.afterDraw font).phase = s.phase ∧ (s.afterDraw font).dsub = some .dSelect ∨
      (s.afterDraw font).phase = .respond) := by
  unfold State.afterDraw
  split_ifs <;> simp

theorem finishDraw_kept (font : Font) (s : State) : (s.finishDraw font).chip = s.chip ∧
    (s.finishDraw font).active = otherFrame s.active ∧ (s.finishDraw font).drv = s.drv ∧
    ((s.finishDraw font).phase = s.phase ∧ (s.finishDraw font).dsub = some .dSelect ∨
      (s.finishDraw font).phase = .respond) :=
  afterDraw_kept font { s with active := otherFrame s.active, dx := 0, dy := 0, pi := 0 }

/-- A draw that goes on stays in its phase or responds, and makes the drawn frame active with its flip (R64, R189). -/
theorem drawAccepted_kept (font : Font) (s : State) (d : DrawSub) : (s.drawAccepted font d).chip = s.chip ∧
    (s.drawAccepted font d).active = (if d = .dFlip then otherFrame s.active else s.active) ∧
    (s.drawAccepted font d).drv = s.drv ∧
    ((s.drawAccepted font d).phase = s.phase ∨ (s.drawAccepted font d).phase = .respond) := by
  cases d with
  | dSelect => exact ⟨rfl, rfl, rfl, .inl rfl⟩
  | dClear => exact ⟨rfl, rfl, rfl, .inl rfl⟩
  | dFlip =>
    obtain ⟨hchip, hactive, hdrv, hphase⟩ := finishDraw_kept font s
    exact ⟨hchip, hactive, hdrv, hphase.imp_left And.left⟩
  | dPixels =>
    simp only [State.drawAccepted]
    split
    · exact ⟨rfl, rfl, rfl, .inl rfl⟩
    · obtain ⟨dx, dy, e, -⟩ | ⟨-, e⟩ := nextPixel_cases s <;> rw [e] <;> exact ⟨rfl, rfl, rfl, .inl rfl⟩

/-- What the sequencer has done once the collaborator has accepted its primitive (R64, R134, R189). -/
structure Accepted (s t : State) (p : Prim) : Prop where
  chip : t.chip = s.chip.accept p
  active : t.active = if s.dsub = some .dFlip then otherFrame s.active else s.active
  drv : t.drv = none
  phase : drawPhase s.phase ∧ t.phase = s.phase ∨ t.phase = .respond

theorem accepted {s t : State} {p : Prim} (h : Presents s p) (font : Font)
    (ht : t = ({ s with drv := none }.acceptPrim p).advance font) : Accepted s t p := by
  have draw {d : DrawSub} (hp : drawPhase s.phase) (hd : s.dsub = some d) : Accepted s t p := by
    rw [ht, advance_draw (s := ({ s with drv := none } : State).acceptPrim p) hp hd]
    obtain ⟨hchip, hactive, hdrv, hphase⟩ := drawAccepted_kept font (({ s with drv := none } : State).acceptPrim p) d
    exact ⟨hchip, by simpa [hd] using hactive, hdrv, hphase.imp_left fun e => ⟨hp, e⟩⟩
  cases h with
  | clearing hp hd ha =>
    have e : t = ({ s with drv := none }.acceptPrim .clearFrame).respond okCode 0 := by
      rw [ht, State.advance, acceptPrim_phase]
      simp only [hp]
    constructor <;> simp [e, hd]
  | select hp hd ha => exact draw hp hd
  | clear hp hd ha => exact draw hp hd
  | pixel x y b hp hd ha => exact draw hp hd
  | flip hp hd ha => exact draw hp hd

/-- Only an accepted primitive changes the collaborator or `ACTIVE` (R63, R64). -/
theorem tick_kept {s t : State} (h : s.Inv) (ht : tick s = .next t) :
    t.chip = s.chip ∧ t.active = s.active ∨
    ∃ p, Presents s p ∧ t.chip = s.chip.accept p ∧
      t.active = if s.dsub = some .dFlip then otherFrame s.active else s.active := by
  obtain ⟨hk, hi⟩ := (inv_iff s).mp h
  cases tick_case h ht with
  | wait => exact .inl ⟨rfl, rfl⟩
  | byte b rest hp hdrv hrsp hc =>
    exact .inl (received_kept (s := { s with cmdIn := rest }) (received b (quiet_of_receiving hi hp).2))
  | response w hp hdrv hrsp => exact .inl ⟨rfl, rfl⟩
  | internal t hdrv hrsp hact => exact .inl (acts_kept (acts_of_internal hi hact))
  | accept p hp hdrv hrsp =>
    have hpres := presents_of_inv hi hdrv
    have hacc := accepted hpres Config.font rfl
    exact .inr ⟨p, hpres, hacc.chip, hacc.active⟩

/-! ## The shown frame and the inactive frame -/

/-- Settles O56: what is accepted inside a draw is aimed at the frame that is not shown, until the flip, which writes no
cell; outside a draw only CLEAR is accepted. -/
theorem noTearing : Obligations.NoTearing := by
  intro s t h ht
  obtain ⟨hchip, -⟩ | ⟨p, hp, hchip, hactive⟩ := tick_kept h ht
  · exact .inl ⟨by rw [hchip], .inl fun idx => by rw [hchip]⟩
  have hidden (ha : s.Aimed) : s.chip.visible ≠ s.chip.target := by
    rw [ha.1, ha.2]; exact (otherFrame_ne _).symm
  rw [hchip]
  cases hp with
  | clearing hp hd ha =>
    have hshown : s.chip.visible = s.chip.target := ha.2.trans ha.1.symm
    exact .inl ⟨rfl, .inr ⟨hp, fun idx => by simp [hshown]⟩⟩
  | select hp hd ha => exact .inl ⟨rfl, .inl fun idx => rfl⟩
  | clear hp hd ha => exact .inl ⟨rfl, .inl fun idx => by simp [hidden ha]⟩
  | pixel x y b hp hd ha =>
    exact .inl ⟨accept_pixelPrim_visible .., .inl fun idx => by simp [cell_accept_pixelPrim, hidden ha]⟩
  | flip hp hd ha =>
    rw [if_pos hd] at hactive
    exact .inr ⟨by simp [ha.2], hd, hactive, fun f idx => rfl⟩

/-- Settles O57: outside a draw only the CLEAR of the visible frame, which is the active one, is ever accepted. -/
theorem inactiveFrameKept : Obligations.InactiveFrameKept := by
  intro s t h ht hdsub
  obtain ⟨hchip, hactive⟩ | ⟨p, hp, hchip, hactive⟩ := tick_kept h ht
  · exact ⟨hactive, fun idx => by rw [hchip]⟩
  rw [hdsub, if_neg (by simp)] at hactive
  refine ⟨hactive, fun idx => ?_⟩
  rw [hchip]
  cases hp with
  | clearing hp hd ha => simp [ha.1, otherFrame_ne]
  | select hp hd ha => simp [hd] at hdsub
  | clear hp hd ha => simp [hd] at hdsub
  | pixel x y b hp hd ha => simp [hd] at hdsub
  | flip hp hd ha => simp [hd] at hdsub

/-! ## The phase graph -/

/-- A draw can stay in its phase, and can end. -/
theorem phaseEdge_draw {p : Phase} (h : drawPhase p) : phaseEdge p p = true ∧ phaseEdge p .respond = true := by
  rcases h with rfl | rfl | rfl | rfl <;> exact ⟨rfl, rfl⟩

theorem phaseEdge_received {s t : State} (hp : s.phase = .idle ∨ s.phase = .receive) (h : Received s t) :
    phaseEdge s.phase t.phase = true := by
  cases h with
  | more cb hcb hd => rcases hp with hp | hp <;> rw [hp] <;> rfl
  | illegal op => rcases hp with hp | hp <;> rw [hp] <;> rfl
  | whole i cb hd hi =>
    obtain ⟨-, -, ⟨he, hc⟩ | ⟨hc, he⟩⟩ := begin_kept i { s with cb := cb } (isCommand_of_decodeCommand hd)
    · rw [he, hi.mp hc]; rfl
    · have hr := hp.resolve_left fun e => hc (hi.mpr e)
      rcases he with he | he | he <;> rw [he, hr] <;> rfl

theorem phaseEdge_acts {s t : State} (h : Acts s t) : phaseEdge s.phase t.phase = true := by
  cases h with
  | normalized t hp hn =>
    rw [hp]
    cases hn with
    | error u h e info => rfl
    | draw u h hp hb => rcases hp with hp | hp | hp <;> simp only [hp] <;> rfl
  | present p hp =>
    rw [present_phase]
    cases hp with
    | clearing hp hd ha => rw [hp]; rfl
    | select hp hd ha => exact (phaseEdge_draw hp).1
    | clear hp hd ha => exact (phaseEdge_draw hp).1
    | pixel x y b hp hd ha => exact (phaseEdge_draw hp).1
    | flip hp hd ha => exact (phaseEdge_draw hp).1
  | iterate dx dy pi hp hd => exact (phaseEdge_draw hp).1
  | flipDue hp hd => exact (phaseEdge_draw hp).1

/-- Settles O58: each of the five things a port event can be follows an edge. -/
theorem phaseGraph : Obligations.PhaseGraph := by
  intro s t h ht
  obtain ⟨hk, hi⟩ := (inv_iff s).mp h
  cases tick_case h ht with
  | wait hp => rw [hp]; rfl
  | byte b rest hp hdrv hrsp hc =>
    exact phaseEdge_received (s := { s with cmdIn := rest }) hp (received b (quiet_of_receiving hi hp).2)
  | response w hp hdrv hrsp => rw [hp]; rfl
  | internal t hdrv hrsp hact => exact phaseEdge_acts (acts_of_internal hi hact)
  | accept p hp hdrv hrsp =>
    obtain ⟨hdraw, e⟩ | e := (accepted (presents_of_inv hi hdrv) Config.font rfl).phase
    · rw [e]; exact (phaseEdge_draw hdraw).1
    · rw [e]
      rcases drawPhase_or_clearing hi (by simp [hdrv]) with hdraw | hclear
      · exact (phaseEdge_draw hdraw).2
      · rw [hclear]; rfl

/-! ## The handshakes -/

/-- Inside the invariant a primitive and a response are never both on the ports, and no byte is accepted meanwhile. -/
theorem not_cmdReady {s : State} (h : s.Inv) (hw : s.drv ≠ none ∨ s.rsp ≠ none) : s.cmdReady = false := by
  rw [State.cmdReady, Bool.and_eq_false_iff, Bool.or_eq_false_iff]
  refine .inr ⟨?idle, ?receive⟩
  all_goals
    have quiet (hp : s.phase = .idle ∨ s.phase = .receive) : False := by
      obtain ⟨⟨hdrv, hrsp, -⟩, -⟩ := quiet_of_receiving ((inv_iff s).mp h).2 hp
      simp [hdrv, hrsp] at hw
  case idle => simp [show s.phase ≠ .idle from fun e => quiet (.inl e)]
  case receive => exact decide_eq_false fun e => quiet (.inr e)

theorem internal_eq_none {s : State} (h : s.drv ≠ none ∨ s.rsp ≠ none) (font : Font) : s.internal font = none :=
  if_pos (by simpa [Option.isSome_iff_ne_none] using h)

/-- Settles O51: while a word is held no byte is accepted and LMX does not act, so that what is left is the release of
`rst` and the other handshake. -/
theorem handshakesHold : Obligations.HandshakesHold := by
  intro s t e h ht hrst
  have held (hw : s.drv ≠ none ∨ s.rsp ≠ none) (hdrv : e ≠ .drvReady) (hrsp : e ≠ .rspReady) :
      t = s.releaseReset := by
    cases e with
    | cmdByte b => simp [portStep, not_cmdReady h hw] at ht
    | drvReady => exact absurd rfl hdrv
    | rspReady => exact absurd rfl hrsp
    | internal => simp [portStep, h.1, internal_eq_none hw] at ht
    | rst level =>
      cases level with
      | true => exact absurd rfl hrst
      | false => exact (Option.some.inj ht).symm
  refine ⟨fun w hw he => ?primitive, fun w hw he => ?response⟩
  case primitive =>
    have hrsp : e ≠ .rspReady := by
      rintro rfl
      simp [portStep, h.1, (drv_emitted h hw).1] at ht
    rw [held (.inl (by simp [hw])) he hrsp]
    exact hw
  case response =>
    have hdrv : e ≠ .drvReady := by
      rintro rfl
      cases hd : s.drv with
      | none => simp [portStep, h.1, hd] at ht
      | some v => simp [(drv_emitted h hd).1] at hw
    rw [held (.inr (by simp [hw])) hdrv he]
    exact hw

/-! ## Progress -/

theorem leaveNormalizing_isSome {s : State} {i : Instr} (font : Font) (hd : decodeCommand s.cb = .ok (i, []))
    (hi : (∃ b text, i = .scroll b text) ∨ (∃ b n, i = .scrolln b n) ∨ (∃ ts, i = .pixels ts) ∨
      ∃ chars, i = .imgstr chars) : ∃ t, s.leaveNormalizing font = some t := by
  unfold State.leaveNormalizing
  rw [hd]
  rcases hi with ⟨b, text, rfl⟩ | ⟨b, n, rfl⟩ | ⟨ts, rfl⟩ | ⟨chars, rfl⟩ <;> exact ⟨_, rfl⟩

/-- LMX can act wherever it waits for no handshake. -/
theorem internal_isSome {s : State} (h : s.PhaseInv) (hdrv : s.drv = none) (hrsp : s.rsp = none)
    (h1 : s.phase ≠ .idle) (h2 : s.phase ≠ .receive) (font : Font) : ∃ t, s.internal font = some t := by
  by_cases hp : drawPhase s.phase
  · obtain ⟨⟨-, d, hd, -⟩, -⟩ := (phaseInv_draw_iff hp).mp h
    exact ⟨_, internal_draw hp hd hdrv hrsp font⟩
  · unfold State.internal
    rw [hdrv, hrsp]
    cases hph : s.phase <;> simp only [State.PhaseInv, hph] at h <;> simp [hph, drawPhase] at hp h1 h2 ⊢
    case normalizing =>
      obtain ⟨-, i, hd, hi⟩ := h
      exact leaveNormalizing_isSome font hd hi
    case respond => simp [hrsp] at h

theorem tick_progress {s : State} (h : s.Inv) :
    (∃ t, tick s = .next t) ∨ (tick s = .fault .stuckInReceive ∧ s.phase = .receive ∧ s.cmdIn = []) := by
  have hrst := h.1
  cases hdrv : s.drv with
  | some w =>
    obtain ⟨-, p, hp, rfl⟩ := drv_emitted h hdrv
    exact .inl ⟨_, (tick_drv hrst hdrv).trans (acceptWord_emitted hp s)⟩
  | none =>
    cases hrsp : s.rsp with
    | some w => exact .inl ⟨_, tick_rsp hrst hdrv hrsp⟩
    | none =>
      by_cases hp : s.phase = .idle ∨ s.phase = .receive
      · cases hc : s.cmdIn with
        | cons b rest => exact .inl ⟨_, tick_byte hrst hdrv hrsp hp hc⟩
        | nil =>
          rcases hp with hp | hp
          · exact .inl ⟨s, by simp [tick, hrst, hdrv, hrsp, hp, hc]⟩
          · exact .inr ⟨by simp [tick, hrst, hdrv, hrsp, hp, hc], hp, rfl⟩
      · rw [not_or] at hp
        obtain ⟨t, ht⟩ := internal_isSome ((inv_iff s).mp h).2 hdrv hrsp hp.1 hp.2 Config.font
        exact .inl ⟨t, tick_internal hrst hdrv hrsp hp.1 hp.2 ht⟩

/-- Settles O55: a step is a whole command, which always completes, or a port event, which only an empty command port
can hold up. -/
theorem onlyStuckInReceive : Obligations.OnlyStuckInReceive := by
  intro s h
  obtain hstep | ⟨i, rest, hready, hstep⟩ := step_cases s
  · rw [hstep]
    exact tick_progress h
  · obtain ⟨-, -, -, -, hd⟩ := readyCommand_some hready
    obtain ⟨t, ht, -⟩ := exec_command (isCommand_of_decodeCommand hd) { s with cmdIn := rest }
    exact .inl ⟨t, hstep.trans ht⟩

end Sys2Proof.Machine
end

section
/-! Proofs of the family other: every phase but `Receive` leads to `Idle` (R222). -/

namespace Sys2Proof.Machine

/-- A run of port events ends in `Idle`. -/
def State.LeadsToIdle (s : State) : Prop := ∃ n t, ticks n s = .next t ∧ t.phase = .idle

theorem leadsToIdle_of_ticks {n : Nat} {s t : State} (h : ticks n s = .next t) (ht : t.LeadsToIdle) :
    s.LeadsToIdle := by
  obtain ⟨m, u, hu, hp⟩ := ht
  exact ⟨n + m, u, ticks_trans h hu, hp⟩

/-- The invariant holds along a run. -/
theorem inv_ticks {n : Nat} {s t : State} (h : s.Inv) (ht : ticks n s = .next t) : t.Inv := by
  induction n generalizing s with
  | zero => exact Host.Outcome.next.inj ht ▸ h
  | succ n ih =>
    simp only [ticks] at ht
    split at ht
    next u hu => exact ih (tickKeepsTheInvariant s u h hu) ht
    all_goals cases ht

/-- The one draw of a command that is no animation ends with the response. -/
theorem afterDraw_flipped {u : State} (hp : u.phase ≠ .animatingStep) (font : Font) :
    ({ u with dsub := some .dFlip } : State).afterDraw font = { u.respond okCode 0 with dsub := none } :=
  afterDraw_once hp font

theorem drawWith_phase (s : State) (pixels : List Prim) : (s.drawWith pixels).phase = s.phase := by
  rw [drawWith_eq]

theorem leadsToIdle_respond {s : State} (h : s.Inv) (hp : s.phase = .respond) : s.LeadsToIdle := by
  obtain ⟨w, hw⟩ := Option.ne_none_iff_exists'.mp (phase_rsp h hp)
  have hdrv : s.drv = none := by
    by_contra hd
    obtain ⟨v, hv⟩ := Option.ne_none_iff_exists'.mp hd
    simp [(drv_emitted h hv).1] at hw
  exact ⟨1, _, ticks_one (tick_rsp h.1 hdrv hw), rfl⟩

/-! ## The sub-phases of a draw, from the last one on -/

section draw

variable {s : State} (h : s.Inv) (hp : drawPhase s.phase) (hdrv : s.drv = none)

include h hp hdrv

theorem ready_of_draw : Ready s := by
  obtain ⟨⟨hrsp, -⟩, -⟩ := (phaseInv_draw_iff hp).mp ((inv_iff s).mp h).2
  exact ⟨h.1, hdrv, hrsp⟩

/-- The last animation steps, from the beginning of any of them. -/
theorem leadsToIdle_marquee (ha : s.phase = .animatingStep) (hd : s.dsub = some .dSelect) : s.LeadsToIdle := by
  obtain ⟨-, hb⟩ := (phaseInv_draw_iff hp).mp ((inv_iff s).mp h).2
  have hlt := (hb.1 ha).1
  have hsc := s.sc.isLt
  obtain ⟨n, hn⟩ := ticks_marquee (6 * s.tlen.toNat - (6 * s.ci.toNat + s.sc.val) - 1) s (ready_of_draw h hp hdrv) ha hd
    (by omega)
  exact leadsToIdle_of_ticks hn (leadsToIdle_respond (inv_ticks h hn) rfl)

theorem leadsToIdle_select (hd : s.dsub = some .dSelect) : s.LeadsToIdle := by
  have hready := ready_of_draw h hp hdrv
  by_cases ha : s.phase = .animatingStep
  · exact leadsToIdle_marquee h hp hdrv ha hd
  have run : ∃ n u, ticks n s = .next u ∧ u.phase = .respond := by
    by_cases hpx : s.phase = .pixelDraw
    · obtain ⟨-, hb⟩ := (phaseInv_draw_iff hp).mp ((inv_iff s).mp h).2
      obtain ⟨n, hn⟩ := ticks_drawPixels hready hpx hd (hb.2 hpx)
      rw [afterDraw_flipped (u := s.drawPixels) ((drawWith_phase s _).trans_ne ha)] at hn
      exact ⟨n, _, hn, rfl⟩
    · obtain ⟨n, hn⟩ := ticks_drawBitmap hready hp hpx hd
      rw [afterDraw_flipped (u := s.drawBitmap) ((drawWith_phase s _).trans_ne ha)] at hn
      exact ⟨n, _, hn, rfl⟩
  obtain ⟨n, u, hn, hu⟩ := run
  exact leadsToIdle_of_ticks hn (leadsToIdle_respond (inv_ticks h hn) hu)

theorem leadsToIdle_flip (hd : s.dsub = some .dFlip) : s.LeadsToIdle := by
  have hn := ticks_flip (ready_of_draw h hp hdrv) hp hd
  refine leadsToIdle_of_ticks hn ?_
  have hinv := inv_ticks h hn
  obtain ⟨-, -, hdrv', ⟨hphase, hdsub⟩ | hphase⟩ := finishDraw_kept Config.font
    (s.acceptPrim (.selectFrame (otherFrame s.active) true))
  · exact leadsToIdle_select hinv (by rw [hphase]; exact hp) (hdrv'.trans hdrv) hdsub
  · exact leadsToIdle_respond hinv hphase

theorem leadsToIdle_pixels (hd : s.dsub = some .dPixels) : s.LeadsToIdle := by
  have hready := ready_of_draw h hp hdrv
  have run : ∃ n u, ticks n s = .next u ∧ u.phase = s.phase ∧ u.drv = none ∧ u.dsub = some .dFlip := by
    by_cases hpx : s.phase = .pixelDraw
    · obtain ⟨-, hb⟩ := (phaseInv_draw_iff hp).mp ((inv_iff s).mp h).2
      obtain ⟨n, pi, hn⟩ := ticks_list _ s hready hpx hd (hb.2 hpx) rfl
      rw [acceptAll_eq] at hn
      exact ⟨n, _, hn, rfl, hdrv, rfl⟩
    · obtain ⟨n, dx, dy, hn⟩ := ticks_bitmap _ s hready hp hpx hd rfl
      rw [acceptAll_eq] at hn
      exact ⟨n, _, hn, rfl, hdrv, rfl⟩
  obtain ⟨n, u, hn, hphase, hdrv', hdsub⟩ := run
  exact leadsToIdle_of_ticks hn (leadsToIdle_flip (inv_ticks h hn) (hphase ▸ hp) hdrv' hdsub)

theorem leadsToIdle_clear (hd : s.dsub = some .dClear) : s.LeadsToIdle := by
  obtain ⟨hrst, -, hrsp⟩ := ready_of_draw h hp hdrv
  have hn := ticks_emit hrst hp hd hdrv hrsp rfl (p := .clearFrame) True.intro
  exact leadsToIdle_of_ticks hn (leadsToIdle_pixels (inv_ticks h hn) hp hdrv rfl)

theorem leadsToIdle_draw : s.LeadsToIdle := by
  obtain ⟨⟨-, d, hd, -⟩, -⟩ := (phaseInv_draw_iff hp).mp ((inv_iff s).mp h).2
  cases d with
  | dSelect => exact leadsToIdle_select h hp hdrv hd
  | dClear => exact leadsToIdle_clear h hp hdrv hd
  | dPixels => exact leadsToIdle_pixels h hp hdrv hd
  | dFlip => exact leadsToIdle_flip h hp hdrv hd

end draw

/-! ## From every phase -/

/-- A presented primitive is accepted, and the draw goes on or the response is issued. -/
theorem leadsToIdle_presented {s : State} (h : s.Inv) (hdrv : s.drv ≠ none) : s.LeadsToIdle := by
  obtain ⟨w, hw⟩ := Option.ne_none_iff_exists'.mp hdrv
  obtain ⟨-, p, hp, rfl⟩ := drv_emitted h hw
  have hn := ticks_one ((tick_drv h.1 hw).trans (acceptWord_emitted hp s))
  have hacc := accepted (presents_of_inv ((inv_iff s).mp h).2 hw) Config.font rfl
  refine leadsToIdle_of_ticks hn ?_
  obtain ⟨hdraw, hphase⟩ | hphase := hacc.phase
  · exact leadsToIdle_draw (inv_ticks h hn) (by rw [hphase]; exact hdraw) hacc.drv
  · exact leadsToIdle_respond (inv_ticks h hn) hphase

/-- What LMX does on its own leads on to a draw, a presented primitive or the response. -/
theorem leadsToIdle_acts {s t : State} (h : s.Inv) (hdrv : s.drv = none) (hp : ¬ drawPhase s.phase) (ha : Acts s t)
    (ht : tick s = .next t) : s.LeadsToIdle := by
  have hinv := tickKeepsTheInvariant s t h ht
  refine leadsToIdle_of_ticks (ticks_one ht) ?_
  cases ha with
  | normalized t hn hnorm =>
    cases hnorm with
    | error u hu e info => exact leadsToIdle_respond hinv rfl
    | draw u hu hpu hb =>
      exact leadsToIdle_draw hinv (by unfold drawPhase; tauto) (hu.drv.trans hdrv)
  | present p hpres => exact leadsToIdle_presented hinv (by simp)
  | iterate dx dy pi hdraw => exact absurd hdraw hp
  | flipDue hdraw => exact absurd hdraw hp

/-- Settles O60: a draw goes on from its sub-phase to its flip, the cursor to the end of the text, and what is left is
one port event before these or the response. -/
theorem sequencerReturnsToIdle : Obligations.SequencerReturnsToIdle := by
  intro s h h1 h2
  by_cases hdrv : s.drv = none
  · by_cases hp : drawPhase s.phase
    · exact leadsToIdle_draw h hp hdrv
    · by_cases hr : s.phase = .respond
      · exact leadsToIdle_respond h hr
      · have hi := ((inv_iff s).mp h).2
        have hrsp : s.rsp = none := by
          by_contra hw
          obtain ⟨w, hw⟩ := Option.ne_none_iff_exists'.mp hw
          exact hr (rsp_phase h hw)
        obtain ⟨t, ht⟩ := internal_isSome hi hdrv hrsp h1 h2 Config.font
        exact leadsToIdle_acts h hdrv hp (acts_of_internal hi ht) (tick_internal h.1 hdrv hrsp h1 h2 ht)
  · exact leadsToIdle_presented h hdrv

end Sys2Proof.Machine
end

section
/-! Proofs of the family other: the run of single handshakes over the bytes of a command ends where its meaning ends
(D34, R25, R189). -/

namespace Sys2Proof.Machine

/-! ## No meaning depends on the phase or on `CB` -/

/-- The phase and the received bytes replaced. -/
def State.relabel (s : State) (p : Phase) (cb : List Byte) : State := { s with phase := p, cb := cb }

section relabel

variable (s : State) (p : Phase) (cb : List Byte)

theorem relabel_cb : (s.relabel p cb).cb = cb := rfl
theorem respond_relabel (code : BitVec 4) (data : Byte) :
    (s.relabel p cb).respond code data = s.respond code data := rfl
theorem raise_relabel (e : ErrorCause) (info : Byte) : (s.relabel p cb).raise e info = s.raise e info := rfl
theorem loadScroll_relabel (b : BitVec 16) (text : List Byte) :
    (s.relabel p cb).loadScroll b text = (s.loadScroll b text).relabel p cb := rfl
theorem normaliseText_relabel : (s.relabel p cb).normaliseText = s.normaliseText.relabel p cb := rfl
theorem loadPixels_relabel (ts : List Triple) : (s.relabel p cb).loadPixels ts = (s.loadPixels ts).relabel p cb := rfl
theorem loadBitmap_relabel (b : BitVec 16) (masks : Vector Byte 17) :
    (s.relabel p cb).loadBitmap b masks = (s.loadBitmap b masks).relabel p cb := rfl
theorem fillStatic_relabel (font : Font) : (s.relabel p cb).fillStatic font = (s.fillStatic font).relabel p cb := rfl
theorem startMarquee_relabel : (s.relabel p cb).startMarquee = s.startMarquee.relabel p cb := rfl
theorem shiftIn_relabel (font : Font) : (s.relabel p cb).shiftIn font = (s.shiftIn font).relabel p cb := rfl
theorem advanceCursor_relabel : (s.relabel p cb).advanceCursor = s.advanceCursor.relabel p cb := rfl
theorem text_relabel : (s.relabel p cb).text = s.text := rfl
theorem pixelList_relabel : (s.relabel p cb).pixelList = s.pixelList := rfl
theorem tlen_relabel : (s.relabel p cb).tlen = s.tlen := rfl

theorem drawWith_relabel (pixels : List Prim) :
    (s.relabel p cb).drawWith pixels = (s.drawWith pixels).relabel p cb := by
  rw [drawWith_eq, drawWith_eq]
  rfl

theorem drawBitmap_relabel : (s.relabel p cb).drawBitmap = s.drawBitmap.relabel p cb := drawWith_relabel ..

theorem drawPixels_relabel : (s.relabel p cb).drawPixels = s.drawPixels.relabel p cb := drawWith_relabel ..

theorem marqueeStep_relabel (font : Font) :
    (s.relabel p cb).marqueeStep font = (s.marqueeStep font).relabel p cb := by
  rw [State.marqueeStep, shiftIn_relabel, drawBitmap_relabel, advanceCursor_relabel, State.marqueeStep]

end relabel

theorem marqueeSteps_relabel (font : Font) (n : Nat) (s : State) (p : Phase) (cb : List Byte) :
    State.marqueeSteps font n (s.relabel p cb) = (State.marqueeSteps font n s).relabel p cb := by
  induction n generalizing s with
  | zero => rfl
  | succ n ih => rw [State.marqueeSteps, marqueeStep_relabel, ih, State.marqueeSteps]

theorem renderText_relabel (font : Font) (s : State) (p : Phase) (cb : List Byte) :
    (s.relabel p cb).renderText font = s.renderText font := by
  simp only [State.renderText, text_relabel, tlen_relabel, startMarquee_relabel, fillStatic_relabel,
    marqueeSteps_relabel, drawBitmap_relabel, respond_relabel, raise_relabel]

theorem scrollText_relabel (font : Font) (s : State) (p : Phase) (cb : List Byte) :
    (s.relabel p cb).scrollText font = s.scrollText font := by
  rw [State.scrollText, normaliseText_relabel, renderText_relabel, State.scrollText]

theorem showPixels_relabel (s : State) (p : Phase) (cb : List Byte) :
    (s.relabel p cb).showPixels = s.showPixels := by
  simp only [State.showPixels, pixelList_relabel, drawPixels_relabel, respond_relabel, raise_relabel]

/-- A command discards the phase it begins in and the bytes it came from. -/
theorem exec_relabel {i : Instr} (hi : i.isCommand = true) (s : State) (p : Phase) (cb : List Byte) :
    exec i (s.relabel p cb) = exec i s := by
  cases i with
  | clear => rfl
  | scroll b text => simp only [exec, execScroll, loadScroll_relabel, scrollText_relabel]
  | scrolln b n => simp only [exec, execScrolln, loadScroll_relabel, scrollText_relabel]
  | draw b masks => simp only [exec, execDraw, loadBitmap_relabel, drawBitmap_relabel, respond_relabel]
  | pixels ts => simp only [exec, execPixels, loadPixels_relabel, showPixels_relabel]
  | imgstr chars =>
    simp only [exec, execImgstr, loadPixels_relabel, drawPixels_relabel, respond_relabel, raise_relabel]
  | paddr x y => rfl
  | selectFrame id shown => simp [Instr.isCommand] at hi
  | clearFrame => simp [Instr.isCommand] at hi
  | setPixel pcol prow b => simp [Instr.isCommand] at hi

/-! ## From the begin of a command to its response -/

/-- A draw discards the sub-phase it began in. -/
theorem drawWith_respond_dsub {s : State} (hd : s.dsub = none) (d : Option DrawSub) (pixels : List Prim) :
    ({ (({ s with dsub := d } : State).drawWith pixels).respond okCode 0 with dsub := none } : State) =
      (s.drawWith pixels).respond okCode 0 := by
  rw [drawWith_eq, drawWith_eq]
  simp only [State.respond, hd]

/-- The one draw of a bitmap, and the response. -/
theorem ticks_bitmap_respond {s : State} (hr : Ready s) (hp : s.phase = .staticDraw ∨ s.phase = .bitmapDraw)
    (hd : s.dsub = none) :
    ∃ n, ticks n { s with dsub := some .dSelect } = .next (s.drawBitmap.respond okCode 0) := by
  have hdraw : drawPhase s.phase := hp.imp_right .inl
  obtain ⟨n, hn⟩ := ticks_drawBitmap (s := { s with dsub := some .dSelect }) hr hdraw
    (fun e => by simp [show s.phase = _ from e] at hp) rfl
  rw [afterDraw_flipped (u := ({ s with dsub := some .dSelect } : State).drawBitmap) ((drawWith_phase _ _).trans_ne
    fun e => by simp [show s.phase = _ from e] at hp)] at hn
  exact ⟨n, hn.trans (congrArg _ (drawWith_respond_dsub hd (some .dSelect) (bitmapPixels s.sb s.br)))⟩

/-- The one draw of a pixel list, and the response. -/
theorem ticks_pixels_respond {s : State} (hr : Ready s) (hp : s.phase = .pixelDraw) (hd : s.dsub = none)
    (hv : ∀ t ∈ s.pixelList, (panelPoint? t.x t.y).isSome) :
    ∃ n, ticks n { s with dsub := some .dSelect } = .next (s.drawPixels.respond okCode 0) := by
  obtain ⟨n, hn⟩ := ticks_drawPixels (s := { s with dsub := some .dSelect }) hr hp rfl hv
  rw [afterDraw_flipped (u := ({ s with dsub := some .dSelect } : State).drawPixels) ((drawWith_phase _ _).trans_ne
    (by simp [hp]))] at hn
  exact ⟨n, hn.trans (congrArg _ (drawWith_respond_dsub hd (some .dSelect) (s.pixelList.filterMap triplePixel)))⟩

/-- All steps of an animation, and the response. -/
theorem ticks_marquee_respond {s : State} (hr : Ready s) (hp : s.phase = .animatingStep) (hd : s.dsub = none)
    (hlen : 0 < s.tlen.toNat) :
    ∃ n, ticks n { s.startMarquee.shiftIn Config.font with dsub := some .dSelect } =
      .next ((State.marqueeSteps Config.font (6 * s.tlen.toNat) s.startMarquee).respond okCode 0) := by
  obtain ⟨hphase, hdsub, hci, hsc, htlen⟩ := again_fields s.startMarquee
  obtain ⟨n, hn⟩ := ticks_marquee (6 * s.tlen.toNat - 1) s.startMarquee.again (again_ready hr) (hphase.trans hp) hdsub
    (by rw [hci, hsc, htlen]; simp; omega)
  have hstart : ({ s.startMarquee with dsub := none } : State) = s.startMarquee := by
    rw [← hd]; rfl
  rw [again_step, hstart, ← State.marqueeSteps, Nat.succ_eq_add_one, Nat.sub_add_cancel (by omega)] at hn
  exact ⟨n, hn⟩

/-- A normalised text is rendered (R150, R153). -/
theorem ticks_enterText {s : State} (hr : Ready s) (hd : s.dsub = none) (hlen : 0 < s.tlen.toNat) :
    ∃ n, ticks n (s.enterText Config.font) = .next (s.renderText Config.font) := by
  unfold State.enterText
  split
  next j hj => exact ⟨0, by rw [State.renderText, hj]; rfl⟩
  next hj =>
    split
    next h3 =>
      rw [State.renderText, hj]
      simp only [h3, if_true]
      have hr' : Ready (s.fillStatic Config.font) := by simpa [Ready] using hr
      have hd' : (s.fillStatic Config.font).dsub = none := by rw [fillStatic_dsub, hd]
      generalize s.fillStatic Config.font = u at hr' hd'
      obtain ⟨n, hn⟩ := ticks_bitmap_respond (s := u.relabel .staticDraw u.cb) hr' (.inl rfl) hd'
      rw [drawBitmap_relabel, respond_relabel] at hn
      exact ⟨n, hn⟩
    next h3 =>
      obtain ⟨n, hn⟩ := ticks_marquee_respond (s := s.relabel .animatingStep s.cb) hr rfl hd hlen
      rw [startMarquee_relabel, shiftIn_relabel, tlen_relabel, marqueeSteps_relabel, respond_relabel] at hn
      rw [State.renderText, hj]
      simp only [h3, if_false]
      have hcb : (s.startMarquee.shiftIn Config.font).cb = s.cb := by rw [shiftIn_cb, startMarquee_cb]
      generalize s.startMarquee.shiftIn Config.font = u at hn hcb ⊢
      rw [← hcb] at hn
      exact ⟨n, hn⟩

/-- A pixel list is checked and drawn (R177, R182). -/
theorem ticks_leaveList {s : State} (hr : Ready s) (hd : s.dsub = none) :
    ∃ n, ticks n s.leaveList = .next s.showPixels := by
  unfold State.leaveList
  split
  next j hj => exact ⟨0, by rw [State.showPixels, hj]; rfl⟩
  next hj =>
    obtain ⟨n, hn⟩ := ticks_pixels_respond (s := s.relabel .pixelDraw s.cb) hr rfl hd (firstOffPanel_none.mp hj)
    refine ⟨n, hn.trans ?_⟩
    rw [drawPixels_relabel, respond_relabel, State.showPixels, hj]

/-- An image string is checked, decoded and drawn (R183). -/
theorem ticks_leaveImage {s : State} (hr : Ready s) (hd : s.dsub = none) (chars : List Byte) :
    ∃ n t, exec (.imgstr chars) s = .next t ∧ ticks n (s.leaveImage chars) = .next t := by
  rw [exec, execImgstr, State.leaveImage]
  cases hj : imageDefect chars with
  | some j => exact ⟨0, _, rfl, rfl⟩
  | none =>
    have hv : ∀ t ∈ (s.loadPixels (decodeImage chars)).pixelList, (panelPoint? t.x t.y).isSome := by
      rw [pixelList_loadPixels s _ (by simp [length_decodeImage])]
      exact decodeImage_onPanel chars
    have hr' : Ready (s.loadPixels (decodeImage chars)) := by simpa [Ready] using hr
    have hd' : (s.loadPixels (decodeImage chars)).dsub = none := by rw [loadPixels_dsub, hd]
    generalize s.loadPixels (decodeImage chars) = u at hr' hd' hv
    obtain ⟨n, hn⟩ := ticks_pixels_respond (s := u.relabel .pixelDraw u.cb) hr' rfl hd' hv
    rw [drawPixels_relabel, respond_relabel] at hn
    exact ⟨n, _, rfl, hn⟩

/-- The one tick that leaves `Normalizing` (R189). -/
theorem tick_normalizing {s t : State} (hr : Ready s) (hp : s.phase = .normalizing)
    (ht : s.leaveNormalizing Config.font = some t) : tick s = .next t := by
  obtain ⟨hrst, hdrv, hrsp⟩ := hr
  refine tick_internal hrst hdrv hrsp (by simp [hp]) (by simp [hp]) ?_
  rw [State.internal, hdrv, hrsp, hp]
  exact ht

/-- The text of a scroll is normalised and rendered (R150). -/
theorem ticks_leaveText {s : State} (hr : Ready s) (hd : s.dsub = none) :
    ∃ n, ticks n (s.leaveText Config.font) = .next (s.scrollText Config.font) := by
  have hlen := normalise_length_ge_three s.text
  rw [← tlen_normaliseText] at hlen
  exact ticks_enterText (s := s.normaliseText) (by simpa [Ready, State.normaliseText] using hr)
    (by simpa [State.normaliseText] using hd) (by omega)

/-- A clear: presented, then accepted (R176). -/
theorem ticks_clearing {s : State} (hr : Ready s) (hp : s.phase = .clearing) :
    ticks 2 s = .next ((s.acceptPrim .clearFrame).respond okCode 0) := by
  obtain ⟨hrst, hdrv, hrsp⟩ := hr
  have h1 : tick s = .next (s.present .clearFrame) :=
    tick_internal hrst hdrv hrsp (by simp [hp]) (by simp [hp]) (by rw [State.internal, hdrv, hrsp, hp]; rfl)
  have h2 : tick (s.present .clearFrame) = .next ((s.acceptPrim .clearFrame).respond okCode 0) := by
    rw [tick_drv (s := s.present .clearFrame) hrst rfl, acceptWord_emitted (p := .clearFrame) True.intro]
    have e : ({ s.present .clearFrame with drv := none } : State) = s := by rw [← hdrv]; rfl
    rw [e, State.advance, acceptPrim_phase, hp]
  exact ticks_trans (ticks_one h1) (ticks_one h2)

/-- One tick leaves `Normalizing`, and a run from there on answers the meaning. -/
theorem ticks_normalizing {s u t : State} (hr : Ready s) (hp : s.phase = .normalizing)
    (hu : s.leaveNormalizing Config.font = some u) (h : ∃ n, ticks n u = .next t) : ∃ n, ticks n s = .next t := by
  obtain ⟨n, hn⟩ := h
  exact ⟨1 + n, ticks_trans (ticks_one (tick_normalizing hr hp hu)) hn⟩

section begin

variable {s : State} (hr : Ready s) (hd : s.dsub = none)

include hr hd

/-- A scroll from its last byte on, with the text of its operand (R150, R161). -/
theorem ticks_scroll {i : Instr} (hcb : decodeCommand s.cb = .ok (i, []))
    (hi : (∃ b text, i = .scroll b text) ∨ ∃ b n, i = .scrolln b n) (b : BitVec 16) (text : List Byte) :
    ∃ n, ticks n { s.loadScroll b text with phase := .normalizing } =
      .next ((s.loadScroll b text).scrollText Config.font) := by
  have hr' : Ready (s.loadScroll b text) := by simpa [Ready, State.loadScroll] using hr
  have hd' : (s.loadScroll b text).dsub = none := by rw [State.loadScroll, loadText_dsub, loadBrightness_dsub, hd]
  have hcb' : (s.loadScroll b text).cb = s.cb := by rw [State.loadScroll, loadText_cb, loadBrightness_cb]
  generalize s.loadScroll b text = u at hr' hd' hcb'
  have hleave : (u.relabel .normalizing u.cb).leaveNormalizing Config.font =
      some ((u.relabel .normalizing u.cb).leaveText Config.font) := by
    rw [State.leaveNormalizing, relabel_cb, hcb', hcb]
    rcases hi with ⟨b, text, rfl⟩ | ⟨b, n, rfl⟩ <;> rfl
  have hrun := ticks_leaveText (s := u.relabel .normalizing u.cb) hr' hd'
  rw [scrollText_relabel] at hrun
  exact ticks_normalizing (s := u.relabel .normalizing u.cb) hr' rfl hleave hrun

/-- PIXELS from its last byte on (R177). -/
theorem ticks_pixels {ts : List Triple} (hcb : decodeCommand s.cb = .ok (.pixels ts, [])) :
    ∃ n, ticks n { s.loadPixels ts with phase := .normalizing } = .next (s.loadPixels ts).showPixels := by
  have hr' : Ready (s.loadPixels ts) := by simpa [Ready] using hr
  have hd' : (s.loadPixels ts).dsub = none := by rw [loadPixels_dsub, hd]
  have hcb' : (s.loadPixels ts).cb = s.cb := by rw [loadPixels_cb]
  generalize s.loadPixels ts = u at hr' hd' hcb'
  have hleave : (u.relabel .normalizing u.cb).leaveNormalizing Config.font =
      some (u.relabel .normalizing u.cb).leaveList := by
    rw [State.leaveNormalizing, relabel_cb, hcb', hcb]
  have hrun := ticks_leaveList (s := u.relabel .normalizing u.cb) hr' hd'
  rw [showPixels_relabel] at hrun
  exact ticks_normalizing (s := u.relabel .normalizing u.cb) hr' rfl hleave hrun

/-- IMGSTR from its last byte on (R183). -/
theorem ticks_imgstr {chars : List Byte} (hcb : decodeCommand s.cb = .ok (.imgstr chars, [])) :
    ∃ n t, exec (.imgstr chars) s = .next t ∧ ticks n { s with phase := .normalizing } = .next t := by
  have hleave : (s.relabel .normalizing s.cb).leaveNormalizing Config.font =
      some ((s.relabel .normalizing s.cb).leaveImage chars) := by
    rw [State.leaveNormalizing, relabel_cb, hcb]
  obtain ⟨n, t, ht, hn⟩ := ticks_leaveImage (s := s.relabel .normalizing s.cb) hr hd chars
  rw [exec_relabel rfl] at ht
  obtain ⟨n', hn'⟩ := ticks_normalizing (s := s.relabel .normalizing s.cb) hr rfl hleave ⟨n, hn⟩
  exact ⟨n', t, ht, hn'⟩

/-- DRAW from its last byte on (R142). -/
theorem ticks_draw_command (b : BitVec 16) (masks : Vector Byte 17) :
    ∃ n, ticks n { s.loadBitmap b masks with phase := .bitmapDraw, dsub := some .dSelect } =
      .next ((s.loadBitmap b masks).drawBitmap.respond okCode 0) := by
  have hr' : Ready (s.loadBitmap b masks) := by simpa [Ready] using hr
  have hd' : (s.loadBitmap b masks).dsub = none := by rw [loadBitmap_dsub, hd]
  generalize s.loadBitmap b masks = u at hr' hd'
  obtain ⟨n, hn⟩ := ticks_bitmap_respond (s := u.relabel .bitmapDraw u.cb) hr' (.inr rfl) hd'
  rw [drawBitmap_relabel, respond_relabel] at hn
  exact ⟨n, hn⟩

/-- From its last byte on a command runs to the state its meaning answers. -/
theorem ticks_begin {i : Instr} (hcb : decodeCommand s.cb = .ok (i, [])) :
    ∃ n t, exec i s = .next t ∧ ticks n (State.begin i s) = .next t := by
  have hi := isCommand_of_decodeCommand hcb
  cases i with
  | clear => exact ⟨2, _, rfl, ticks_clearing (s := s.relabel .clearing s.cb) hr rfl⟩
  | scroll b text =>
    obtain ⟨n, hn⟩ := ticks_scroll hr hd hcb (.inl ⟨b, text, rfl⟩) b text
    exact ⟨n, _, rfl, hn⟩
  | scrolln b m =>
    obtain ⟨n, hn⟩ := ticks_scroll hr hd hcb (.inr ⟨b, m, rfl⟩) b (dec m)
    exact ⟨n, _, rfl, hn⟩
  | draw b masks =>
    obtain ⟨n, hn⟩ := ticks_draw_command hr hd b masks
    exact ⟨n, _, rfl, hn⟩
  | pixels ts =>
    obtain ⟨n, hn⟩ := ticks_pixels hr hd hcb
    exact ⟨n, _, rfl, hn⟩
  | imgstr chars => exact ticks_imgstr hr hd hcb
  | paddr x y =>
    refine ⟨0, State.begin (.paddr x y) s, ?_, rfl⟩
    rw [exec, execPaddr, State.begin]
    cases panelPoint? x y with
    | some p => rfl
    | none => rfl
  | selectFrame id shown => simp [Instr.isCommand] at hi
  | clearFrame => simp [Instr.isCommand] at hi
  | setPixel pcol prow b => simp [Instr.isCommand] at hi

end begin

/-- Settles O59: the bytes are received up to the command's begin, which the meaning cannot tell from `Idle`, and from
there the command runs to the answer. -/
theorem portsRefineCommands : Obligations.PortsRefineCommands := by
  intro i own rest s hi henc hrst hp hdrv hrsp hdsub hcb hin
  have hdecode : decodeCommand own = .ok (i, []) := by
    simpa using decodeCommand_form (commandForm_of_encode hi henc [])
  obtain ⟨m, p, hm⟩ := ticks_command hdecode s ⟨hrst, hdrv, hrsp⟩ hp hin
  obtain ⟨n, t, ht, hn⟩ := ticks_begin (i := i) (s := ({ s with cmdIn := rest } : State).relabel p own)
    ⟨hrst, hdrv, hrsp⟩ hdsub hdecode
  exact ⟨m + n, t, (exec_relabel (isCommand_of_decodeCommand hdecode) _ p own).symm.trans ht, ticks_trans hm hn⟩

end Sys2Proof.Machine
end

section
/-! Proofs of the family other: operands, calls and the decimal text (R102, R103, R106, R162, R178). -/

namespace Sys2Proof.Machine

/-! ## Clamped operands -/

theorem clamp_eq_max_min (v : Int) {hi : Int} (h : 0 ≤ hi) : clamp v 0 hi = max 0 (min v hi) := by
  unfold clamp
  split_ifs <;> omega

/-- A byte holds a number from 0 to 255 as it is. -/
theorem toNat_ofInt_byte {v : Int} (h0 : 0 ≤ v) (h1 : v ≤ 255) : ((BitVec.ofInt 8 v).toNat : Int) = v := by
  rw [BitVec.toNat_ofInt]
  omega

theorem toNat_clampBrightness (b : BitVec 16) : ((clampBrightness b).toNat : Int) = max 0 (min b.toInt 255) := by
  rw [clampBrightness, clamp_eq_max_min _ (by decide), Config.brightMax]
  exact toNat_ofInt_byte (by omega) (by omega)

/-- Settles O7: the operand is clamped before it is cut to a byte, and the examples are instances. -/
theorem brightnessClamp : Obligations.BrightnessClamp := by
  refine ⟨fun b s => ⟨clampBrightness b, rfl, toNat_clampBrightness b⟩, toNat_clampBrightness,
    ?_, ?_, ?_, ?_, ?_, ?_⟩ <;> decide

/-- Settles O8: the intensity is clamped and scaled before it is cut to a byte. -/
theorem intensityScale : Obligations.IntensityScale := by
  refine ⟨fun i => ?_, by decide⟩
  rw [scale, clamp_eq_max_min _ (by decide), Config.intensMax]
  exact toNat_ofInt_byte (by omega) (by omega)

/-! ## The decimal text -/

/-- The magnitude of a 32-bit integer has at most ten digits. -/
theorem natAbs_toInt_lt (n : BitVec 32) : n.toInt.natAbs < 10 ^ (9 + 1) := by
  have := n.toInt_lt
  have := n.le_toInt
  omega

/-- Settles O9: the digits of the magnitude, behind a `-` for a negative number. -/
theorem decimalText : Obligations.DecimalText := by
  intro n
  obtain ⟨ds, hds, hcanon, hvalue, hlen⟩ := decDigits_spec 9 n.toInt.natAbs [] (natAbs_toInt_lt n)
  rw [List.append_nil] at hds
  unfold dec
  rw [hds]
  split
  next hneg => exact ⟨by rw [List.length_cons]; omega, ds, rfl, hcanon, by rw [hvalue]; omega⟩
  next hpos => exact ⟨by omega, hcanon, by rw [hvalue]; omega⟩

/-! ## Words and calls of the tables -/

/-- Settles O5: a word of each table row, decoded. -/
theorem wordsOfTheTables : Obligations.WordsOfTheTables := by
  unfold Obligations.WordsOfTheTables
  decide

/-- Settles O6: each call is expanded by its own equation. -/
theorem facadeDispatch : Obligations.FacadeDispatch :=
  ⟨rfl, fun _ _ => rfl, fun _ => rfl, fun _ _ => rfl, fun _ => rfl, fun _ _ => rfl, fun _ _ => rfl, fun _ _ => rfl,
    fun _ => rfl, fun _ _ => rfl, fun _ _ => rfl, fun _ _ => rfl, fun _ => rfl⟩

/-- Settles O12: glyph 0 is blank by the constraint on the font, and the spacer always (R9, R152). -/
theorem spaceIsBlank : Obligations.SpaceIsBlank := by
  intro k
  have hblank (k : Fin 5) : Config.font 0 k = 0 := if_pos rfl
  rw [charColumn_of_le Config.font (c := 32) (by decide)]
  cases k using Fin.lastCases with
  | last => exact glyphcol_spacer ..
  | cast k => exact (glyphcol_of_lt Config.font _ k).trans ((fontRom_glyph_column ..).trans (hblank k))

/-! ## The mapper and PADDR -/

theorem unmap_mapIndex (x : PanelX) (y : PanelY) : unmap (mapIndex x y) = some (x, y) := by
  revert x y; decide

/-- Settles O14: the range is read off the two closed forms. -/
theorem mapperInverse : Obligations.MapperInverse := by
  refine ⟨unmap_mapIndex, fun x y => ?range, by decide⟩
  case range =>
    by_cases hx : x.val ≤ 8
    · rw [mapIndex_toNat_left y hx]; omega
    · rw [mapIndex_toNat_right y (by omega)]; omega

/-- Settles O15: on the panel the two halves of the index are put together again. -/
theorem mapperBlock : Obligations.MapperBlock := by
  intro mx my
  refine ⟨?ok, fun h => ?index⟩
  case ok => unfold mapBlock; split <;> simp_all
  case index =>
    rw [mapBlock, dif_pos h]
    apply BitVec.eq_of_toNat_eq
    rw [toNat_append_eq_add]
    exact physIndex_extract _

/-- Settles O16: the closed form of the half the column lies in is the data of the response. -/
theorem paddrOnPanel : Obligations.PaddrOnPanel := by
  intro x y s hx hy
  have hindex : (mapIndex ⟨x.toNat, by omega⟩ ⟨y.toNat, by omega⟩).toNat =
      if 8 < x.toNat then (17 - x.toNat) * 16 + (y.toNat + 8) else x.toNat * 16 + (7 - y.toNat) := by
    split
    · exact mapIndex_toNat_right _ (by simpa)
    · exact mapIndex_toNat_left _ (by simp; omega)
  simp only [exec, execPaddr, panelPoint?_of_le hx hy, State.respond, responseWord_eq, hindex]
  simp [okCode]

/-- Settles O17: off the panel there is no point to map. -/
theorem paddrOffPanel : Obligations.PaddrOffPanel := by
  intro x y s h
  have hnone : panelPoint? x y = none := dif_neg (by omega)
  simp only [exec, execPaddr, hnone]
  rfl

/-! ## The driver primitives -/

/-- Settles O18: no cell is written. -/
theorem selectFrameEffect : Obligations.SelectFrameEffect :=
  fun id shown s => ⟨s.chip.accept (.selectFrame id shown), rfl, rfl, rfl, cell_accept_selectFrame s.chip id shown⟩

/-- Settles O19: the target frame is cleared. -/
theorem clearFrameEffect : Obligations.ClearFrameEffect :=
  fun s => ⟨s.chip.accept .clearFrame, rfl, rfl, rfl, cell_accept_clearFrame s.chip⟩

theorem physIndex_lt_iff (pcol prow : BitVec 4) : physIndex pcol prow < 144 ↔ pcol.toNat ≤ 8 := by
  have := prow.isLt
  unfold physIndex
  omega

/-- Settles O20: the index is inside a frame, and the one cell it names is written. -/
theorem setPixelEffect : Obligations.SetPixelEffect := by
  intro pcol prow b s h
  have hlt := (physIndex_lt_iff pcol prow).mpr h
  exact ⟨s.chip.accept (.setPixel pcol prow b), if_pos hlt, accept_setPixel_target .., accept_setPixel_visible ..,
    fun f idx => cell_accept_setPixel s.chip pcol prow b f idx hlt⟩

/-- Settles O21: the index is beyond the frame. -/
theorem setPixelWithoutCell : Obligations.SetPixelWithoutCell := by
  intro pcol prow b s h
  exact if_neg (by rw [physIndex_lt_iff]; omega)

/-- Settles O22: a frame id, a clear or a cell written twice is as written once. -/
theorem primitivesAreIdempotent : Obligations.PrimitivesAreIdempotent := by
  intro c p
  cases p with
  | selectFrame id shown => cases shown <;> rfl
  | clearFrame => simp [Chip.accept, memClear_memClear]
  | setPixel pcol prow b =>
    simp only [Chip.accept]
    split
    · simp only [memWrite_memWrite]
    · rfl

end Sys2Proof.Machine
end

section
/-! Proofs of the family other: DRAW, CLEAR, PIXELS and IMGSTR (R136 to R143, R176 to R186). -/

namespace Sys2Proof.Machine

/-! ## DRAW -/

/-- The primitives of the draw of 17 column bytes, written out (R136, R138, R143). -/
theorem drawPrims_bitmapOf (t : FrameId) (masks : Vector Byte 17) (b : Byte) :
    drawPrims t (bitmapPixels (bitmapOf masks) b) = drawSequence t (fun x y => masks[x].getLsbD y.val) b := by
  have hlit : (fun (x : PanelX) (y : PanelY) => (bitmapOf masks)[x].getLsbD y.val) =
      fun x y => masks[x].getLsbD y.val :=
    funext₂ (lit_bitmapOf masks)
  rw [drawPrims_bitmap, hlit]

/-- Settles O24: the primitives DRAW accepts are those of its bitmap, written out. -/
theorem drawEmitsItsSequence : Obligations.DrawEmitsItsSequence := by
  intro b masks s
  refine ⟨_, _, exec_draw b masks s, rfl, ?_, ?_, rfl⟩
  · rw [drawPrims_bitmapOf]; rfl
  · rw [drawPrims_bitmapOf]; rfl

/-- A column byte without bit 7 is its lower seven bits (R143). -/
theorem columnMask_eq_extractLsb' (m : Byte) : columnMask m = m.extractLsb' 0 7 := by
  apply BitVec.eq_of_toNat_eq
  rw [columnMask, toNat_field, BitVec.toNat_setWidth]
  omega

theorem drawnBitmap_target (t : FrameId) (m : Bitmap) (b : Byte) (c : Chip) :
    ((drawPrims t (bitmapPixels m b)).foldl Chip.accept c).target = t := by
  rw [bitmapPixels_eq]; exact drawn_target ..

theorem drawnBitmap_visible (t : FrameId) (m : Bitmap) (b : Byte) (c : Chip) :
    ((drawPrims t (bitmapPixels m b)).foldl Chip.accept c).visible = t := by
  rw [bitmapPixels_eq]; exact drawn_visible ..

/-- Settles O25: the drawn frame is the target of the one draw, and the active frame is not. -/
theorem drawResult : Obligations.DrawResult := by
  intro b masks s
  have hsb : bitmapOf masks = Vector.ofFn fun j => masks[j].extractLsb' 0 7 := by
    simp only [bitmapOf, columnMask_eq_extractLsb']
  refine ⟨_, _, (exec_draw b masks s).trans (by rw [hsb]), drawnBitmap_target .., drawnBitmap_visible .., fun x y => ?_,
    fun idx h => drawn_unused _ _ _ _ h, fun idx => drawn_other _ _ _ _ (otherFrame_ne _).symm⟩
  rw [← hsb, ← lit_bitmapOf]
  exact drawn_pixel ..

/-! ### How many primitives a draw emits -/

/-- The set bits of a bitmap, counted column by column. -/
theorem length_bitmapPixels (m : Bitmap) (b : Byte) : (bitmapPixels m b).length =
    ((List.finRange 17).map fun x => ((List.finRange 7).filter fun y => m[x].getLsbD y.val).length).sum := by
  simp only [bitmapPixels, panelPoints, List.length_map, List.filter_flatMap, List.length_flatMap, List.filter_map,
    Function.comp_def, lit]

/-- Two pixels of the panel never share a physical index (R137). -/
theorem physIndex_pixel_ne {p q : PanelX × PanelY} (h : p ≠ q) :
    physIndex ((mapIndex p.1 p.2).extractLsb' 4 4) ((mapIndex p.1 p.2).extractLsb' 0 4) ≠
      physIndex ((mapIndex q.1 q.2).extractLsb' 4 4) ((mapIndex q.1 q.2).extractLsb' 0 4) := by
  rw [physIndex_extract, physIndex_extract]
  intro e
  have := congrArg unmap (BitVec.eq_of_toNat_eq e)
  rw [unmap_mapIndex, unmap_mapIndex, Option.some.injEq] at this
  exact h this

theorem panelPoints_nodup : panelPoints.Nodup := (List.nodup_finRange 17).product (List.nodup_finRange 7)

/-- No two SET_PIXEL of a draw carry one index (R137). -/
theorem bitmapPixels_pairwise (m : Bitmap) (b : Byte) : (bitmapPixels m b).Pairwise fun p q =>
    ∀ c r c' r' b b', p = .setPixel c r b → q = .setPixel c' r' b' → physIndex c r ≠ physIndex c' r' := by
  refine List.pairwise_map.mpr ((panelPoints_nodup.filter _).imp fun hne c r c' r' b b' hp hq => ?_)
  cases hp
  cases hq
  exact physIndex_pixel_ne hne

/-- Settles O26: the SET_PIXEL of a draw are the images of the lit pixels, which the mapper keeps apart. -/
theorem drawPrimitiveCounts : Obligations.DrawPrimitiveCounts := by
  intro b masks s t ht
  rw [exec_draw, Host.Outcome.next.injEq] at ht
  subst ht
  have hpairwise := bitmapPixels_pairwise (bitmapOf masks) (clampBrightness b)
  refine ⟨bitmapPixels (bitmapOf masks) (clampBrightness b), rfl, ?length, ?nodup, ?pixels, hpairwise⟩
  case length =>
    rw [length_bitmapPixels]
    simp only [← lit_bitmapOf, lit]
  case pixels =>
    intro p hp
    obtain ⟨q, -, rfl⟩ := List.mem_map.mp hp
    exact ⟨q.1, q.2, rfl⟩
  case nodup =>
    refine hpairwise.imp_of_mem fun {p q} hp _ h e => ?_
    obtain ⟨r, -, rfl⟩ := List.mem_map.mp hp
    exact h _ _ _ _ _ _ rfl e.symm rfl

/-! ## CLEAR -/

/-- Settles O34: between draws the target is the active frame. -/
theorem clearBlanksTheVisibleFrame : Obligations.ClearBlanksTheVisibleFrame := by
  intro s hs
  refine ⟨s.chip.accept .clearFrame, rfl, rfl, rfl, fun f idx => ?_⟩
  rw [cell_accept_clearFrame, hs.1]

/-! ## PIXELS -/

/-- Settles O35: one write a triple, and the last write to a pixel wins. -/
theorem pixelListResult : Obligations.PixelListResult := by
  intro ts s hlen hpanel
  have hpanel' : ∀ t ∈ ts, (panelPoint? t.x t.y).isSome := fun t ht => panelPoint?_isSome.mpr (hpanel t ht)
  refine ⟨_, _, _, exec_pixels s hlen hpanel', take_writeFrom ts s.pl hlen, drop_writeFrom ts s.pl, ?length, ?prims,
    rfl, drawn_target .., drawn_visible .., fun x y => ?pixel, fun idx h => ?unused, fun idx => ?other⟩
  case length =>
    simp only [drawPrims, List.length_append, List.length_cons, List.length_nil, List.length_map,
      length_tripleWrites hpanel']
    omega
  case prims => rw [drawPrims, map_tripleWrites hpanel']
  case pixel =>
    rw [Chip.pixel, drawn_cell, if_pos rfl]
    exact lastWrite_triples ts hpanel' x y 0
  case unused => rw [drawn_cell, if_pos rfl, lastWrite_unused h]
  case other => rw [drawn_cell, if_neg (otherFrame_ne _).symm]

/-- Settles O36: the check finds the first triple off the panel before anything is drawn. -/
theorem offPanelListStops : Obligations.OffPanelListStops := by
  intro ts s j hlen hj hbad hok
  have hfirst : firstOffPanel 0 ts = some j := by
    have := firstOffPanel_eq hj (mt panelPoint?_isSome.mp hbad) (fun m hm => panelPoint?_isSome.mpr (hok m hm)) 0
    rwa [Nat.zero_add] at this
  refine ⟨writeFrom 0 ts s.pl, ?_, take_writeFrom ts s.pl hlen, drop_writeFrom ts s.pl⟩
  simp only [exec, execPixels, State.showPixels, pixelList_loadPixels s ts hlen, hfirst, State.raise, State.respond,
    responseWord_ofNat _ (show j ≤ 255 by omega)]
  rfl

/-! ## IMGSTR -/

/-- Settles O38: the check finds the first offending position before anything is decoded. -/
theorem malformedImageStops : Obligations.MalformedImageStops := by
  intro chars s p hp
  simp only [exec, execImgstr, hp, State.raise, State.respond,
    responseWord_ofNat _ (show p ≤ 255 from (imageDefect_le hp).trans (by decide))]
  rfl

/-- Settles O37: the check examines position after position, and after the last one the end of the string. -/
theorem imageStringDefect : Obligations.ImageStringDefect := by
  intro chars good
  have hgood (p : Nat) : good p ↔ ∃ h : p < chars.length, imageCharOk (0 + p) chars[p] = true := by
    simp only [good, imageCharOk_iff, Nat.zero_add]
  simp only [hgood]
  refine ⟨firstMalformed_none 125 0 chars, fun p hp => ?_⟩
  obtain ⟨j, rfl, hle, hbefore, hbad, hend⟩ := firstMalformed_some 125 0 chars p hp
  rw [Nat.zero_add]
  refine ⟨hbefore, ?_⟩
  rcases Nat.lt_or_eq_of_le hle with hlt | heq
  · exact .inl ⟨hlt, hbad hlt⟩
  · exact .inr ⟨heq, hend heq⟩

/-- A custom image that is well formed is the pixel list it decodes to (R183). -/
theorem exec_imgstr {chars : List Byte} (h : imageDefect chars = none) (s : State) :
    exec (.imgstr chars) s = exec (.pixels (decodeImage chars)) s := by
  have hlist := pixelList_loadPixels s (decodeImage chars) (by simp [length_decodeImage])
  simp only [exec, execImgstr, h, execPixels, State.showPixels, hlist,
    firstOffPanel_none.mpr (decodeImage_onPanel chars)]

/-- An element of a list put together from rows of one length. -/
theorem getElem?_flatMap_range {α : Type} {f : Nat → List α} {n : Nat} (hf : ∀ r, (f r).length = n) {m r c : Nat}
    (hr : r < m) (hc : c < n) : ((List.range m).flatMap f)[r * n + c]? = (f r)[c]? := by
  induction m with
  | zero => omega
  | succ m ih =>
    have hlen : ((List.range m).flatMap f).length = m * n := by simp [List.length_flatMap, hf]
    rw [List.range_succ, List.flatMap_append, List.flatMap_singleton]
    rcases Nat.lt_or_eq_of_le (Nat.le_of_lt_succ hr) with hlt | rfl
    · have hrow : (r + 1) * n ≤ m * n := Nat.mul_le_mul_right n hlt
      rw [Nat.add_mul, Nat.one_mul] at hrow
      rw [List.getElem?_append_left (by omega), ih hlt]
    · rw [List.getElem?_append_right (by omega), hlen, Nat.add_sub_cancel_left]

/-- Where the triple of a pixel stands, and what it is (R185). -/
theorem getElem?_decodeImage (chars : List Byte) (x : PanelX) (y : PanelY) :
    (decodeImage chars)[y.val * 17 + x.val]? =
      some ⟨BitVec.ofNat 8 x.val, BitVec.ofNat 8 y.val, chars.getD (y.val * 18 + x.val) 0 - 0x30⟩ := by
  rw [decodeImage, getElem?_flatMap_range (fun r => by simp) y.isLt x.isLt]
  simp

/-- A pixel's character is a digit, so its value is the code less that of `0` (R184, R185). -/
theorem toNat_digit {chars : List Byte} (h : imageDefect chars = none) (x : PanelX) (y : PanelY) :
    (chars.getD (y.val * 18 + x.val) 0 - 0x30).toNat = (chars.getD (y.val * 18 + x.val) 0).toNat - 0x30 := by
  have hok := ((imageDefect_eq_none_iff chars).mp h).2 (y.val * 18 + x.val) (by omega)
  rw [imageCharOk_iff, if_neg (by omega)] at hok
  bv_omega

/-- Settles O39: the string's digits are the intensities of the decoded list, whose triples all lie on the panel. -/
theorem imageStringIsItsPixelList : Obligations.ImageStringIsItsPixelList := by
  intro chars s h
  have hpanel := decodeImage_onPanel chars
  have hlen := length_decodeImage chars
  refine ⟨exec_imgstr h s, hlen, fun x y => ⟨_, getElem?_decodeImage chars x y, ?x, ?y, ?digit⟩, ?run⟩
  case x => exact toNat_lengthByte (by omega)
  case y => exact toNat_lengthByte (by omega)
  case digit => exact toNat_digit h x y
  case run =>
    refine ⟨_, _, (exec_imgstr h s).trans (exec_pixels s (by omega) hpanel), rfl, rfl, rfl, ?_⟩
    simp only [drawPrims, List.length_append, List.length_cons, List.length_nil, List.length_map,
      length_tripleWrites hpanel, hlen]

end Sys2Proof.Machine
end

section
/-! Proofs of the family other: SCROLL and SCROLLN (R150 to R167). -/

namespace Sys2Proof.Machine

/-! ## The text a scroll renders -/

theorem text_loadScroll (b : BitVec 16) {text : List Byte} (s : State) (hl : text.length ≤ 255) :
    (s.loadScroll b text).text = text := text_loadText (s.loadBrightness b) text hl

theorem tlen_loadScroll (b : BitVec 16) (text : List Byte) (s : State) :
    (s.loadScroll b text).tlen = BitVec.ofNat 8 text.length := rfl

/-- A character of the loaded text, as the scroll engine reads it. -/
theorem txtAt_loadScroll (b : BitVec 16) {text : List Byte} (s : State) (hl : text.length ≤ 255) {i : Nat}
    (hi : i < text.length) : (s.loadScroll b text).txtAt i = text.getD i 0 := by
  rw [txtAt_eq _ _ (by rwa [tlen_loadScroll, toNat_lengthByte hl]), text_loadScroll b s hl]

/-- The characters of a renderable text have glyphs, and so have those of its normal form. -/
theorem glyphs_normalise {text : List Byte} (h : ∀ c ∈ text, 32 ≤ c.toNat ∧ c.toNat ≤ 126) :
    ∀ c ∈ normalise text, (glyphOf? c).isSome :=
  renderable_normalise fun c hc => glyphOf?_isSome.mpr (h c hc)

/-- Settles O32: a scroll renders the normal form of its text, and the short texts named are their own padding. -/
theorem scrollEquivalences : Obligations.ScrollEquivalences := by
  have same {text text' : List Byte} (h : normalise text = normalise text') (hl : text.length ≤ 255)
      (hl' : text'.length ≤ 255) (b : BitVec 16) (s : State) : exec (.scroll b text) s = exec (.scroll b text') s := by
    rw [exec_scroll b s hl, exec_scroll b s hl', h]
  exact ⟨fun b c s => same (by rfl) (by simp) (by simp) b s, fun b c d s => same (by rfl) (by simp) (by simp) b s,
    fun b s => same (by rfl) (by simp) (by simp) b s, exec_scrolln⟩

/-! ## An unrenderable text -/

theorem firstUnrenderable_normalise {text : List Byte} {j : Nat} (hj : j < text.length)
    (hbad : ¬ (32 ≤ text[j].toNat ∧ text[j].toNat ≤ 126))
    (hok : ∀ m, (hm : m < j) → 32 ≤ (text[m]'(by omega)).toNat ∧ (text[m]'(by omega)).toNat ≤ 126) :
    firstUnrenderable 0 (normalise text) = some j := by
  obtain ⟨pad, hp, -⟩ := normalise_append text
  have hfirst := firstUnrenderable_eq (text := text ++ pad) (j := j) (by rw [List.length_append]; omega)
    (by rwa [List.getElem_append_left hj, glyphOf?_isSome])
    (fun m hm => by rw [List.getElem_append_left (by omega), glyphOf?_isSome]; exact hok m hm) 0
  rwa [← hp, Nat.zero_add] at hfirst

/-- Settles O31: the padding of the normal form comes after the first character without a glyph, which ends the scroll
before its draw. -/
theorem unrenderableTextStops : Obligations.UnrenderableTextStops := by
  intro b text s j hlen hj hbad hok
  have hlen' := normalise_le text hlen
  refine ⟨writeFrom 0 (normalise text) s.txt, ?_, take_writeFrom _ s.txt hlen', drop_writeFrom _ s.txt⟩
  rw [exec_scroll b s hlen, State.renderText, text_loadScroll b s hlen', firstUnrenderable_normalise hj hbad hok]
  simp only [State.raise, State.respond, responseWord_ofNat _ (show j ≤ 255 by omega)]
  rfl

/-! ## The static path -/

theorem renderText_static {font : Font} {s : State} (hok : ∀ c ∈ s.text, (glyphOf? c).isSome) (h3 : s.tlen = 3) :
    s.renderText font = (s.fillStatic font).drawBitmap.respond okCode 0 := by
  rw [State.renderText, firstUnrenderable_none.mpr hok]
  exact if_pos h3

/-- SCROLL of 1 to 3 renderable characters, its whole answer (R150, R154, R155). -/
theorem exec_scroll_static (b : BitVec 16) {text : List Byte} (s : State) (hl : 1 ≤ text.length ∧ text.length ≤ 3)
    (hok : ∀ c ∈ text, 32 ≤ c.toNat ∧ c.toNat ≤ 126) {sb : Bitmap}
    (hsb : sb = staticBitmap Config.font (s.loadScroll b (normalise text)).txtAt) :
    exec (.scroll b text) s = .next { s with
      phase := .respond, err := 0, cb := [], rsp := some 0x0000
      br := clampBrightness b
      txt := writeFrom 0 (normalise text) s.txt, tlen := 3
      sb := sb
      active := otherFrame s.active
      dx := 0, dy := 0, pi := 0
      chip := (drawPrims (otherFrame s.active) (bitmapPixels sb (clampBrightness b))).foldl Chip.accept s.chip
      trace := s.trace ++ drawPrims (otherFrame s.active) (bitmapPixels sb (clampBrightness b)) } := by
  have hlen : (normalise text).length = 3 := (normalise_length_eq_three_iff text).mpr hl
  have h3 : (s.loadScroll b (normalise text)).tlen = 3 := by rw [tlen_loadScroll, hlen]; rfl
  have hok' : ∀ c ∈ (s.loadScroll b (normalise text)).text, (glyphOf? c).isSome := by
    rw [text_loadScroll b s (by omega)]; exact glyphs_normalise hok
  rw [exec_scroll b s (by omega), renderText_static hok' h3, State.drawBitmap, drawWith_eq, fillStatic_sb, ← hsb]
  simp only [State.fillStatic, State.respond, State.loadScroll, State.loadText, State.loadBrightness, hlen]
  rfl

/-- Settles O28: one draw of the bitmap whose columns are those of the three cells side by side. -/
theorem staticScroll : Obligations.StaticScroll := by
  intro b text s h1 h3 hok
  have hlen : (normalise text).length = 3 := (normalise_length_eq_three_iff text).mpr ⟨h1, h3⟩
  generalize hsb : staticBitmap Config.font (s.loadScroll b (normalise text)).txtAt = sb
  refine ⟨_, _, _, sb, exec_scroll_static b s ⟨h1, h3⟩ hok hsb.symm, ?front, ?back, fun x => ?column,
    drawnBitmap_target .., drawnBitmap_visible .., fun x y => drawn_pixel .., fun idx h => drawn_unused _ _ _ _ h,
    fun idx => drawn_other _ _ _ _ (otherFrame_ne _).symm, ?flips, drawPrims_bitmap .., rfl⟩
  case front => rw [← hlen]; exact take_writeFrom _ s.txt (by omega)
  case back => rw [← hlen]; exact drop_writeFrom _ s.txt
  case column =>
    rw [← hsb, staticBitmap, Fin.getElem_fin, Vector.getElem_ofFn, txtAt_loadScroll b s (by omega) (by omega)]
  case flips => rw [bitmapPixels_eq]; exact flips_drawPrims ..

/-! ## The animated path -/

/-- What one animation step draws, and which frame it shows then (R158). -/
theorem marqueeStep_draw (font : Font) (s : State) :
    (s.marqueeStep font).chip = (drawPrims (otherFrame s.active) (bitmapPixels (s.marqueeStep font).sb s.br)).foldl
      Chip.accept s.chip ∧
    (s.marqueeStep font).trace =
      s.trace ++ drawPrims (otherFrame s.active) (bitmapPixels (s.marqueeStep font).sb s.br) ∧
    (s.marqueeStep font).active = otherFrame s.active := by
  rw [marqueeStep_eq]
  exact ⟨rfl, rfl, rfl⟩

/-- What an animation leaves alone. -/
theorem marqueeSteps_kept (font : Font) (k : Nat) (s : State) :
    ∃ sb chip trace active sc ci dx dy pi, State.marqueeSteps font k s = { s with
      sb := sb, chip := chip, trace := trace, active := active, sc := sc, ci := ci, dx := dx, dy := dy, pi := pi } := by
  induction k with
  | zero => exact ⟨_, _, _, _, _, _, _, _, _, rfl⟩
  | succ k ih =>
    obtain ⟨sb, chip, trace, active, sc, ci, dx, dy, pi, e⟩ := ih
    rw [marqueeSteps_succ, e, marqueeStep_eq]
    exact ⟨_, _, _, _, _, _, _, _, _, rfl⟩


/-- Column `n` of the cells of a text, side by side (R154, R159). -/
def textColumn (font : Font) (text : List Byte) (n : Nat) : ColMask :=
  charColumn font (text.getD (n / 6) 0) ⟨n % 6, by omega⟩

/-- Entry `i` of the bitmap after `k` animation steps (R159). -/
def marqueeColumn (font : Font) (text : List Byte) (k i : Nat) : ColMask :=
  if k + i < 17 then 0 else textColumn font text (k + i - 17)

theorem getElem_shiftLeft (m : Bitmap) (c : ColMask) (i : PanelX) :
    (shiftLeft m c)[i] = if h : i.val < 16 then m[i.val + 1] else c := by
  simp [shiftLeft]

/-- The cursor counts the steps, six to a character (R24, R158). -/
theorem marqueeSteps_cursor (font : Font) (s : State) {k : Nat} (hk : k ≤ 6 * s.tlen.toNat) :
    (State.marqueeSteps font k s.startMarquee).ci.toNat = k / 6 ∧
      (State.marqueeSteps font k s.startMarquee).sc.val = k % 6 := by
  induction k with
  | zero => exact ⟨rfl, rfl⟩
  | succ k ih =>
    obtain ⟨hci, hsc⟩ := ih (by omega)
    have htlen := s.tlen.isLt
    rw [marqueeSteps_succ, marqueeStep_eq]
    generalize State.marqueeSteps font k s.startMarquee = u at hci hsc
    dsimp only
    split
    · rw [Fin.val_add, hci]; simp; omega
    · rw [BitVec.toNat_add, hci]; simp; omega

/-- The two frames are drawn in turn (R158). -/
theorem marqueeSteps_active (font : Font) (s : State) (k : Nat) :
    (State.marqueeSteps font k s.startMarquee).active = if k % 2 = 0 then s.active else otherFrame s.active := by
  induction k with
  | zero => rfl
  | succ k ih =>
    obtain ⟨-, -, hactive⟩ := marqueeStep_draw font (State.marqueeSteps font k s.startMarquee)
    rw [marqueeSteps_succ, hactive, ih]
    rcases Nat.mod_two_eq_zero_or_one k with h | h
    · rw [if_pos h, if_neg (by omega)]
    · rw [if_neg (by omega), if_pos (by omega), otherFrame_otherFrame]

/-- Each step shifts in the column of the text under the cursor (R158, R159). -/
theorem marqueeSteps_column (font : Font) (s : State) {k : Nat} (hk : k ≤ 6 * s.tlen.toNat) (i : PanelX) :
    (State.marqueeSteps font k s.startMarquee).sb[i] = marqueeColumn font s.text k i.val := by
  induction k generalizing i with
  | zero =>
    rw [marqueeColumn, if_pos (by omega)]
    exact Vector.getElem_replicate ..
  | succ k ih =>
    obtain ⟨hci, hsc⟩ := marqueeSteps_cursor font s (k := k) (by omega)
    have ih := ih (by omega)
    have htxt : (State.marqueeSteps font k s.startMarquee).txtAt (k / 6) = s.text.getD (k / 6) 0 := by
      obtain ⟨sb, chip, trace, active, sc, ci, dx, dy, pi, e⟩ := marqueeSteps_kept font k s.startMarquee
      rw [e]
      exact txtAt_eq s (k / 6) (by omega)
    rw [marqueeSteps_succ, marqueeStep_eq]
    generalize State.marqueeSteps font k s.startMarquee = u at hci hsc ih htxt
    dsimp only
    rw [getElem_shiftLeft]
    split
    next hi =>
      rw [show u.sb[i.val + 1] = u.sb[(⟨i.val + 1, by omega⟩ : PanelX)] from rfl, ih]
      simp only [marqueeColumn, show k + (i.val + 1) = k + 1 + i.val by omega]
    next hi =>
      have hn : k + 1 + i.val - 17 = k := by omega
      have hsc' : u.sc = ⟨k % 6, by omega⟩ := Fin.ext hsc
      rw [hci, htxt, hsc', marqueeColumn, if_neg (by omega), hn, textColumn]

/-- The bitmap after `k` animation steps (R159). -/
def marqueeBitmap (font : Font) (text : List Byte) (k : Nat) : Bitmap :=
  Vector.ofFn fun i => marqueeColumn font text k i.val

theorem getElem_marqueeBitmap (font : Font) (text : List Byte) (k : Nat) (i : PanelX) :
    (marqueeBitmap font text k)[i] = marqueeColumn font text k i.val := by
  simp [marqueeBitmap]

theorem marqueeSteps_bitmap (font : Font) (s : State) {k : Nat} (hk : k ≤ 6 * s.tlen.toNat) :
    (State.marqueeSteps font k s.startMarquee).sb = marqueeBitmap font s.text k := by
  refine Vector.ext fun i hi => ?_
  exact (marqueeSteps_column font s hk ⟨i, hi⟩).trans (getElem_marqueeBitmap font s.text k ⟨i, hi⟩).symm

/-- Settles O29: the cursor, the frames and the bitmap after `k` steps, each by induction on the steps. -/
theorem marqueeFrames : Obligations.MarqueeFrames := fun font s k hk =>
  ⟨(marqueeSteps_cursor font s hk).1, (marqueeSteps_cursor font s hk).2, marqueeSteps_active font s k,
    marqueeSteps_column font s hk⟩

/-! ### The primitives of an animation -/

/-- The primitives of animation step `k` of a text, into the frames in turn from the one that is not `a` (R158). -/
def marqueeDraw (font : Font) (text : List Byte) (a : FrameId) (b : Byte) (k : Nat) : List Prim :=
  drawSequence (if k % 2 = 0 then otherFrame a else a)
    (fun x y => if k + x.val < 16 then false else (textColumn font text (k + x.val - 16)).getLsbD y.val) b

/-- A step draws the bitmap it has shifted. -/
theorem marqueeDraw_eq (font : Font) (text : List Byte) (a : FrameId) (b : Byte) (k : Nat) :
    marqueeDraw font text a b k =
      drawPrims (if k % 2 = 0 then otherFrame a else a) (bitmapPixels (marqueeBitmap font text (k + 1)) b) := by
  have hon : (fun (x : PanelX) (y : PanelY) => (marqueeBitmap font text (k + 1))[x].getLsbD y.val) =
      fun x y => if k + x.val < 16 then false else (textColumn font text (k + x.val - 16)).getLsbD y.val := by
    funext x y
    rw [getElem_marqueeBitmap, marqueeColumn]
    by_cases hx : k + x.val < 16
    · rw [if_pos hx, if_pos (by omega)]; exact BitVec.getLsbD_zero
    · rw [if_neg hx, if_neg (by omega), show k + 1 + x.val - 17 = k + x.val - 16 by omega]
  rw [drawPrims_bitmap, hon, marqueeDraw]

/-- All primitives of the first `k` animation steps. -/
theorem marqueeSteps_emits (font : Font) (s : State) {k : Nat} (hk : k ≤ 6 * s.tlen.toNat) :
    (State.marqueeSteps font k s.startMarquee).trace =
      s.trace ++ (List.range k).flatMap (marqueeDraw font s.text s.active s.br) ∧
    (State.marqueeSteps font k s.startMarquee).chip =
      ((List.range k).flatMap (marqueeDraw font s.text s.active s.br)).foldl Chip.accept s.chip := by
  induction k with
  | zero => exact ⟨(List.append_nil _).symm, rfl⟩
  | succ k ih =>
    obtain ⟨htrace, hchip⟩ := ih (by omega)
    have hbitmap := marqueeSteps_bitmap font s hk
    have hactive := marqueeSteps_active font s k
    obtain ⟨hchip', htrace', -⟩ := marqueeStep_draw font (State.marqueeSteps font k s.startMarquee)
    have hbr : (State.marqueeSteps font k s.startMarquee).br = s.br := by
      obtain ⟨sb, chip, trace, active, sc, ci, dx, dy, pi, e⟩ := marqueeSteps_kept font k s.startMarquee
      rw [e, startMarquee_br]
    have hdraw : drawPrims (otherFrame (State.marqueeSteps font k s.startMarquee).active)
        (bitmapPixels (State.marqueeSteps font (k + 1) s.startMarquee).sb
          (State.marqueeSteps font k s.startMarquee).br) =
        marqueeDraw font s.text s.active s.br k := by
      rw [hbitmap, hactive, hbr, marqueeDraw_eq, apply_ite otherFrame, otherFrame_otherFrame]
    rw [marqueeSteps_succ] at hdraw ⊢
    rw [htrace', hchip', hdraw, htrace, hchip, List.range_succ, List.flatMap_append, List.flatMap_singleton,
      List.append_assoc, List.foldl_append]
    exact ⟨rfl, rfl⟩

/-- Each step flips once (R141). -/
theorem flips_marqueeDraws (font : Font) (text : List Byte) (a : FrameId) (b : Byte) (k : Nat) :
    flips ((List.range k).flatMap (marqueeDraw font text a b)) = k := by
  induction k with
  | zero => rfl
  | succ k ih =>
    rw [List.range_succ, List.flatMap_append, List.flatMap_singleton, flips_append, ih, marqueeDraw_eq, bitmapPixels_eq,
      flips_drawPrims]

/-! ### What the last two steps leave -/

/-- Two draws, into one frame and then into the other, leave every cell of both frames drawn. -/
theorem drawn_twice {t t' : FrameId} (h : t' ≠ t) (m m' : Bitmap) (b : Byte) (c : Chip) :
    let c' := (drawPrims t (bitmapPixels m b)).foldl Chip.accept
      ((drawPrims t' (bitmapPixels m' b)).foldl Chip.accept c)
    (∀ x y, c'.pixel t x y = if lit m x y then b else 0) ∧ (∀ x y, c'.pixel t' x y = if lit m' x y then b else 0) ∧
      ∀ f idx, (∀ x y, idx ≠ pixelCell x y) → c'.cell f idx = 0 := by
  refine ⟨fun x y => drawn_pixel .., fun x y => ?_, fun f idx hidx => ?_⟩
  · rw [Chip.pixel, drawn_other _ _ _ _ h]
    exact drawn_pixel ..
  · by_cases hf : f = t
    · rw [hf]; exact drawn_unused _ _ _ _ hidx
    · rw [drawn_other _ _ _ _ hf, show f = t' by revert f t t'; decide]
      exact drawn_unused _ _ _ _ hidx

/-- What the last two of an even number of steps leave in the two frames (R159, R160). -/
theorem marqueeDraws_leave (font : Font) (text : List Byte) (a : FrameId) (b : Byte) (c : Chip) {n : Nat}
    (h2 : 2 ≤ n) (hn : n % 2 = 0) :
    let c' := ((List.range n).flatMap (marqueeDraw font text a b)).foldl Chip.accept c
    c'.target = a ∧ c'.visible = a ∧
    (∀ x y, c'.pixel a x y = if lit (marqueeBitmap font text n) x y then b else 0) ∧
    (∀ x y, c'.pixel (otherFrame a) x y = if lit (marqueeBitmap font text (n - 1)) x y then b else 0) ∧
    ∀ f idx, (∀ x y, idx ≠ pixelCell x y) → c'.cell f idx = 0 := by
  obtain ⟨k, rfl⟩ : ∃ k, n = k + 2 := ⟨n - 2, by omega⟩
  have hlast : (List.range (k + 2)).flatMap (marqueeDraw font text a b) =
      (List.range k).flatMap (marqueeDraw font text a b) ++
        (drawPrims (otherFrame a) (bitmapPixels (marqueeBitmap font text (k + 1)) b) ++
          drawPrims a (bitmapPixels (marqueeBitmap font text (k + 2)) b)) := by
    simp only [List.range_succ, List.flatMap_append, List.flatMap_singleton, List.append_assoc]
    rw [marqueeDraw_eq, marqueeDraw_eq, if_pos (by omega), if_neg (by omega)]
  rw [hlast, List.foldl_append, List.foldl_append]
  exact ⟨drawnBitmap_target .., drawnBitmap_visible .., drawn_twice (otherFrame_ne a) _ _ b _⟩

/-! ### The whole animation -/

theorem renderText_animated {font : Font} {s : State} (hok : ∀ c ∈ s.text, (glyphOf? c).isSome)
    (h4 : 4 ≤ s.tlen.toNat) :
    s.renderText font = (State.marqueeSteps font (6 * s.tlen.toNat) s.startMarquee).respond okCode 0 := by
  rw [State.renderText, firstUnrenderable_none.mpr hok]
  exact if_neg (by bv_omega)

/-- The iterators are discarded at the end of every step (R39). -/
theorem marqueeSteps_iterators (font : Font) (s : State) {k : Nat} (hk : 0 < k) :
    (State.marqueeSteps font k s).dx = 0 ∧ (State.marqueeSteps font k s).dy = 0 ∧
      (State.marqueeSteps font k s).pi = 0 := by
  obtain ⟨j, rfl⟩ := Nat.exists_eq_succ_of_ne_zero hk.ne'
  rw [marqueeSteps_succ, marqueeStep_eq]
  exact ⟨rfl, rfl, rfl⟩

/-- The state after a whole animation (R156, R159, R190). -/
theorem marqueeSteps_whole (font : Font) (s : State) (hpos : 0 < s.tlen.toNat) {ps : List Prim}
    (hps : ps = (List.range (6 * s.tlen.toNat)).flatMap (marqueeDraw font s.text s.active s.br)) :
    State.marqueeSteps font (6 * s.tlen.toNat) s.startMarquee = { s with
      sb := marqueeBitmap font s.text (6 * s.tlen.toNat), ci := s.tlen, sc := 0, dx := 0, dy := 0, pi := 0
      chip := ps.foldl Chip.accept s.chip, trace := s.trace ++ ps } := by
  obtain ⟨htrace, hchip⟩ := marqueeSteps_emits font s (Nat.le_refl (6 * s.tlen.toNat))
  obtain ⟨hci, hsc⟩ := marqueeSteps_cursor font s (Nat.le_refl (6 * s.tlen.toNat))
  have hbitmap := marqueeSteps_bitmap font s (Nat.le_refl (6 * s.tlen.toNat))
  have hactive := marqueeSteps_active font s (6 * s.tlen.toNat)
  obtain ⟨hdx, hdy, hpi⟩ := marqueeSteps_iterators font s.startMarquee (show 0 < 6 * s.tlen.toNat by omega)
  obtain ⟨sb, chip, trace, active, sc, ci, dx, dy, pi, e⟩ := marqueeSteps_kept font (6 * s.tlen.toNat) s.startMarquee
  rw [e] at htrace hchip hci hsc hbitmap hactive hdx hdy hpi
  dsimp only at htrace hchip hci hsc hbitmap hactive hdx hdy hpi
  have hci' : ci = s.tlen := BitVec.eq_of_toNat_eq (by omega)
  have hsc' : sc = 0 := Fin.ext (by simp; omega)
  rw [if_pos (by omega)] at hactive
  rw [e, hbitmap, hci', hsc', hactive, hdx, hdy, hpi, hchip, htrace, ← hps]
  rfl

/-- SCROLL of no or of 4 and more renderable characters, its whole answer (R150, R156, R160). -/
theorem exec_scroll_animated (b : BitVec 16) {text : List Byte} (s : State) (hl : text.length = 0 ∨ 4 ≤ text.length)
    (hle : text.length ≤ 255) (hok : ∀ c ∈ text, 32 ≤ c.toNat ∧ c.toNat ≤ 126) {n : Nat} {ps : List Prim}
    (hn : n = (normalise text).length)
    (hps : ps = (List.range (6 * n)).flatMap (marqueeDraw Config.font (normalise text) s.active (clampBrightness b))) :
    exec (.scroll b text) s = .next { s with
      phase := .respond, err := 0, cb := [], rsp := some 0x0000
      br := clampBrightness b
      txt := writeFrom 0 (normalise text) s.txt, tlen := BitVec.ofNat 8 n
      sb := marqueeBitmap Config.font (normalise text) (6 * n)
      ci := BitVec.ofNat 8 n, sc := 0
      dx := 0, dy := 0, pi := 0
      chip := ps.foldl Chip.accept s.chip
      trace := s.trace ++ ps } := by
  have hle' := normalise_le text hle
  have h4 : 4 ≤ (normalise text).length := by rw [normalise_length]; split <;> omega
  have htext := text_loadScroll b s hle'
  have htlen : (s.loadScroll b (normalise text)).tlen.toNat = n := by rw [tlen_loadScroll, toNat_lengthByte hle', hn]
  have hok' : ∀ c ∈ (s.loadScroll b (normalise text)).text, (glyphOf? c).isSome := by
    rw [htext]; exact glyphs_normalise hok
  rw [exec_scroll b s hle, renderText_animated hok' (by omega), marqueeSteps_whole Config.font _ (by omega)
    (ps := ps) (by rw [htlen, htext, hps]; rfl), htlen, htext]
  simp only [State.respond, State.loadScroll, State.loadText, State.loadBrightness, ← hn]
  rfl

theorem lit_marqueeBitmap {font : Font} {text : List Byte} {k : Nat} (x : PanelX) (y : PanelY) (h : 17 ≤ k + x.val) :
    lit (marqueeBitmap font text k) x y = (textColumn font text (k + x.val - 17)).getLsbD y.val := by
  rw [lit, getElem_marqueeBitmap, marqueeColumn, if_neg (by omega)]

/-- Settles O30: the last of `6 * TLEN` draws goes into the frame that was active, the one before it into the other. -/
theorem animatedScroll : Obligations.AnimatedScroll := by
  intro b text s hl hle hok
  have h4 : 4 ≤ (normalise text).length := by rw [normalise_length]; split <;> omega
  have hle' := normalise_le text hle
  obtain ⟨htarget, hvisible, hshown, hother, hunused⟩ := marqueeDraws_leave Config.font (normalise text) s.active
    (clampBrightness b) s.chip (n := 6 * (normalise text).length) (by omega) (by omega)
  refine ⟨_, _, _, _, exec_scroll_animated b s hl hle hok rfl rfl, take_writeFrom _ s.txt hle', drop_writeFrom _ s.txt,
    fun i => ?column, htarget, hvisible, hshown, fun x y => ?before, hunused, flips_marqueeDraws .., rfl, rfl⟩
  case column =>
    rw [getElem_marqueeBitmap, marqueeColumn, if_neg (by omega),
      show 6 * (normalise text).length + i.val - 17 = 6 * (normalise text).length - 17 + i.val by omega]
    rfl
  case before =>
    rw [hother x y, lit_marqueeBitmap x y (by omega),
      show 6 * (normalise text).length - 1 + x.val - 17 = 6 * (normalise text).length - 18 + x.val by omega]
    rfl

/-! ## Integers -/

theorem dec_renderable (n : BitVec 32) : ∀ c ∈ dec n, 32 ≤ c.toNat ∧ c.toNat ≤ 126 := by
  have digits {l : List Byte} (h : canonicalDigits l) : ∀ c ∈ l, 32 ≤ c.toNat ∧ c.toNat ≤ 126 :=
    fun c hc => ⟨by have := h.2.1 c hc; omega, by have := h.2.1 c hc; omega⟩
  obtain ⟨-, h⟩ := decimalText n
  split at h
  · obtain ⟨ds, hds, hcanon, -⟩ := h
    rw [hds]
    exact List.forall_mem_cons.mpr ⟨by decide, digits hcanon⟩
  · exact digits h.1

theorem dec_length (n : BitVec 32) : 1 ≤ (dec n).length ∧ (dec n).length ≤ 11 := by
  obtain ⟨hle, h⟩ := decimalText n
  refine ⟨List.length_pos_iff.mpr fun hnil => ?_, hle⟩
  split at h
  · obtain ⟨ds, hds, -⟩ := h
    exact List.cons_ne_nil _ _ (hds.symm.trans hnil)
  · exact h.1.1 hnil

/-- The text in a buffer is the list written to its front, if that is its length. -/
theorem text_of_buffer {t : State} {text : List Byte} {v : Vector Byte 255} (htxt : t.txt = writeFrom 0 text v)
    (htlen : t.tlen = BitVec.ofNat 8 text.length) (hle : text.length ≤ 255) : t.text = text := by
  rw [State.text, htxt, htlen, toNat_lengthByte hle, take_writeFrom text v hle]

/-- Settles O33: a decimal text is renderable and has 1 to 11 characters, so it is one draw or an animation. -/
theorem integerScroll : Obligations.IntegerScroll := by
  intro b n s
  obtain ⟨h1, h11⟩ := dec_length n
  have hok := dec_renderable n
  by_cases h3 : (dec n).length ≤ 3
  · have hlen : (normalise (dec n)).length = 3 := (normalise_length_eq_three_iff _).mpr ⟨h1, h3⟩
    refine ⟨_, _, (exec_scrolln b n s).trans (exec_scroll_static b s ⟨h1, h3⟩ hok rfl), rfl, rfl, rfl, rfl,
      text_of_buffer rfl (by rw [hlen]; rfl) (by omega), rfl, rfl, drawnBitmap_target .., drawnBitmap_visible .., ?_,
      rfl, rfl, rfl, rfl, rfl, rfl, rfl⟩
    rw [if_pos h3, bitmapPixels_eq, flips_drawPrims]
    exact ⟨rfl, rfl⟩
  · have hnormal : normalise (dec n) = dec n := normalise_of_normal _ (by omega)
    obtain ⟨htarget, hvisible, -⟩ := marqueeDraws_leave Config.font (normalise (dec n)) s.active (clampBrightness b)
      s.chip (n := 6 * (normalise (dec n)).length) (by rw [hnormal]; omega) (by omega)
    refine ⟨_, _, (exec_scrolln b n s).trans (exec_scroll_animated b s (.inr (by omega)) (by omega) hok rfl rfl), rfl,
      rfl, rfl, rfl, text_of_buffer rfl rfl (by rw [hnormal]; omega), rfl, rfl, htarget, hvisible, ?_,
      rfl, rfl, rfl, rfl, rfl, rfl, rfl⟩
    rw [if_neg h3, flips_marqueeDraws, hnormal]
    exact ⟨rfl, rfl⟩

/-! ## Every cell of the shown frame has been written -/

/-- Every cell of a frame has been written (R236). -/
def Chip.Written (c : Chip) (f : FrameId) : Prop := ∀ idx : Fin 144, (memRead (cellAddr f idx.val) c.fm).isSome = true

theorem written_accept {c : Chip} {f : FrameId} (h : c.Written f) (p : Prim) : (c.accept p).Written f := by
  intro idx
  cases p with
  | selectFrame id shown => exact h idx
  | clearFrame =>
    rw [accept_clearFrame_fm, memRead_memClear]
    split
    · rfl
    · exact h idx
  | setPixel pcol prow b =>
    by_cases hlt : physIndex pcol prow < 144
    · rw [accept_setPixel_fm _ _ _ _ hlt, memRead_memWrite]
      split
      · rfl
      · exact h idx
    · rw [Chip.accept, if_neg hlt]
      exact h idx

theorem written_accept_clearFrame (c : Chip) : (c.accept .clearFrame).Written c.target := by
  intro idx
  have := idx.isLt
  rw [accept_clearFrame_fm, memRead_memClear, if_pos (by unfold cellAddr; omega)]
  rfl

theorem written_foldl {f : FrameId} (ps : List Prim) {c : Chip} (h : c.Written f) :
    (ps.foldl Chip.accept c).Written f := by
  induction ps generalizing c with
  | nil => exact h
  | cons p ps ih => exact ih (written_accept h p)

/-- A draw clears its frame first, and shows it at the end. -/
theorem written_drawPrims (t : FrameId) (pixels : List Prim) (c : Chip) :
    ((drawPrims t pixels).foldl Chip.accept c).Written ((drawPrims t pixels).foldl Chip.accept c).visible := by
  have hvisible : ((drawPrims t pixels).foldl Chip.accept c).visible = t := by
    rw [drawPrims, List.foldl_append]
    rfl
  rw [hvisible, drawPrims, List.append_assoc, List.foldl_append]
  exact written_foldl _ (written_accept_clearFrame (c.accept (.selectFrame t false)))

/-- Every cell of the shown frame has been written. -/
def State.ShownWritten (s : State) : Prop := s.chip.Written s.chip.visible

theorem shownWritten_drawWith (s : State) (pixels : List Prim) : (s.drawWith pixels).ShownWritten := by
  rw [drawWith_eq]
  exact written_drawPrims _ _ _

theorem shownWritten_drawBitmap (s : State) : s.drawBitmap.ShownWritten := shownWritten_drawWith _ _

theorem shownWritten_drawPixels (s : State) : s.drawPixels.ShownWritten := shownWritten_drawWith _ _

/-- A response changes no cell. -/
theorem State.ShownWritten.respond {s : State} (h : s.ShownWritten) (code : BitVec 4) (data : Byte) :
    (s.respond code data).ShownWritten := h

theorem raise_err_ne (s : State) (e : ErrorCause) (info : Byte) : (s.raise e info).err ≠ 0 := code_ne_zero e

theorem shownWritten_marqueeSteps (font : Font) (s : State) {k : Nat} (hk : 0 < k) :
    (State.marqueeSteps font k s).ShownWritten := by
  obtain ⟨j, rfl⟩ := Nat.exists_eq_succ_of_ne_zero hk.ne'
  rw [marqueeSteps_succ, State.ShownWritten, (marqueeStep_draw font _).1]
  exact written_drawPrims _ _ _

theorem shownWritten_scrollText (font : Font) (s : State) (h : (s.scrollText font).err = 0) :
    (s.scrollText font).ShownWritten := by
  have hlen := normalise_length_ge_three s.text
  rw [← tlen_normaliseText] at hlen
  unfold State.scrollText State.renderText at *
  split at h
  next j hj => exact absurd h (raise_err_ne _ _ _)
  next hj =>
    split
    · exact (shownWritten_drawBitmap _).respond _ _
    · exact (shownWritten_marqueeSteps font _ (by omega)).respond _ _

theorem shownWritten_showPixels (s : State) (h : s.showPixels.err = 0) : s.showPixels.ShownWritten := by
  unfold State.showPixels at *
  split at h
  next j hj => exact absurd h (raise_err_ne _ _ _)
  next hj => exact (shownWritten_drawPixels s).respond _ _

theorem shownWritten_imgstr {chars : List Byte} {s t : State} (ht : exec (.imgstr chars) s = .next t)
    (h : t.err = 0) : t.ShownWritten := by
  cases hd : imageDefect chars with
  | some p =>
    simp only [exec, execImgstr, hd, Host.Outcome.next.injEq] at ht
    exact absurd h (ht ▸ raise_err_ne _ _ _)
  | none =>
    rw [exec_imgstr hd] at ht
    exact Host.Outcome.next.inj ht ▸ shownWritten_showPixels _ (Host.Outcome.next.inj ht ▸ h)

/-- Settles O27: the frame shown at the end is the frame of the last draw. -/
theorem shownFrameIsDefined : Obligations.ShownFrameIsDefined := by
  intro i s t _ ht herr hi
  show t.ShownWritten
  rcases hi with ⟨b, text, rfl⟩ | ⟨b, n, rfl⟩ | ⟨b, masks, rfl⟩ | ⟨ts, rfl⟩ | ⟨chars, rfl⟩
  · exact Host.Outcome.next.inj ht ▸ shownWritten_scrollText Config.font _ (Host.Outcome.next.inj ht ▸ herr)
  · exact Host.Outcome.next.inj ht ▸ shownWritten_scrollText Config.font _ (Host.Outcome.next.inj ht ▸ herr)
  · exact Host.Outcome.next.inj ht ▸ (shownWritten_drawBitmap _).respond _ _
  · exact Host.Outcome.next.inj ht ▸ shownWritten_showPixels _ (Host.Outcome.next.inj ht ▸ herr)
  · exact shownWritten_imgstr ht herr

end Sys2Proof.Machine
end

section
/-! Proofs of the family other: what every command answers, the steps and reset (R34, R41, R63, R81, R86, R87, R98,
R134, R200, R208, R221, R230). -/

namespace Sys2Proof.Machine

/-! ## Every command -/

/-- Settles O42: a command ends with its response, and its primitives leave the ports alone. -/
theorem everyCommandResponds : Obligations.EveryCommandResponds := by
  intro i s hi
  obtain ⟨t, ht, u, code, data, ps, rfl, hcode, he, -⟩ := exec_command hi s
  exact ⟨_, data, ht, rfl, rfl, hcode, rfl, he.taken, he.cmdIn, he.drv, he.rst, he.dsub⟩

theorem renderText_err (font : Font) (s : State) : (s.renderText font).err = 0 ∨ (s.renderText font).err = 1 := by
  unfold State.renderText
  split
  · exact .inr rfl
  · split
    · exact .inl rfl
    · exact .inl rfl

theorem showPixels_err (s : State) : s.showPixels.err = 0 ∨ s.showPixels.err = 3 := by
  unfold State.showPixels
  split
  · exact .inr rfl
  · exact .inl rfl

/-- Settles O43: the check of a command raises its one error, and a decimal text passes the check. -/
theorem oneErrorKindPerCommand : Obligations.OneErrorKindPerCommand := by
  intro i s t hi ht
  cases i with
  | clear => exact .inl (Host.Outcome.next.inj ht ▸ rfl)
  | scroll b text => exact Host.Outcome.next.inj ht ▸ renderText_err ..
  | scrolln b n =>
    obtain ⟨u, -, hu, -, herr, -⟩ := integerScroll b n s
    rw [hu, Host.Outcome.next.injEq] at ht
    exact .inl (ht ▸ herr)
  | draw b masks => exact .inl (Host.Outcome.next.inj ht ▸ rfl)
  | pixels ts => exact Host.Outcome.next.inj ht ▸ showPixels_err _
  | imgstr chars =>
    simp only [exec, execImgstr] at ht
    split at ht
    · exact .inr (Host.Outcome.next.inj ht ▸ rfl)
    · exact .inl (Host.Outcome.next.inj ht ▸ rfl)
  | paddr x y =>
    simp only [exec, execPaddr] at ht
    split at ht
    · exact .inl (Host.Outcome.next.inj ht ▸ rfl)
    · exact .inr (Host.Outcome.next.inj ht ▸ rfl)
  | selectFrame id shown => simp [Instr.isCommand] at hi
  | clearFrame => simp [Instr.isCommand] at hi
  | setPixel pcol prow b => simp [Instr.isCommand] at hi

/-! ## Steps outside a command -/

theorem step_eq_tick {s : State} (h : s.readyCommand = none) : step s = tick s := by
  rw [step, h]

/-- No command is begun but from a quiet `Idle` with a whole command to come. -/
theorem readyCommand_eq_none {s : State}
    (h : s.phase ≠ .idle ∨ s.drv ≠ none ∨ s.rsp ≠ none ∨ ∃ e, decodeCommand s.cmdIn = .error e) :
    s.readyCommand = none := by
  rw [Option.eq_none_iff_forall_ne_some]
  rintro ⟨i, rest⟩ hr
  obtain ⟨-, hp, hdrv, hrsp, hd⟩ := readyCommand_some hr
  rcases h with h | h | h | ⟨e, h⟩
  · exact h hp
  · exact h hdrv
  · exact h hrsp
  · rw [hd] at h; cases h

/-- Settles O44: the conditions are those under which a step takes a whole command. -/
theorem stepRunsTheDecodedCommand : Obligations.StepRunsTheDecodedCommand := by
  intro s i rest hrst hp hdrv hrsp hd
  have hready : s.readyCommand = some (i, rest) := by
    rw [State.readyCommand, if_pos ⟨hrst, hp, hdrv, hrsp⟩, hd]
  rw [step, hready]

/-- Settles O47: with no command to run a step is the port event that is due. -/
theorem stepsOutsideCommands : Obligations.StepsOutsideCommands := by
  refine ⟨fun s w hrst hdrv hrsp => ?response, fun s hrst hdrv hrsp hp hc => ?wait,
    fun s hrst hdrv hrsp hp hc => ?stuck⟩
  case response =>
    rw [step_eq_tick (readyCommand_eq_none (.inr (.inr (.inl (by simp [hrsp]))))), tick_rsp hrst hdrv hrsp]
    rfl
  case wait =>
    rw [step_eq_tick (readyCommand_eq_none (.inr (.inr (.inr ⟨_, by rw [hc]; rfl⟩))))]
    simp [tick, hrst, hdrv, hrsp, hp, hc]
  case stuck =>
    rw [step_eq_tick (readyCommand_eq_none (.inl (by simp [hp])))]
    simp [tick, hrst, hdrv, hrsp, hp, hc]

/-- Settles O46: the first byte alone tells the illegal opcode, so no command is begun and the byte is answered. -/
theorem illegalOpcodeByte : Obligations.IllegalOpcodeByte := by
  intro s op rest hrst hp hdrv hrsp hc hop
  have hillegal := decodeCommand_of_illegal hop
  rw [step_eq_tick (readyCommand_eq_none (.inr (.inr (.inr ⟨_, by rw [hc]; exact hillegal rest⟩)))),
    tick_byte hrst hdrv hrsp (.inl hp) hc]
  simp only [State.acceptByte, hp, if_true, hillegal, State.raise, State.respond, responseWord_eq]
  rfl

/-! ## The collaborator is the fold of the trace -/

/-- Nothing has been accepted. -/
def Untouched (s t : State) : Prop := t.chip = s.chip ∧ t.trace = s.trace

theorem untouched_begin (i : Instr) (s : State) : Untouched s (State.begin i s) := by
  cases i
  case paddr x y =>
    obtain ⟨code, data, -, e⟩ := begin_paddr x y s
    exact e ▸ ⟨rfl, rfl⟩
  all_goals simp [Untouched, State.begin, State.loadScroll]

theorem untouched_acceptByte (s : State) (b : Byte) : Untouched s (s.acceptByte b) := by
  unfold State.acceptByte
  dsimp only
  split
  · exact untouched_begin _ _
  · exact ⟨rfl, rfl⟩
  · exact ⟨rfl, rfl⟩

theorem untouched_leaveNormalizing {font : Font} {s t : State} (h : s.leaveNormalizing font = some t) :
    Untouched s t := by
  cases normalized_leaveNormalizing h with
  | error u hu e info => exact ⟨hu.chip, hu.trace⟩
  | draw u hu hp hb => exact ⟨hu.chip, hu.trace⟩

theorem untouched_nextPixel (s : State) : Untouched s s.nextPixel := by
  obtain ⟨dx, dy, e, -⟩ | ⟨-, e⟩ := nextPixel_cases s <;> rw [e] <;> exact ⟨rfl, rfl⟩

theorem untouched_drawAction (s : State) (d : DrawSub) : Untouched s (s.drawAction d) := by
  cases d with
  | dSelect => exact ⟨rfl, rfl⟩
  | dClear => exact ⟨rfl, rfl⟩
  | dFlip => exact ⟨rfl, rfl⟩
  | dPixels =>
    simp only [State.drawAction, State.listPixel, State.bitmapPixel]
    split
    · repeat' split
      all_goals exact ⟨rfl, rfl⟩
    · split
      · exact ⟨rfl, rfl⟩
      · exact untouched_nextPixel s

theorem untouched_internal {font : Font} {s t : State} (h : s.internal font = some t) : Untouched s t := by
  unfold State.internal at h
  split at h
  · cases h
  · cases hp : s.phase <;> rw [hp] at h
    case normalizing => exact untouched_leaveNormalizing h
    case clearing => exact Option.some.inj h ▸ ⟨rfl, rfl⟩
    case idle | receive | respond => cases h
    case staticDraw | animatingStep | bitmapDraw | pixelDraw =>
      obtain ⟨d, -, rfl⟩ := Option.map_eq_some_iff.mp h
      exact untouched_drawAction s d

theorem untouched_afterDraw (font : Font) (s : State) : Untouched s (s.afterDraw font) := by
  unfold State.afterDraw Untouched
  split_ifs <;> simp

theorem untouched_drawAccepted (font : Font) (s : State) (d : DrawSub) : Untouched s (s.drawAccepted font d) := by
  cases d with
  | dSelect => exact ⟨rfl, rfl⟩
  | dClear => exact ⟨rfl, rfl⟩
  | dFlip => exact untouched_afterDraw font { s with active := otherFrame s.active, dx := 0, dy := 0, pi := 0 }
  | dPixels =>
    simp only [State.drawAccepted]
    split
    · exact ⟨rfl, rfl⟩
    · exact untouched_nextPixel s

theorem untouched_advance (font : Font) (s : State) : Untouched s (s.advance font) := by
  unfold State.advance
  cases s.phase with
  | clearing | idle | receive | normalizing | respond => exact ⟨rfl, rfl⟩
  | staticDraw | animatingStep | bitmapDraw | pixelDraw =>
    cases s.dsub with
    | some d => exact untouched_drawAccepted font s d
    | none => exact ⟨rfl, rfl⟩

/-- What has been accepted from one state to another is what the trace has grown by (R38, R63). -/
def Folds (s t : State) : Prop := ∃ ps, t.trace = s.trace ++ ps ∧ t.chip = ps.foldl Chip.accept s.chip

theorem Untouched.folds {s t : State} (h : Untouched s t) : Folds s t :=
  ⟨[], h.2.trans (List.append_nil _).symm, h.1⟩

theorem folds_acceptWord {s t : State} {w : BitVec 18} (h : s.acceptWord w = .next t) : Folds s t := by
  unfold State.acceptWord at h
  split at h
  next e he => cases h
  next p hp =>
    split at h
    next u hu =>
      obtain ⟨hchip, htrace⟩ := untouched_advance Config.font u
      rw [← Host.Outcome.next.inj h, exec_prim_next hu] at *
      exact ⟨[p], htrace, hchip⟩
    next r hr => cases h
    next r hr => cases h

theorem folds_tick {s t : State} (h : tick s = .next t) : Folds s t := by
  unfold tick at h
  split at h
  · exact Host.Outcome.next.inj h ▸ Untouched.folds ⟨rfl, rfl⟩
  split at h
  · exact folds_acceptWord h
  split at h
  · exact Host.Outcome.next.inj h ▸ Untouched.folds ⟨rfl, rfl⟩
  have byte (b : Byte) (rest : List Byte) : Folds s (({ s with cmdIn := rest } : State).acceptByte b) :=
    Untouched.folds (untouched_acceptByte { s with cmdIn := rest } b)
  split at h
  · exact Host.Outcome.next.inj h ▸ Untouched.folds ⟨rfl, rfl⟩
  · exact Host.Outcome.next.inj h ▸ byte _ _
  · cases h
  · exact Host.Outcome.next.inj h ▸ byte _ _
  · split at h
    · exact Host.Outcome.next.inj h ▸ (untouched_internal ‹_›).folds
    · cases h

/-- Settles O23: a step is a port event, which accepts at most one primitive, or a command, which emits its list. -/
theorem collaboratorIsTheFoldOfTheTrace : Obligations.CollaboratorIsTheFoldOfTheTrace := by
  intro s t ht
  obtain hstep | ⟨i, rest, hready, hstep⟩ := step_cases s
  · exact folds_tick (hstep ▸ ht)
  · obtain ⟨-, -, -, -, hd⟩ := readyCommand_some hready
    obtain ⟨t', ht', u, code, data, ps, rfl, -, he, -⟩ :=
      exec_command (isCommand_of_decodeCommand hd) { s with cmdIn := rest }
    rw [hstep, ht', Host.Outcome.next.injEq] at ht
    exact ht ▸ ⟨ps, he.trace, he.chip⟩

/-! ## The presented driver word -/

theorem advance_clearing {s : State} (h : s.phase = .clearing) (font : Font) :
    s.advance font = s.respond okCode 0 := by
  rw [State.advance, h]

theorem advance_idle {s : State} (h : s.phase = .idle) (font : Font) : s.advance font = s := by
  rw [State.advance, h]

theorem nextPixel_row {s : State} (h : s.dy.val < 6) : s.nextPixel = { s with dy := s.dy + 1 } := by
  rw [State.nextPixel, if_pos h]

theorem nextPixel_column {s : State} (h : s.dy.val = 6) (hx : s.dx.val < 16) :
    s.nextPixel = { s with dy := 0, dx := s.dx + 1 } := by
  rw [State.nextPixel, if_neg (by omega), if_pos hx]

theorem nextPixel_last {s : State} (h : s.dy.val = 6) (hx : s.dx.val = 16) :
    s.nextPixel = { s with dsub := some .dFlip } := by
  rw [State.nextPixel, if_neg (by omega), if_neg (by omega)]

/-- The frame just drawn becomes the active one, and the iterators are discarded. -/
theorem finishDraw_once {s : State} (h : s.phase ≠ .animatingStep) (font : Font) :
    s.finishDraw font = { s.respond okCode 0 with
      active := otherFrame s.active, dx := 0, dy := 0, pi := 0, dsub := none } :=
  afterDraw_once (s := { s with active := otherFrame s.active, dx := 0, dy := 0, pi := 0 }) h font

theorem finishDraw_last {s : State} (h : s.phase = .animatingStep) (hc : s.advanceCursor.ci = s.tlen) (font : Font) :
    s.finishDraw font = { s.advanceCursor.respond okCode 0 with
      active := otherFrame s.active, dx := 0, dy := 0, pi := 0, dsub := none } :=
  afterDraw_last (s := { s with active := otherFrame s.active, dx := 0, dy := 0, pi := 0 }) h hc font

theorem finishDraw_again {s : State} (h : s.phase = .animatingStep) (hc : s.advanceCursor.ci ≠ s.tlen) (font : Font) :
    s.finishDraw font = { s.advanceCursor.shiftIn font with
      active := otherFrame s.active, dx := 0, dy := 0, pi := 0, dsub := some .dSelect } :=
  afterDraw_again (s := { s with active := otherFrame s.active, dx := 0, dy := 0, pi := 0 }) h hc font

/-- A driver word is one primitive. -/
theorem decode_driver_prim {w : BitVec 18} {i : Instr} (h : decode (.driver w) = .ok (i, [])) :
    ∃ p, decodeDriver w = .ok p ∧ p.instr = i := by
  simp only [decode] at h
  split at h
  next p hp => exact ⟨p, hp, by simpa using h⟩
  next e he => cases h

/-- Settles O45: the word is carried out, and then the sequencer advances from the phase and sub-phase it is in, which
the primitive has left alone. -/
theorem stepCarriesOutTheDriverWord : Obligations.StepCarriesOutTheDriverWord := by
  intro s w i hrst hdrv hdecode
  obtain ⟨p, hp, rfl⟩ := decode_driver_prim hdecode
  have hstep := step_word hrst hdrv hp
  refine ⟨fun hidle => ?idle, fun r hr => by rw [hstep, hr], fun t ht => ?_⟩
  case idle =>
    cases hx : exec p.instr { s with drv := none } with
    | next t =>
      have ht : t.phase = .idle := by rw [exec_prim_next hx]; exact hidle
      rw [hstep, hx]
      exact congrArg _ (advance_idle ht Config.font)
    | fault r => rw [hstep, hx]
    | refused r => rw [hstep, hx]
  obtain rfl := exec_prim_next ht
  replace hstep : step s = .next ((({ s with drv := none } : State).acceptPrim p).advance Config.font) := by
    rw [hstep, ht]
  generalize hu : ({ s with drv := none } : State).acceptPrim p = t at hstep
  obtain ⟨hphase, hdsub, hdx, hdy, hpi, hsb, hci, hsc, htlen, htxt, hactive⟩ : t.phase = s.phase ∧ t.dsub = s.dsub ∧
      t.dx = s.dx ∧ t.dy = s.dy ∧ t.pi = s.pi ∧ t.sb = s.sb ∧ t.ci = s.ci ∧ t.sc = s.sc ∧ t.tlen = s.tlen ∧
      t.txt = s.txt ∧ t.active = s.active := by
    subst hu; exact ⟨rfl, rfl, rfl, rfl, rfl, rfl, rfl, rfl, rfl, rfl, rfl⟩
  rw [hstep, ← hphase, ← hdsub, ← hdx, ← hdy, ← hpi, ← hsb, ← hci, ← hsc, ← htlen, ← htxt, ← hactive]
  clear hu ht hstep
  refine ⟨fun hc => by rw [advance_clearing hc]; rfl, fun hdraw => ?_⟩
  have hd : drawPhase t.phase := by unfold drawPhase; tauto
  refine ⟨fun h => ?_, fun h => ?_, fun h hpix => ?_, fun h hpix => ⟨fun hy => ?_, fun hy hx => ?_, fun hy hx => ?_⟩,
    fun h hm => ?_, fun h hm => ⟨fun hend => ?_, fun hend => ?_⟩⟩ <;> rw [advance_draw hd h, State.drawAccepted]
  · rw [if_pos hpix]
  · rw [if_neg hpix, nextPixel_row hy]
  · rw [if_neg hpix, nextPixel_column hy hx]
  · rw [if_neg hpix, nextPixel_last hy hx]
  · rw [finishDraw_once hm]; rfl
  · rw [finishDraw_last hm hend]; rfl
  · rw [finishDraw_again hm hend]
    simp only [State.shiftIn, State.advanceCursor, State.txtAt]

/-! ## Reset -/

/-- Settles O48: the reset values, written out; no cell is listed in an empty frame memory. -/
theorem resetValues : Obligations.ResetValues :=
  ⟨rfl, rfl, rfl, rfl, rfl, rfl, rfl, rfl, rfl, rfl, fun _ _ => rfl⟩

/-- Settles O49: while `rst` is asserted every other event is refused. -/
theorem resetPin : Obligations.ResetPin := fun s =>
  ⟨s.assertReset, rfl, rfl, rfl, rfl, rfl, rfl, rfl, rfl, rfl, rfl, rfl, fun _ => rfl, rfl, rfl, rfl,
    s.assertReset.releaseReset, rfl, rfl, rfl, rfl⟩

/-- Settles O50: the event happens exactly when `cmd_ready` is high. -/
theorem commandReady : Obligations.CommandReady := by
  intro s b
  have hready : (portStep (.cmdByte b) s).isSome = s.cmdReady := by
    rw [portStep]
    cases s.cmdReady <;> rfl
  rw [hready]
  simp [State.cmdReady]

/-- Settles O52: after reset LMX is `Idle` and quiet, and both sides are at frame 0. -/
theorem invariantAtReset : Obligations.InvariantAtReset :=
  ⟨rfl, ⟨.nil, nofun⟩, Nat.zero_le 4, ⟨rfl, rfl, rfl, rfl, rfl⟩, rfl⟩

end Sys2Proof.Machine
end
